-- ==== Sys2Proof/Word.lean ====
section
/-! DEFINITION. The plain data the spec's arithmetic works on: bytes, 32-bit words and pixels
(spec/00_scope.md rules R14 to R16). -/

namespace Sys2Proof

/-- A byte is 8 bits (R14); every channel value and every stream byte is one. -/
abbrev Byte := BitVec 8

/-- A host-visible register is 32 bits wide (R11, `REG_W`). -/
abbrev Word := BitVec 32

/-- A pixel: four 8-bit channels, always four, whatever the channel count of the image (R16, R143).
Two pixels are equal when all four channels are. -/
structure Pixel where
  r : Byte
  g : Byte
  b : Byte
  a : Byte
deriving DecidableEq, Repr, Inhabited

end Sys2Proof
end

