-- ==== Sys2Proof/Syntax.lean ====
section
/-! DEFINITION. The instruction set: the six chunk kinds, one constructor per row of spec/opcode_table.json
(rule R4: "the closed tagged variant {RUN, INDEX, DIFF, LUMA, RGB, RGBA}"). -/

namespace Sys2Proof

/-- A chunk with its operands after the biases are taken off (R77). The deltas are integers, the count and the cache
index are numbers, the raw channels are bytes. `WellFormed.lean` bounds them. -/
inductive Instr where
  /-- `INDEX i`: cache index 0 to 63 (R68). -/
  | index (idx : Nat)
  /-- `DIFF dr,dg,db`: three deltas, each in [-2,1] (R69). -/
  | diff (dr dg db : Int)
  /-- `LUMA dg,dr_dg,db_dg`: the green delta in [-32,31], the two relative deltas in [-8,7] (R70). -/
  | luma (dg drDg dbDg : Int)
  /-- `RUN n`: 1 to 62 copies of the previous pixel (R71). -/
  | run (count : Nat)
  /-- `RGB r,g,b` (R72). -/
  | rgb (r g b : Byte)
  /-- `RGBA r,g,b,a` (R73). -/
  | rgba (r g b a : Byte)
deriving DecidableEq, Repr

end Sys2Proof
end

