-- ==== Sys2Proof/WellFormed.lean ====
section
/-! DEFINITION. Which instructions exist: the operand ranges of rules R77 and R81 (spec/30_encoding.md). -/

namespace Sys2Proof

/-- `lo ≤ x ≤ hi` on integers, as the range tables of R77, R81 and R120 write it. -/
def inRange (lo hi x : Int) : Bool := decide (lo ≤ x) && decide (x ≤ hi)

/-- The operand ranges of R81: "An operand out of range is refused by the assembler and encodes nothing."
RGB and RGBA operands are bytes, so every one of them is in range. -/
def Instr.wellFormed : Instr → Bool
  | .index idx => decide (idx ≤ 63)
  | .diff dr dg db => inRange (-2) 1 dr && inRange (-2) 1 dg && inRange (-2) 1 db
  | .luma dg drDg dbDg => inRange (-32) 31 dg && inRange (-8) 7 drDg && inRange (-8) 7 dbDg
  | .run count => decide (1 ≤ count) && decide (count ≤ 62)
  | .rgb _ _ _ => true
  | .rgba _ _ _ _ => true

end Sys2Proof
end

