-- ==== Sys2Proof/Decode.lean ====
section
/-! DEFINITION. The chunk decoder and, after it, the encoder: the formats of rules R68 to R73, the opcode map of R74,
the lengths of R75 and the operand assembly of R77 and R78 (spec/30_encoding.md). The tag values are the default of
the parameter `TAGS` (R11, D39). -/

namespace Sys2Proof

/-- `v[hi:lo]` of a byte: bits `hi` down to `lo` as an unsigned number (R14). -/
def bits (v : Byte) (hi lo : Nat) : Nat := v.toNat / 2 ^ lo % 2 ^ (hi - lo + 1)

/-- INDEX has `b0[7:6] = 0b00` (R68). -/
def tagIndex : Nat := 0

/-- DIFF has `b0[7:6] = 0b01` (R69). -/
def tagDiff : Nat := 1

/-- LUMA has `b0[7:6] = 0b10` (R70). -/
def tagLuma : Nat := 2

/-- RUN has `b0[7:6] = 0b11`, with `b0` neither 0xFE nor 0xFF (R71). -/
def tagRun : Nat := 3

/-- The first byte of RGB (R72). -/
def tagRgb : Byte := 0xFE

/-- The first byte of RGBA (R73). -/
def tagRgba : Byte := 0xFF

/-- `len(b0)` (R75): the first byte alone gives the chunk's length. -/
def chunkLen (b0 : Byte) : Nat :=
  if b0 = tagRgb then 4
  else if b0 = tagRgba then 5
  else if bits b0 7 6 = tagLuma then 2
  else 1

/-- Byte `k` after the first. The callers have checked the length (R75), so the 0 past the end is never used. -/
def byteAt (rest : List Byte) (k : Nat) : Byte := rest.getD k 0

/-- The opcode map of R74 with the operands of R77: the 8-bit tags are tested before the 2-bit tags, and every first
byte starts exactly one kind. -/
def decodeChunk (b0 : Byte) (rest : List Byte) : Instr :=
  if b0 = tagRgb then .rgb (byteAt rest 0) (byteAt rest 1) (byteAt rest 2)
  else if b0 = tagRgba then .rgba (byteAt rest 0) (byteAt rest 1) (byteAt rest 2) (byteAt rest 3)
  else if bits b0 7 6 = tagIndex then .index (bits b0 5 0)
  else if bits b0 7 6 = tagDiff then .diff (bits b0 5 4 - 2) (bits b0 3 2 - 2) (bits b0 1 0 - 2)
  else if bits b0 7 6 = tagLuma then
    .luma (bits b0 5 0 - 32) (bits (byteAt rest 0) 7 4 - 8) (bits (byteAt rest 0) 3 0 - 8)
  else .run (bits b0 5 0 + 1)

/-- Why a byte list holds no chunk. No first byte is illegal (R79), so only the length can be wrong. -/
inductive DecodeError where
  /-- There is no first byte. -/
  | noBytes
  /-- The first byte asks for more bytes than there are (R75). -/
  | cutShort (needed present : Nat)
deriving DecidableEq, Repr

/-- Read one chunk off a byte list and give the bytes after it (R74, R75, R76). -/
def decode : List Byte → Except DecodeError (Instr × List Byte)
  | [] => .error .noBytes
  | b0 :: rest =>
    if rest.length + 1 < chunkLen b0 then .error (.cutShort (chunkLen b0) (rest.length + 1))
    else .ok (decodeChunk b0 rest, rest.drop (chunkLen b0 - 1))

/-- A byte from a 2-bit tag in [7:6] and a 6-bit field in [5:0]. -/
def taggedByte (tag field : Nat) : Byte := BitVec.ofNat 8 (tag * 64 + field)

/-- The biased field of a signed operand (R78): `x + bias` as an unsigned number. -/
def biased (x bias : Int) : Nat := (x + bias).toNat

/-- The bytes of a well-formed instruction (R68 to R73, R78; the encoder's R121 to R126). -/
def encode : Instr → List Byte
  | .index idx => [taggedByte tagIndex idx]
  | .diff dr dg db => [taggedByte tagDiff (biased dr 2 * 16 + biased dg 2 * 4 + biased db 2)]
  | .luma dg drDg dbDg =>
    [taggedByte tagLuma (biased dg 32), BitVec.ofNat 8 (biased drDg 8 * 16 + biased dbDg 8)]
  | .run count => [taggedByte tagRun (count - 1)]
  | .rgb r g b => [tagRgb, r, g, b]
  | .rgba r g b a => [tagRgba, r, g, b, a]

/-- The lowest `n` bytes of a number, byte 0 first. -/
def lowBytes : Nat → Nat → List Byte
  | 0, _ => []
  | n + 1, w => BitVec.ofNat 8 w :: lowBytes n (w / 256)

/-- The longest chunk, RGBA, has five bytes (R67). -/
def maxChunkLen : Nat := 5

/-- The bytes of an opcode-table word: byte `k` of the stream is bits `8k+7..8k`; the bits above `nbits` are 0. -/
def tableBytes (nbits w : Nat) : List Byte := lowBytes maxChunkLen (w % 2 ^ nbits)

/-- The instruction the decoder reads from an opcode-table word. -/
def decodeTableWord (nbits w : Nat) : Option Instr :=
  match decode (tableBytes nbits w) with
  | .ok (i, _) => some i
  | .error _ => none

end Sys2Proof
end

