-- ==== Sys2Proof/Config.lean ====
section
/-! DEFINITION. What a platform fixes (the OPEN parameters of rule R11) and the values the spec leaves open
(spec/93_implementation_defined.md, treatment `any value`). Each is a constant without a body: no proof can see
what it is. -/

namespace Sys2Proof

/-- `P_REG_BASE` (R11, D3): where the 64-byte register block sits in the host's address space. OPEN. -/
opaque Config.pRegBase : Nat

/-- `P_IRQ_LINE` (R11, D26): the line of the host's interrupt controller that `irq` drives. OPEN. -/
opaque Config.pIrqLine : Nat

/-- Draw `n` of a 32-bit value: what a host read of a progress or format register returns while BUSY
(R45, U5). -/
opaque Config.freeWord : Nat → Word

/-- Draw `n` of the byte at an address: a byte of the output window after an error or after a reset during a job
(R165, R178, U6, U7), and what a host read of it returns while BUSY (R60, U4). -/
opaque Config.freeByte : Nat → Nat → Byte

/-- Draw `n` of pixel register `k`: the cache entries (0 to 63) and `prev` (64) after a reset event (R177, U8). -/
opaque Config.freePixel : Nat → Nat → Pixel

/-- Draw `n` of the 6-bit run counter after a reset event (R177, U8). -/
opaque Config.freeRun : Nat → BitVec 6

end Sys2Proof
end

