-- ==== Sys2Proof/Machine/State.lean ====
section
/-! DEFINITION. Everything the spec gives the machine, as plain data (spec/10_state.md, spec/20_memory.md), the reasons
a step can stop, and the state after reset (R44, R177). -/

namespace Sys2Proof.Machine

/-- Why the machine stops with a fault. -/
inductive Fault where
  /-- Raised by an engine memory access whose bytes do not all lie below 2^32: "Both are defined only for
  0 <= addr < 2^32" (R47). No run reaches it, because the windows are checked first (R49, R50). Safe. -/
  | addressOutsideMemory
deriving DecidableEq, Repr

/-- Why a step is refused. -/
inductive Refusal where
  /-- Raised by an arm of `exec` that has no meaning yet. Safe. No arm of this model raises it. -/
  | notModelled (mnemonic : String)
  /-- Raised by a host register access that is not 32 bits wide or not at a multiple of 4: "undefined effect. A model
  refuses it" (R34, U1). Safe. -/
  | undefinedRegisterAccess
  /-- Raised by a host register access past the 64-byte register block, which is no access to the engine
  (R21, R46). Safe. -/
  | outsideRegisterBlock
  /-- Raised by a host write to a byte of the input window while BUSY: "the effect of such a write is undefined. A model
  gives the host no such move" (R60, U2). Safe for claims about the engine, unsafe for a host that breaks the duty. -/
  | hostWritesInputWindow
  /-- Raised by a host write to a byte of the output window while BUSY (R60, U3). As the one before. -/
  | hostWritesOutputWindow
deriving DecidableEq, Repr

/-- The outcome of a step of this machine. -/
abbrev Outcome := Host.Outcome

/-- CTRL.MODE (R22): 0 is decode, 1 is encode. -/
inductive Mode where
  | decode
  | encode
deriving DecidableEq, Repr

/-- The job phase (R35). -/
inductive Phase where
  | idle
  | dHdr
  | dBody
  | dTrail
  | eHdr
  | eBody
  | eFlush
  | eTrail
deriving DecidableEq, Repr

/-- The errors that end a job (R151). -/
inductive JobError where
  | badMagic
  | unsupportedChannels
  | unsupportedColorspace
  | invalidDimensions
  | dimensionOverflow
  | truncatedStream
  | endMarkerMismatch
  | outputOverflow
  | invalidConfig
  | trailingBytes
deriving DecidableEq, Repr

/-- One move of the world outside the engine (R13, R43): an access of the host, the reset input, or one turn left to
the engine. -/
inductive HostMove where
  /-- A register write `W(off, v)` of `size` bytes (R83). -/
  | regWrite (size off : Nat) (v : Word)
  /-- A register read `R(off)` of `size` bytes (R84). -/
  | regRead (size off : Nat)
  /-- The host writes one byte of the memory space by its own means (R46). -/
  | memWrite (a : Word) (v : Byte)
  /-- The host reads one byte of the memory space by its own means (R46). -/
  | memRead (a : Word)
  /-- The reset input `rst` is asserted and released (R177). -/
  | rst
  /-- The host makes no move: the engine takes one step (R90). -/
  | letEngineStep
deriving DecidableEq, Repr

/-- A run of addresses `lo ≤ a < hi` whose bytes are unspecified: byte `a` holds the free value
`Config.freeByte draw a` (R165, R178). -/
structure Span where
  lo : Nat
  hi : Nat
  draw : Nat
deriving DecidableEq, Repr

/-- The memory space (R46, R47): `cells` lists, by rising address, the bytes that are not 0; `spans` lists, by rising
address, the runs of unspecified bytes. A byte in neither reads 0 (log entry 2). -/
structure Memory where
  cells : List Host.Cell
  spans : List Span
deriving DecidableEq, Repr

/-- The machine. The first block is the host-visible registers of R21 to R32, field by field (reserved bits read 0 and
hold nothing, R33; STATUS.BUSY is `phase ≠ idle`, R35; OUT_LEN, IN_POS and PX_COUNT read the cursors, R31, R32). The
second block is the internal state of R35 to R39. Then the memory space, and last the model's own fields: what the world
outside does next, what its last reads returned, and how many free values have been drawn. -/
structure State where
  /-- CTRL[1] (R22). -/
  mode : Mode
  /-- CTRL[2] (R22). -/
  irqEn : Bool
  /-- CTRL[3] (R22). -/
  strictEnd : Bool
  /-- STATUS[1] (R23). -/
  done : Bool
  /-- STATUS[2] (R23). -/
  err : Bool
  /-- STATUS[7:4] (R23). -/
  errcode : BitVec 4
  /-- WIDTH (R24). -/
  width : Word
  /-- HEIGHT (R25). -/
  height : Word
  /-- FORMAT[7:0] (R26). -/
  channels : Byte
  /-- FORMAT[15:8] (R26). -/
  colorspace : Byte
  /-- IN_BASE (R27). -/
  inBase : Word
  /-- IN_LEN (R28). -/
  inLen : Word
  /-- OUT_BASE (R29). -/
  outBase : Word
  /-- OUT_CAP (R30). -/
  outCap : Word
  /-- The output cursor, read as OUT_LEN (R31, R39). -/
  outPos : Word
  /-- The input cursor, read as IN_POS (R32, R39): the stream's program counter in decode. -/
  inPos : Word
  /-- The pixel cursor, read as PX_COUNT (R32, R39). -/
  px : Word
  /-- The job phase (R35). -/
  phase : Phase
  /-- The pixel cache (R36, R105). -/
  cache : Vector Pixel 64
  /-- The previous pixel (R37). -/
  prev : Pixel
  /-- The run-length counter, 6 bits (R38). -/
  run : BitVec 6
  /-- The memory space (R46). -/
  mem : Memory
  /-- The model's own: the moves the world outside makes next, oldest first; when there is none the engine steps. -/
  host : List HostMove
  /-- The model's own: the word the last register read returned (R84). -/
  hostWord : Word
  /-- The model's own: the byte the host's last memory read returned. -/
  hostByte : Byte
  /-- The model's own: how many free values have been drawn; the next draw is number `draws`. -/
  draws : Nat
deriving DecidableEq, Repr

/-- `Pixel(0,0,0,0)`, the value the cache is cleared to (R36). -/
def zeroPixel : Pixel := ⟨0, 0, 0, 0⟩

/-- Memory with nothing listed. -/
def Memory.empty : Memory := ⟨[], []⟩

/-- The machine right after reset (R44, R177). The spec leaves `cache`, `prev` and `run` unspecified there; the model
names zero (log entry 1). -/
def State.reset : State where
  mode := .decode
  irqEn := false
  strictEnd := false
  done := false
  err := false
  errcode := 0
  width := 0
  height := 0
  channels := 0
  colorspace := 0
  inBase := 0
  inLen := 0
  outBase := 0
  outCap := 0
  outPos := 0
  inPos := 0
  px := 0
  phase := .idle
  cache := Vector.replicate 64 zeroPixel
  prev := zeroPixel
  run := 0
  mem := Memory.empty
  host := []
  hostWord := 0
  hostByte := 0
  draws := 0

end Sys2Proof.Machine
end

