-- ==== Sys2Proof/Machine/Flags.lean ====
section
/-! DEFINITION. The engine's only flags (R41): BUSY, DONE, ERR with ERRCODE, their read view, what sets and clears them,
and the interrupt output computed from them (spec/10_state.md R22, R23; spec/60_exceptions.md R151, R167). -/

namespace Sys2Proof.Machine

/-- `STATUS.BUSY = (phase != IDLE)` (R35). -/
def State.busy (s : State) : Bool := decide (s.phase ≠ .idle)

/-- The code of an error (R151). -/
def JobError.code : JobError → BitVec 4
  | .badMagic => 1
  | .unsupportedChannels => 2
  | .unsupportedColorspace => 3
  | .invalidDimensions => 4
  | .dimensionOverflow => 5
  | .truncatedStream => 6
  | .endMarkerMismatch => 7
  | .outputOverflow => 8
  | .invalidConfig => 9
  | .trailingBytes => 10

/-- `STATUS.DONE <- 1` (R95). -/
def State.setDone (s : State) : State := { s with done := true }

/-- `STATUS.ERR <- 1; STATUS.ERRCODE <- code(E)` (R152). -/
def State.setErr (e : JobError) (s : State) : State := { s with err := true, errcode := e.code }

/-- `STATUS.DONE <- 0; STATUS.ERR <- 0; STATUS.ERRCODE <- 0`, the first line of `start_job()` (R87). -/
def State.clearFlags (s : State) : State := { s with done := false, err := false, errcode := 0 }

/-- The host's write-1-to-clear of STATUS while not BUSY (R85): this hardware's return from an exception (R168). -/
def State.ackFlags (v : Word) (s : State) : State :=
  { s with
    done := if v.getLsbD 1 then false else s.done
    err := if v.getLsbD 2 then false else s.err
    errcode := if v.getLsbD 2 then 0 else s.errcode }

/-- `irq = CTRL.IRQ_EN & (STATUS.DONE | STATUS.ERR)` (R167): a level, recomputed from the state it is read in. -/
def State.irq (s : State) : Bool := s.irqEn && (s.done || s.err)

/-- The lines of the host's interrupt controller the engine drives (R167, `P_IRQ_LINE`). -/
def State.assertedLines (s : State) : List Nat := if s.irq then [Config.pIrqLine] else []

/-- A one-bit field at bit `k` of a word. -/
def flagAt (k : Nat) (b : Bool) : Nat := if b then 2 ^ k else 0

/-- What STATUS reads (R23): BUSY in [0], DONE in [1], ERR in [2], ERRCODE in [7:4], 0 elsewhere. -/
def State.statusWord (s : State) : Word :=
  BitVec.ofNat 32 (flagAt 0 s.busy + flagAt 1 s.done + flagAt 2 s.err + s.errcode.toNat * 16)

/-- CTRL.MODE as a bit (R22). -/
def Mode.bit : Mode → Bool
  | .decode => false
  | .encode => true

/-- CTRL.MODE from a written bit (R22). -/
def Mode.ofBit : Bool → Mode
  | false => .decode
  | true => .encode

/-- What CTRL reads (R22): START reads 0, MODE in [1], IRQ_EN in [2], STRICT_END in [3], 0 elsewhere. -/
def State.ctrlWord (s : State) : Word :=
  BitVec.ofNat 32 (flagAt 1 s.mode.bit + flagAt 2 s.irqEn + flagAt 3 s.strictEnd)

/-- What FORMAT reads (R26): CHANNELS in [7:0], COLORSPACE in [15:8], 0 elsewhere. -/
def State.formatWord (s : State) : Word :=
  BitVec.ofNat 32 (s.channels.toNat + s.colorspace.toNat * 256)

end Sys2Proof.Machine
end

