-- ==== Sys2Proof/Machine/Ops.lean ====
section
/-! DEFINITION. The operations every family shares: the memory space (spec/20_memory.md), the windows (R49), starting and
ending a job (R87, R95), `raise` (R152) and the reset event (R177, R178). -/

namespace Sys2Proof.Machine

/-- The memory space holds 2^32 bytes (R46). -/
def memSize : Nat := 2 ^ 32

/-- What a byte reads as that nothing has written and no span covers (log entry 2). -/
def unwrittenByte : Byte := 0

/-! The listed bytes. -/

/-- The byte the list gives an address. -/
def cellRead : List Host.Cell → Nat → Byte
  | [], _ => unwrittenByte
  | (k, v) :: rest, a => if k = a then v else cellRead rest a

/-- The list without an address. -/
def cellErase (a : Nat) (cells : List Host.Cell) : List Host.Cell := cells.filter fun c => decide (c.1 ≠ a)

/-- The list with an entry put before the first higher address. -/
def cellInsert (a : Nat) (v : Byte) : List Host.Cell → List Host.Cell
  | [] => [(a, v)]
  | c :: rest => if a < c.1 then (a, v) :: c :: rest else c :: cellInsert a v rest

/-- The list after a byte is stored: no entry where the stored value is what an unlisted address reads as. -/
def cellWrite (a : Nat) (v : Byte) (cells : List Host.Cell) : List Host.Cell :=
  if v = unwrittenByte then cellErase a cells else cellInsert a v (cellErase a cells)

/-! The runs of unspecified bytes. -/

/-- The address lies in the run. -/
def Span.covers (sp : Span) (a : Nat) : Bool := decide (sp.lo ≤ a) && decide (a < sp.hi)

/-- The free draw that holds at an address, if its byte is unspecified. -/
def spanDraw : List Span → Nat → Option Nat
  | [], _ => none
  | sp :: rest, a => if sp.covers a then some sp.draw else spanDraw rest a

/-- A run, or nothing where it is empty. -/
def spanOrNone (lo hi draw : Nat) : List Span := if lo < hi then [⟨lo, hi, draw⟩] else []

/-- What is left of a run outside `lo ≤ a < hi`. -/
def Span.outside (lo hi : Nat) (sp : Span) : List Span :=
  spanOrNone sp.lo (min sp.hi lo) sp.draw ++ spanOrNone (max sp.lo hi) sp.hi sp.draw

/-- The runs without the addresses `lo ≤ a < hi`. -/
def spanCut (lo hi : Nat) (spans : List Span) : List Span := spans.flatMap (Span.outside lo hi)

/-- The runs with one more, put before the first that starts higher. -/
def spanInsert (sp : Span) : List Span → List Span
  | [] => [sp]
  | x :: rest => if sp.lo < x.lo then sp :: x :: rest else x :: spanInsert sp rest

/-! The memory space. -/

/-- `MemRead(addr, 1)` (R47). -/
def Memory.read (m : Memory) (a : Nat) : Byte :=
  match spanDraw m.spans a with
  | some draw => Config.freeByte draw a
  | none => cellRead m.cells a

/-- `MemWrite(addr, 1, v)` (R47). -/
def Memory.write (m : Memory) (a : Nat) (v : Byte) : Memory :=
  ⟨cellWrite a v m.cells, spanCut a (a + 1) m.spans⟩

/-- Every byte `lo ≤ a < hi` becomes unspecified, under the free draw `draw` (R165, R178). -/
def Memory.forget (lo hi draw : Nat) (m : Memory) : Memory :=
  if lo < hi then
    ⟨m.cells.filter fun c => decide (c.1 < lo) || decide (hi ≤ c.1), spanInsert ⟨lo, hi, draw⟩ (spanCut lo hi m.spans)⟩
  else m

/-- The `n` bytes from address `a` up, first byte first (R52). -/
def Memory.readList (m : Memory) (a : Nat) : Nat → List Byte
  | 0 => []
  | n + 1 => m.read a :: m.readList (a + 1) n

/-- Bytes stored from address `a` up, first byte first (R52, R59). -/
def Memory.writeList (m : Memory) (a : Nat) : List Byte → Memory
  | [] => m
  | v :: rest => (m.write a v).writeList (a + 1) rest

/-- The runs are not empty, lie below 2^32, and rise without meeting. -/
abbrev spansWf (spans : List Span) : Prop :=
  spans.Pairwise (fun x y => x.hi ≤ y.lo) ∧ ∀ sp ∈ spans, sp.lo < sp.hi ∧ sp.hi ≤ memSize

/-- The entries rise by address, lie below 2^32, and none equals what an unlisted address reads as. -/
abbrev cellsWf (cells : List Host.Cell) : Prop :=
  cells.Pairwise (fun x y => x.1 < y.1) ∧ ∀ c ∈ cells, c.1 < memSize ∧ c.2 ≠ unwrittenByte

/-- The canonical form of the memory space: the two lists are, and no listed byte is an unspecified one. -/
abbrev Memory.wf (m : Memory) : Prop :=
  cellsWf m.cells ∧ spansWf m.spans ∧ ∀ c ∈ m.cells, spanDraw m.spans c.1 = none

/-- An engine read of `n` bytes from address `a`: defined only inside the memory space (R47). -/
def fetchBytes (s : State) (a n : Nat) (k : List Byte → Outcome State Fault Refusal) : Outcome State Fault Refusal :=
  if a + n ≤ memSize then k (s.mem.readList a n) else .fault .addressOutsideMemory

/-- An engine write of bytes from address `a` up: defined only inside the memory space (R47). -/
def storeBytes (s : State) (a : Nat) (bs : List Byte) (k : State → Outcome State Fault Refusal) :
    Outcome State Fault Refusal :=
  if a + bs.length ≤ memSize then k { s with mem := s.mem.writeList a bs } else .fault .addressOutsideMemory

/-! The windows and the job. -/

/-- `N = WIDTH * HEIGHT`, an exact integer (R40). -/
def State.pixelCount (s : State) : Nat := s.width.toNat * s.height.toNat

/-- `WIDTH * HEIGHT * CHANNELS`, an exact integer (R102, R157). -/
def State.rasterSize (s : State) : Nat := s.pixelCount * s.channels.toNat

/-- The address lies in the input window `[IN_BASE, IN_BASE + IN_LEN)` (R48). -/
def State.inInputWindow (s : State) (a : Nat) : Bool :=
  decide (s.inBase.toNat ≤ a) && decide (a < s.inBase.toNat + s.inLen.toNat)

/-- The address lies in the output window `[OUT_BASE, OUT_BASE + OUT_CAP)` (R48). -/
def State.inOutputWindow (s : State) (a : Nat) : Bool :=
  decide (s.outBase.toNat ≤ a) && decide (a < s.outBase.toNat + s.outCap.toNat)

/-- `windows_ok()` (R49): neither window wraps past 2^32, and two windows that hold bytes do not overlap. -/
def State.windowsOk (s : State) : Bool :=
  decide (s.inBase.toNat + s.inLen.toNat ≤ memSize) &&
  decide (s.outBase.toNat + s.outCap.toNat ≤ memSize) &&
  (decide (s.inLen.toNat = 0) || decide (s.outCap.toNat = 0) ||
    decide (s.inBase.toNat + s.inLen.toNat ≤ s.outBase.toNat) ||
    decide (s.outBase.toNat + s.outCap.toNat ≤ s.inBase.toNat))

/-- The whole output window becomes unspecified (R165, R178), as far as it lies in the memory space. -/
def State.forgetOutput (s : State) : State :=
  { s with
    mem := s.mem.forget s.outBase.toNat (min (s.outBase.toNat + s.outCap.toNat) memSize) s.draws
    draws := s.draws + 1 }

/-- `raise E` (R152), this hardware's entry into an exception (R168): ERR and ERRCODE are set and the engine goes idle.
The cursors, WIDTH, HEIGHT and FORMAT keep their values; the output window becomes unspecified (R165). -/
def raiseError (e : JobError) (s : State) : State := { s.forgetOutput.setErr e with phase := .idle }

/-- `finish()` (R95). -/
def finishJob (s : State) : State := { s.setDone with phase := .idle }

/-- `Pixel(0,0,0,255)`, the value `prev` is set to when a job starts (R37). -/
def startPixel : Pixel := ⟨0, 0, 0, 255⟩

/-- 64 zero pixels (R36, R110). -/
def clearedCache : Vector Pixel 64 := Vector.replicate 64 zeroPixel

/-- `start_job()` (R87). -/
def startJob (s : State) : State :=
  { s.clearFlags with
    outPos := 0
    inPos := 0
    px := 0
    cache := clearedCache
    prev := startPixel
    run := 0
    phase := match s.mode with
      | .encode => .eHdr
      | .decode => .dHdr }

/-- The output window is unspecified after a reset during a job (R178); a reset while idle leaves memory alone
(R177: "Reset makes no memory access"). -/
def State.forgetIfBusy (s : State) : State := if s.busy then s.forgetOutput else s

/-- The reset event (R177, R178): the registers take the values of R44; `cache`, `prev` and `run` are unspecified and
take free values; memory and the host are not engine state. -/
def resetEvent (s : State) : State :=
  let t := s.forgetIfBusy
  { State.reset with
    cache := Vector.ofFn fun k : Fin 64 => Config.freePixel t.draws k.val
    prev := Config.freePixel t.draws 64
    run := Config.freeRun t.draws
    mem := t.mem
    host := t.host
    hostWord := t.hostWord
    hostByte := t.hostByte
    draws := t.draws + 1 }

end Sys2Proof.Machine
end

