-- ==== Sys2Proof/Machine/Operands.lean ====
section
/-! DEFINITION. Pixel arithmetic: wrapping channels (R15), the hash unit (R106), the cache's two operations (R108), the
pixels the delta chunks stand for (R139, R140), the encoder's delta unit (R119), and pixels as raster bytes (R53). -/

namespace Sys2Proof.Machine

/-- `wrap8(x) = x mod 256` (R15). -/
def wrap8 (x : Int) : Byte := BitVec.ofInt 8 x

/-- `sext_8(v)`: the two's-complement reading (R15). -/
def sext8 (v : Byte) : Int := if v.toNat < 128 then v.toNat else (v.toNat : Int) - 256

/-- A channel as a non-negative integer (R15). -/
def chan (v : Byte) : Int := v.toNat

/-- `hash(p) = (p.r*3 + p.g*5 + p.b*7 + p.a*11) mod 64` (R106). -/
def hash (p : Pixel) : Fin 64 := Fin.ofNat 64 (p.r.toNat * 3 + p.g.toNat * 5 + p.b.toNat * 7 + p.a.toNat * 11)

/-- `lookup(i)` (R108). -/
def State.lookup (s : State) (i : Fin 64) : Pixel := s.cache[i.val]

/-- `cache[hash(p)] <- p` (R108): overwrites unconditionally. -/
def State.storePixel (s : State) (p : Pixel) : State := { s with cache := s.cache.set (hash p).val p }

/-- The pixel of DIFF: `prev` plus the three deltas, wrapping, alpha unchanged (R139). -/
def diffPixel (prev : Pixel) (dr dg db : Int) : Pixel :=
  ⟨wrap8 (chan prev.r + dr), wrap8 (chan prev.g + dg), wrap8 (chan prev.b + db), prev.a⟩

/-- The pixel of LUMA (R140). -/
def lumaPixel (prev : Pixel) (dg drDg dbDg : Int) : Pixel :=
  ⟨wrap8 (chan prev.r + dg + drDg), wrap8 (chan prev.g + dg), wrap8 (chan prev.b + dg + dbDg), prev.a⟩

/-- What the delta unit gives the multiplexer (R119). -/
structure Deltas where
  dr : Int
  dg : Int
  db : Int
  drDg : Int
  dbDg : Int
  aeq : Bool
deriving DecidableEq, Repr

/-- The per-channel delta, wrapping and read as signed (R119). -/
def channelDelta (new old : Byte) : Int := sext8 (wrap8 (chan new - chan old))

/-- The delta unit (R119). -/
def deltaUnit (p prev : Pixel) : Deltas where
  dr := channelDelta p.r prev.r
  dg := channelDelta p.g prev.g
  db := channelDelta p.b prev.b
  drDg := channelDelta p.r prev.r - channelDelta p.g prev.g
  dbDg := channelDelta p.b prev.b - channelDelta p.g prev.g
  aeq := decide (p.a = prev.a)

/-- How many raster bytes one pixel moves: red, green, blue, and alpha only with four channels (R115, R133). -/
def pixelWidth (c : Byte) : Nat := if c = 4 then 4 else 3

/-- The raster bytes of a pixel (R53, R133). -/
def pixelBytes (c : Byte) (p : Pixel) : List Byte := if c = 4 then [p.r, p.g, p.b, p.a] else [p.r, p.g, p.b]

/-- The pixel of raster bytes: without an alpha byte alpha reads as 255 (R53, R115). -/
def pixelOfBytes (bs : List Byte) : Pixel := ⟨bs.getD 0 0, bs.getD 1 0, bs.getD 2 0, bs.getD 3 255⟩

/-- Where output pixel `px` goes: `OUT_BASE + CHANNELS * px` (R133). -/
def State.outPixelAddr (s : State) : Nat := s.outBase.toNat + s.channels.toNat * s.px.toNat

/-- Where input pixel `px` is: `IN_BASE + CHANNELS * px` (R115). -/
def State.inPixelAddr (s : State) : Nat := s.inBase.toNat + s.channels.toNat * s.px.toNat

/-- A channel count as a cursor increment. -/
def State.stride (s : State) : Word := s.channels.setWidth 32

/-- `WritePixel(px, p)` (R133). -/
def writePixel (p : Pixel) (s : State) (k : State → Outcome State Fault Refusal) : Outcome State Fault Refusal :=
  storeBytes s s.outPixelAddr (pixelBytes s.channels p) fun t => k { t with outPos := t.outPos + t.stride }

/-- The end of every chunk that gives a pixel: `WritePixel(px, p); px <- px + 1; prev <- p` (R138 to R142). -/
def putPixel (p : Pixel) (s : State) : Outcome State Fault Refusal :=
  writePixel p s fun t => .next { t with px := t.px + 1, prev := p }

/-- The same with `cache[hash(p)] <- p` (R139 to R142). -/
def putAndStorePixel (p : Pixel) (s : State) : Outcome State Fault Refusal := putPixel p (s.storePixel p)

/-- `ReadPixel(px)` (R115). -/
def readPixel (s : State) (k : Pixel → Outcome State Fault Refusal) : Outcome State Fault Refusal :=
  fetchBytes s s.inPixelAddr (pixelWidth s.channels) fun bs => k (pixelOfBytes bs)

end Sys2Proof.Machine
end

