-- ==== Sys2Proof/Machine/Chunks.lean ====
section
/-! DEFINITION. The meanings of the six chunk kinds in the decoder (spec/44_decoder.md R136 to R142). Each is what the
chunk step does after it has fetched the chunk and moved `in_pos` past it (R135). No chunk writes a flag (R41). -/

namespace Sys2Proof.Machine

/-- INDEX (R138): the cached pixel is the pixel; the cache is not written; `prev <- p`. -/
def execIndex (idx : Nat) (s : State) : Outcome State Fault Refusal := putPixel (s.lookup (Fin.ofNat 64 idx)) s

/-- DIFF (R139). -/
def execDiff (dr dg db : Int) (s : State) : Outcome State Fault Refusal :=
  putAndStorePixel (diffPixel s.prev dr dg db) s

/-- LUMA (R140). -/
def execLuma (dg drDg dbDg : Int) (s : State) : Outcome State Fault Refusal :=
  putAndStorePixel (lumaPixel s.prev dg drDg dbDg) s

/-- RUN (R136): loads the run-length counter; no pixel is written in this step. -/
def execRun (count : Nat) (s : State) : Outcome State Fault Refusal := .next { s with run := BitVec.ofNat 6 count }

/-- RGB (R141): the alpha is `prev.a`. -/
def execRgb (r g b : Byte) (s : State) : Outcome State Fault Refusal := putAndStorePixel ⟨r, g, b, s.prev.a⟩ s

/-- RGBA (R142). -/
def execRgba (r g b a : Byte) (s : State) : Outcome State Fault Refusal := putAndStorePixel ⟨r, g, b, a⟩ s

end Sys2Proof.Machine
end

