-- ==== Sys2Proof/Machine/Header.lean ====
section
/-! DEFINITION. The header codec (spec/41_header.md): `writeHeader` (R98) and the `D_HDR` step, the hardware's
`readHeader` (R99 to R104). -/

namespace Sys2Proof.Machine

/-- The header is 14 bytes (R97). -/
def headerLen : Nat := 14

/-- A decode's input is at least a header and an end marker (R100). -/
def minStreamLen : Nat := 22

/-- The magic "qoif" (R97). -/
def magic : List Byte := [0x71, 0x6F, 0x69, 0x66]

/-- `seven 0x00 bytes followed by one 0x01 byte` (R66). -/
def endMarker : List Byte := [0, 0, 0, 0, 0, 0, 0, 1]

/-- Byte `k` of a word, byte 0 the least significant (R14). -/
def byteOf (k : Nat) (w : Word) : Byte := BitVec.ofNat 8 (w.toNat / 256 ^ k)

/-- A 32-bit value in big-endian order (R51, R97). -/
def be32Bytes (w : Word) : List Byte := [byteOf 3 w, byteOf 2 w, byteOf 1 w, byteOf 0 w]

/-- `BE32(b0,b1,b2,b3) = b0*2^24 + b1*2^16 + b2*2^8 + b3` (R15), as the concatenation `{b0, b1, b2, b3}` (R14). -/
def be32 (b0 b1 b2 b3 : Byte) : Word := b0 ++ b1 ++ b2 ++ b3

/-- `writeHeader(w, h, c, s)` (R98). -/
def writeHeader (w h : Word) (c s : Byte) : List Byte := magic ++ be32Bytes w ++ be32Bytes h ++ [c, s]

/-- WIDTH, HEIGHT and FORMAT take the raw header fields before any of them is checked (R99, R101). -/
def State.withHeader (h : List Byte) (s : State) : State :=
  { s with
    width := be32 (h.getD 4 0) (h.getD 5 0) (h.getD 6 0) (h.getD 7 0)
    height := be32 (h.getD 8 0) (h.getD 9 0) (h.getD 10 0) (h.getD 11 0)
    channels := h.getD 12 0
    colorspace := h.getD 13 0 }

/-- The checks on CHANNELS, COLORSPACE, WIDTH, HEIGHT and the raster's size that R99 and R114 make in this order.
`cap` is the length of the window that must hold the raster: OUT_CAP in decode (R102), IN_LEN in encode (R114). -/
def formatError (cap : Word) (s : State) : Option JobError :=
  if ¬(s.channels = 3 ∨ s.channels = 4) then some .unsupportedChannels
  else if ¬(s.colorspace = 0 ∨ s.colorspace = 1) then some .unsupportedColorspace
  else if s.width = 0 ∨ s.height = 0 then some .invalidDimensions
  else if s.rasterSize > cap.toNat then some .dimensionOverflow
  else none

/-- The header's first failing check, on the state that holds its fields (R99, R166). -/
def headerError (h : List Byte) (s : State) : Option JobError :=
  if h.take 4 ≠ magic then some .badMagic else formatError s.outCap s

/-- The header parse after its 14 bytes are read (R99). -/
def parseHeader (h : List Byte) (s : State) : State :=
  match headerError h (s.withHeader h) with
  | some e => raiseError e (s.withHeader h)
  | none => { s.withHeader h with inPos := BitVec.ofNat 32 headerLen, phase := .dBody }

/-- The `D_HDR` step (R99). -/
def stepDHdr (s : State) : Outcome State Fault Refusal :=
  if ¬s.windowsOk then .next (raiseError .invalidConfig s)
  else if s.inLen.toNat < minStreamLen then .next (raiseError .truncatedStream s)
  else fetchBytes s s.inBase.toNat headerLen fun h => .next (parseHeader h s)

end Sys2Proof.Machine
end

