-- ==== Sys2Proof/Machine/Decoder.lean ====
section
/-! DEFINITION. The decoder's body and trailer (spec/44_decoder.md): the `D_BODY` dispatch (R132), the run-pixel step
(R134), the chunk step (R135), the end of the body (R137) and the `D_TRAIL` step (R146 to R148). -/

namespace Sys2Proof.Machine

/-- The input cursor moved on by `n` bytes (R76). -/
def State.advanceIn (n : Nat) (s : State) : State := { s with inPos := s.inPos + BitVec.ofNat 32 n }

/-- Where the next stream byte is: `IN_BASE + in_pos` (R39, R135). -/
def State.streamAddr (s : State) : Nat := s.inBase.toNat + s.inPos.toNat

/-- The run-pixel step (R134): one copy of `prev`, and the counter goes down. -/
def runPixelStep (s : State) : Outcome State Fault Refusal := putPixel s.prev { s with run := s.run - 1 }

/-- The chunk step (R135): the whole chunk must lie in the input; the cursor moves past it; its kind is executed. -/
def chunkStep (s : State) : Outcome State Fault Refusal :=
  if s.inPos.toNat + 1 > s.inLen.toNat then .next (raiseError .truncatedStream s)
  else fetchBytes s s.streamAddr 1 fun first =>
    let b0 := byteAt first 0
    if s.inPos.toNat + chunkLen b0 > s.inLen.toNat then .next (raiseError .truncatedStream s)
    else fetchBytes s (s.streamAddr + 1) (chunkLen b0 - 1) fun rest =>
      exec (decodeChunk b0 rest) (s.advanceIn (chunkLen b0))

/-- The `D_BODY` step (R132): the end of the body drops what is left of a RUN (R137). -/
def stepDBody (s : State) : Outcome State Fault Refusal :=
  if s.px.toNat = s.pixelCount then .next { s with run := 0, phase := .dTrail }
  else if s.run.toNat > 0 then runPixelStep s
  else chunkStep s

/-- The end-marker check after its 8 bytes are read (R146, R148). -/
def checkEndMarker (e : List Byte) (s : State) : State :=
  if e ≠ endMarker then raiseError .endMarkerMismatch s
  else if s.strictEnd = true ∧ (s.advanceIn 8).inPos.toNat < s.inLen.toNat then
    raiseError .trailingBytes (s.advanceIn 8)
  else finishJob (s.advanceIn 8)

/-- The `D_TRAIL` step (R146): a missing or cut-short marker is TRUNCATED_STREAM (R147). -/
def stepDTrail (s : State) : Outcome State Fault Refusal :=
  if s.inPos.toNat + 8 > s.inLen.toNat then .next (raiseError .truncatedStream s)
  else fetchBytes s s.streamAddr 8 fun e => .next (checkEndMarker e s)

end Sys2Proof.Machine
end

