-- ==== Sys2Proof/Machine/Encoder.lean ====
section
/-! DEFINITION. The encoder (spec/43_encoder.md): `emit` (R116), the opcode multiplexer (R120) with the chunk bytes of
R121 to R126, and the steps `E_HDR` (R114), `E_BODY` (R117, R118), `E_FLUSH` (R127) and `E_TRAIL` (R129). -/

namespace Sys2Proof.Machine

/-- A run counts at most 62 pixels (R11, `RUN_MAX`). -/
def runMax : Nat := 62

/-- `emit(B)` (R116): all the bytes fit, or OUTPUT_OVERFLOW is raised on the state before the step and none is
written. -/
def emit (bs : List Byte) (s : State) (k : State → Outcome State Fault Refusal) : Outcome State Fault Refusal :=
  if s.outPos.toNat + bs.length > s.outCap.toNat then .next (raiseError .outputOverflow s)
  else storeBytes s (s.outBase.toNat + s.outPos.toNat) bs fun t =>
    k { t with outPos := t.outPos + BitVec.ofNat 32 bs.length }

/-- Row 2 of R120: alpha unchanged and each delta in [-2,1]. -/
def Deltas.fitsDiff (d : Deltas) : Bool := d.aeq && inRange (-2) 1 d.dr && inRange (-2) 1 d.dg && inRange (-2) 1 d.db

/-- Row 3 of R120: alpha unchanged, `dg` in [-32,31] and both relative deltas in [-8,7]. -/
def Deltas.fitsLuma (d : Deltas) : Bool :=
  d.aeq && inRange (-32) 31 d.dg && inRange (-8) 7 d.drDg && inRange (-8) 7 d.dbDg

/-- The chunk for a pixel that the cache misses: rows 2 to 5 of R120, in priority order. -/
def missChunk (p prev : Pixel) : Instr :=
  if (deltaUnit p prev).fitsDiff then
    .diff (deltaUnit p prev).dr (deltaUnit p prev).dg (deltaUnit p prev).db
  else if (deltaUnit p prev).fitsLuma then
    .luma (deltaUnit p prev).dg (deltaUnit p prev).drDg (deltaUnit p prev).dbDg
  else if (deltaUnit p prev).aeq then .rgb p.r p.g p.b
  else .rgba p.r p.g p.b p.a

/-- `mux(p, prev, c, i)` (R120): the chunk, and whether the pixel is stored into the cache. -/
def mux (p prev c : Pixel) (i : Fin 64) : Instr × Bool :=
  if c = p then (.index i.val, false) else (missChunk p prev, true)

/-- The bytes that close a pending run (R117 step 2, R121): none where there is no run. -/
def runBytes (run : BitVec 6) : List Byte := if run.toNat > 0 then encode (.run run.toNat) else []

/-- The pixel joins the pending run (R117 step 1, R118): no byte is written. -/
def joinRun (s : State) : State :=
  { s with run := s.run + 1, px := s.px + 1, inPos := s.inPos + s.stride }

/-- The state a pixel step leaves after its bytes are out (R117 steps 5 and 6). -/
def afterChunk (p : Pixel) (doStore : Bool) (s : State) : State :=
  { (if doStore then s.storePixel p else s) with
    run := 0
    prev := p
    px := s.px + 1
    inPos := s.inPos + s.stride }

/-- A pixel step that writes (R117 steps 2 to 6): the pending run is closed, then the multiplexer's chunk follows. -/
def writeChunk (p : Pixel) (s : State) : Outcome State Fault Refusal :=
  emit (runBytes s.run ++ encode (mux p s.prev (s.lookup (hash p)) (hash p)).1) s fun t =>
    .next (afterChunk p (mux p s.prev (s.lookup (hash p)) (hash p)).2 t)

/-- The pixel step for pixel `p` (R117). -/
def encodePixel (p : Pixel) (s : State) : Outcome State Fault Refusal :=
  if p = s.prev ∧ s.run.toNat < runMax then .next (joinRun s) else writeChunk p s

/-- The `E_BODY` step (R117). -/
def stepEBody (s : State) : Outcome State Fault Refusal :=
  if s.px.toNat = s.pixelCount then .next { s with phase := .eFlush }
  else readPixel s fun p => encodePixel p s

/-- The encoder's configuration checks (R114, R166). -/
def configError (s : State) : Option JobError :=
  if ¬s.windowsOk then some .invalidConfig else formatError s.inLen s

/-- The header write of `E_HDR` (R114): nothing is written where it does not fit. -/
def headerWrite (s : State) : Outcome State Fault Refusal :=
  if s.outPos.toNat + headerLen > s.outCap.toNat then .next (raiseError .outputOverflow s)
  else storeBytes s s.outBase.toNat (writeHeader s.width s.height s.channels s.colorspace) fun t =>
    .next { t with outPos := BitVec.ofNat 32 headerLen, phase := .eBody }

/-- The `E_HDR` step (R114). -/
def stepEHdr (s : State) : Outcome State Fault Refusal :=
  match configError s with
  | some e => .next (raiseError e s)
  | none => headerWrite s

/-- The `E_FLUSH` step (R127). -/
def stepEFlush (s : State) : Outcome State Fault Refusal :=
  if s.run.toNat > 0 then emit (runBytes s.run) s fun t => .next { t with run := 0, phase := .eTrail }
  else .next { s with phase := .eTrail }

/-- The `E_TRAIL` step (R129). -/
def stepETrail (s : State) : Outcome State Fault Refusal := emit endMarker s fun t => .next (finishJob t)

end Sys2Proof.Machine
end

