-- ==== Sys2Proof/Machine/HostPort.lean ====
section
/-! DEFINITION. The host's side (spec/40_control.md R83 to R88; spec/10_state.md R21 to R34, R45; spec/20_memory.md R46,
R60): register reads and writes, memory reads and writes, and the reset input. -/

namespace Sys2Proof.Machine

/-- The register block is 64 bytes (R21, R46). -/
def regBlockSize : Nat := 64

/-- Where a register stands in the host's address space: `P_REG_BASE` plus its offset (R21). -/
def regAddress (off : Nat) : Nat := Config.pRegBase + off

/-- The 32-bit offset of a host access, if the spec gives the access a meaning (R34, R21). -/
def checkRegAccess (size off : Nat) : Option Refusal :=
  if size ≠ 4 ∨ off % 4 ≠ 0 then some .undefinedRegisterAccess
  else if regBlockSize ≤ off then some .outsideRegisterBlock
  else none

/-- A write to CTRL while not BUSY (R86): START uses the MODE and STRICT_END just written. DESIGN CHOICE (log entry 15):
a START issued without the input in memory (R181 step 2, U21: treatment `refuse`) is not refused; the job runs on whatever
memory holds. -/
def writeCtrl (v : Word) (s : State) : State :=
  let t := { s with mode := Mode.ofBit (v.getLsbD 1), irqEn := v.getLsbD 2, strictEnd := v.getLsbD 3 }
  if v.getLsbD 0 then startJob t else t

/-- A register write while not BUSY (R83, R85, R86). RO registers, reserved offsets and reserved bits ignore it
(R31 to R33). -/
def writeRegIdle (off : Nat) (v : Word) (s : State) : State :=
  match off with
  | 0x00 => writeCtrl v s
  | 0x04 => s.ackFlags v
  | 0x08 => { s with width := v }
  | 0x0C => { s with height := v }
  | 0x10 => { s with channels := BitVec.ofNat 8 v.toNat, colorspace := BitVec.ofNat 8 (v.toNat / 256) }
  | 0x14 => { s with inBase := v }
  | 0x18 => { s with inLen := v }
  | 0x1C => { s with outBase := v }
  | 0x20 => { s with outCap := v }
  | _ => s

/-- A register write while BUSY (R88): only IRQ_EN can change. -/
def writeRegBusy (off : Nat) (v : Word) (s : State) : State :=
  if off = 0x00 then { s with irqEn := v.getLsbD 2 } else s

/-- `W(off, v)` (R83, R88). -/
def writeReg (off : Nat) (v : Word) (s : State) : State :=
  if s.busy then writeRegBusy off v s else writeRegIdle off v s

/-- The registers whose reads while BUSY are unspecified (R45): WIDTH, HEIGHT, FORMAT, OUT_LEN, IN_POS, PX_COUNT. -/
def unspecifiedWhileBusy (off : Nat) : Bool :=
  decide (off ∈ [0x08, 0x0C, 0x10, 0x24, 0x28, 0x2C])

/-- The stored value of the register at an offset (R84): reserved offsets read 0 (R33). -/
def regValue (off : Nat) (s : State) : Word :=
  match off with
  | 0x00 => s.ctrlWord
  | 0x04 => s.statusWord
  | 0x08 => s.width
  | 0x0C => s.height
  | 0x10 => s.formatWord
  | 0x14 => s.inBase
  | 0x18 => s.inLen
  | 0x1C => s.outBase
  | 0x20 => s.outCap
  | 0x24 => s.outPos
  | 0x28 => s.inPos
  | 0x2C => s.px
  | _ => 0

/-- `R(off)` (R84): no register changes; a register of R45 read while BUSY gives a free draw. -/
def readReg (off : Nat) (s : State) : State :=
  if s.busy && unspecifiedWhileBusy off then
    { s with hostWord := Config.freeWord s.draws, draws := s.draws + 1 }
  else { s with hostWord := regValue off s }

/-- A host register access: refused where the spec gives it no effect (R34), else the access. -/
def regAccess (size off : Nat) (k : State) : Outcome State Fault Refusal :=
  match checkRegAccess size off with
  | some r => .refused r
  | none => .next k

/-- A host write of one byte of memory: refused inside a window while BUSY (R60). DESIGN CHOICE: a byte of both windows
counts as the input window's (log entry 7), and any other write stores its byte (R46 leaves the host's means outside the
spec, log entry 4). -/
def hostMemWrite (a : Word) (v : Byte) (s : State) : Outcome State Fault Refusal :=
  if s.busy && s.inInputWindow a.toNat then .refused .hostWritesInputWindow
  else if s.busy && s.inOutputWindow a.toNat then .refused .hostWritesOutputWindow
  else .next { s with mem := s.mem.write a.toNat v }

/-- A host read of one byte of memory: a free draw inside the output window while BUSY (R60). -/
def hostMemRead (a : Word) (s : State) : State :=
  if s.busy && s.inOutputWindow a.toNat then
    { s with hostByte := Config.freeByte s.draws a.toNat, draws := s.draws + 1 }
  else { s with hostByte := s.mem.read a.toNat }

end Sys2Proof.Machine
end

