-- ==== Sys2Proof/Machine/Engine.lean ====
section
/-! DEFINITION. The engine's step relation (R90): one rule per phase; and one host move (R13). -/

namespace Sys2Proof.Machine

/-- One engine step (R90). While the phase is IDLE the engine takes no step and every register keeps its value
(R176). -/
def engineStep (s : State) : Outcome State Fault Refusal :=
  match s.phase with
  | .idle => .next s
  | .dHdr => stepDHdr s
  | .dBody => stepDBody s
  | .dTrail => stepDTrail s
  | .eHdr => stepEHdr s
  | .eBody => stepEBody s
  | .eFlush => stepEFlush s
  | .eTrail => stepETrail s

/-- One move of the world outside, between two engine steps (R90). -/
def hostStep (m : HostMove) (s : State) : Outcome State Fault Refusal :=
  match m with
  | .regWrite size off v => regAccess size off (writeReg off v s)
  | .regRead size off => regAccess size off (readReg off s)
  | .memWrite a v => hostMemWrite a v s
  | .memRead a => .next (hostMemRead a s)
  | .rst => .next (resetEvent s)
  | .letEngineStep => engineStep s

/-- The next chunk step can read any chunk where it stands: a decode body that is not over, with no run pending and five
bytes of input left, all below 2^32. -/
def fetchReady (s : State) : Bool :=
  decide (s.phase = .dBody) && decide (s.px.toNat ≠ s.pixelCount) && decide (s.run = 0) &&
  decide (s.inPos.toNat + maxChunkLen ≤ s.inLen.toNat) && decide (s.streamAddr + maxChunkLen ≤ memSize)

/-- A decode job of a 1 x 1 four-channel image just past its header: input at 0x1000 (14 header bytes, five bytes for a
chunk, 8 for the marker), output at 0x2000. `prev` and `cache` are those of the state. -/
def bodyJob (s : State) : State :=
  { s.clearFlags with
    width := 1
    height := 1
    channels := 4
    colorspace := 0
    inBase := 0x1000
    inLen := 27
    outBase := 0x2000
    outCap := 4
    outPos := 0
    inPos := 14
    px := 0
    run := 0
    phase := .dBody }

/-- A state whose next engine step is a chunk step: the state itself where it is one already. -/
def fetchState (s : State) : State := if fetchReady s then s else bodyJob s

end Sys2Proof.Machine
end

