-- ==== Sys2Proof/Machine/Step.lean ====
section
/-! DEFINITION. One step of the machine: the world outside makes its next move, or the engine steps (R13, R90). -/

namespace Sys2Proof.Machine

/-- One step: the oldest pending move of the world outside, or an engine step where there is none. -/
def step (s : State) : Host.Outcome State Fault Refusal :=
  match s.host with
  | [] => engineStep s
  | m :: rest => hostStep m { s with host := rest }

/-- The state with an opcode-table word stored where the next step fetches its chunk, and no host move before it. -/
def State.withFetchWord (s : State) (nbits w : Nat) : State :=
  { fetchState s with
    mem := (fetchState s).mem.writeList (fetchState s).streamAddr (tableBytes nbits w)
    host := [] }

end Sys2Proof.Machine
end

