-- ==== Sys2Proof/Machine/Listing.lean ====
section
/-! DEFINITION. The listing syntax of rules R81 and R82 (spec/30_encoding.md) as data: a listing is a list of lines, and
`assemble` gives its bytes, or nothing where an operand is out of range. -/

namespace Sys2Proof.Machine

/-- One line of a listing (R81, R82). -/
inductive Line where
  /-- A chunk. -/
  | chunk (i : Instr)
  /-- `FILL n`: n copies of `prev` (R82). -/
  | fill (n : Nat)
  /-- `.qoi w,h,c,s`: the header (R81). -/
  | qoi (w h : Word) (c s : Byte)
  /-- `.end`: the end marker (R81). -/
  | endMark
  /-- `.bytes x0,x1,…`: raw bytes (R82). -/
  | raw (bs : List Byte)
deriving DecidableEq, Repr

/-- `FILL n` stands for `n div 62` copies of `RUN 62` and one `RUN (n mod 62)` if that is not 0 (R82). -/
def fillChunks (n : Nat) : List Instr :=
  List.replicate (n / 62) (.run 62) ++ if n % 62 = 0 then [] else [.run (n % 62)]

/-- The bytes of one line: an operand out of range encodes nothing (R81, U14). -/
def Line.bytes? : Line → Option (List Byte)
  | .chunk i => if i.wellFormed then some (encode i) else none
  | .fill n => if 1 ≤ n then some ((fillChunks n).flatMap encode) else none
  | .qoi w h c s => some (writeHeader w h c s)
  | .endMark => some endMarker
  | .raw bs => some bs

/-- The bytes of a listing, if every line has some (R81). -/
def assemble : List Line → Option (List Byte)
  | [] => some []
  | l :: rest =>
    match l.bytes?, assemble rest with
    | some bs, some more => some (bs ++ more)
    | _, _ => none

end Sys2Proof.Machine
end

