-- ==== Sys2Proof/Safety.lean ====
section
/-! DEFINITION. The terms claims are stated in: the invariant of the machine, how a job ends (R96), what a step that
writes one output pixel does, and when two states look the same to a job. -/

namespace Sys2Proof.Machine

/-! How a job ends. -/

/-- A job has ended with success: the engine is idle with DONE (R96). -/
abbrev State.succeeded (s : State) : Prop := s.phase = .idle ∧ s.done = true ∧ s.err = false

/-- A job has ended with error `e`: the engine is idle with ERR and the error's code (R96, R152). -/
abbrev State.failedWith (e : JobError) (s : State) : Prop :=
  s.phase = .idle ∧ s.done = false ∧ s.err = true ∧ s.errcode = e.code

/-! The invariant. -/

/-- The flags (R23, R163): DONE and ERR are never both 1, both are 0 while BUSY, ERRCODE is 0 while ERR is 0 and one of
1 to 10 while it is 1. -/
structure FlagsOk (s : State) : Prop where
  notBoth : ¬(s.done = true ∧ s.err = true)
  clearWhileBusy : s.busy = true → s.done = false ∧ s.err = false
  noCode : s.err = false → s.errcode = 0
  someCode : s.err = true → 1 ≤ s.errcode.toNat ∧ s.errcode.toNat ≤ 10

/-- What START leaves (R87) and the header phases keep. -/
structure JobFresh (s : State) : Prop where
  outPos : s.outPos = 0
  inPos : s.inPos = 0
  px : s.px = 0
  cache : s.cache = clearedCache
  prev : s.prev = startPixel
  run : s.run = 0

/-- What the first step of a job has checked (R49, R99, R114). -/
structure FormatOk (s : State) : Prop where
  windows : s.windowsOk = true
  channels : s.channels = 3 ∨ s.channels = 4
  colorspace : s.colorspace = 0 ∨ s.colorspace = 1
  width : s.width ≠ 0
  height : s.height ≠ 0

/-- A decode job past its header (R39, R40, R102). -/
structure DecodeOk (s : State) : Prop extends FormatOk s where
  mode : s.mode = .decode
  raster : s.rasterSize ≤ s.outCap.toNat
  outPos : s.outPos.toNat = s.px.toNat * s.channels.toNat
  px : s.px.toNat ≤ s.pixelCount
  run : s.run.toNat ≤ 62
  input : headerLen ≤ s.inPos.toNat ∧ s.inPos.toNat ≤ s.inLen.toNat

/-- An encode job past its header (R39, R40, R114, R128, R130). -/
structure EncodeOk (s : State) : Prop extends FormatOk s where
  mode : s.mode = .encode
  raster : s.rasterSize ≤ s.inLen.toNat
  inPos : s.inPos.toNat = s.px.toNat * s.channels.toNat
  px : s.px.toNat ≤ s.pixelCount
  run : s.run.toNat ≤ 62
  output : headerLen ≤ s.outPos.toNat ∧ s.outPos.toNat ≤ s.outCap.toNat
  alpha : s.channels = 3 → s.prev.a = 255
  bound : s.outPos.toNat + (if s.run.toNat > 0 then 1 else 0) ≤ headerLen + s.px.toNat * (s.channels.toNat + 1)

/-- What holds in each phase. -/
def PhaseOk (s : State) : Prop :=
  match s.phase with
  | .idle => True
  | .dHdr => s.mode = .decode ∧ JobFresh s
  | .dBody => DecodeOk s
  | .dTrail => DecodeOk s ∧ s.px.toNat = s.pixelCount ∧ s.run = 0
  | .eHdr => s.mode = .encode ∧ JobFresh s
  | .eBody => EncodeOk s
  | .eFlush => EncodeOk s ∧ s.px.toNat = s.pixelCount
  | .eTrail => EncodeOk s ∧ s.px.toNat = s.pixelCount ∧ s.run = 0

/-- The invariant of the machine: memory is in canonical form, the flags are consistent, and the phase's own conditions
hold. -/
structure Inv (s : State) : Prop where
  memory : s.mem.wf
  flags : FlagsOk s
  phase : PhaseOk s

/-! Runs. -/

/-- The outcome of `k` steps, stopping at the first that answers no next state. -/
def runSteps : Nat → State → Outcome State Fault Refusal
  | 0, s => .next s
  | k + 1, s =>
    match step s with
    | .next t => runSteps k t
    | .fault f => .fault f
    | .refused r => .refused r

/-! The terms of the statements about single steps. -/

/-- The window check in the words of R49: neither window wraps past 2^32, and windows that both hold bytes do not
overlap. -/
abbrev WindowsFit (s : State) : Prop :=
  s.inBase.toNat + s.inLen.toNat ≤ 2 ^ 32 ∧ s.outBase.toNat + s.outCap.toNat ≤ 2 ^ 32 ∧
  (s.inLen.toNat > 0 ∧ s.outCap.toNat > 0 →
    s.inBase.toNat + s.inLen.toNat ≤ s.outBase.toNat ∨ s.outBase.toNat + s.outCap.toNat ≤ s.inBase.toNat)

/-- Everything the host programs and the flags show is the same: CTRL, STATUS's flags, WIDTH, HEIGHT, FORMAT and the
windows. -/
structure SameControl (s t : State) : Prop where
  mode : t.mode = s.mode
  irqEn : t.irqEn = s.irqEn
  strictEnd : t.strictEnd = s.strictEnd
  done : t.done = s.done
  err : t.err = s.err
  errcode : t.errcode = s.errcode
  width : t.width = s.width
  height : t.height = s.height
  channels : t.channels = s.channels
  colorspace : t.colorspace = s.colorspace
  inBase : t.inBase = s.inBase
  inLen : t.inLen = s.inLen
  outBase : t.outBase = s.outBase
  outCap : t.outCap = s.outCap

/-- CTRL and the windows are the same. -/
structure SameSetup (s t : State) : Prop where
  mode : t.mode = s.mode
  irqEn : t.irqEn = s.irqEn
  strictEnd : t.strictEnd = s.strictEnd
  inBase : t.inBase = s.inBase
  inLen : t.inLen = s.inLen
  outBase : t.outBase = s.outBase
  outCap : t.outCap = s.outCap

/-- The model's own fields are the same: the host's moves, what its reads returned, and the count of free values. -/
structure SameWorld (s t : State) : Prop where
  host : t.host = s.host
  hostWord : t.hostWord = s.hostWord
  hostByte : t.hostByte = s.hostByte
  draws : t.draws = s.draws

/-- The bytes of memory from address `a` up are `bs`, and every other byte is as in `s`. -/
def StoresAt (s t : State) (a : Nat) (bs : List Byte) : Prop :=
  (∀ j (h : j < bs.length), t.mem.read (a + j) = bs[j]) ∧
  ∀ b, b < a ∨ a + bs.length ≤ b → t.mem.read b = s.mem.read b

/-- Every byte of memory is as in `s`. -/
def StoresNothing (s t : State) : Prop := ∀ b, t.mem.read b = s.mem.read b

/-- The cache of `t` is that of `s` with `p` in entry `(3r + 5g + 7b + 11a) mod 64` (R106, R108). -/
def CacheStores (s t : State) (p : Pixel) : Prop :=
  ∀ k (h : k < 64), t.cache[k] =
    if k = (3 * p.r.toNat + 5 * p.g.toNat + 7 * p.b.toNat + 11 * p.a.toNat) % 64 then p else s.cache[k]

/-- The datapath is the same: the cache, `prev` and `run`. -/
structure SameDatapath (s t : State) : Prop where
  cache : t.cache = s.cache
  prev : t.prev = s.prev
  run : t.run = s.run

/-- The cursors are the same. -/
structure SameCursors (s t : State) : Prop where
  inPos : t.inPos = s.inPos
  outPos : t.outPos = s.outPos
  px : t.px = s.px

/-- What writing pixel `p` as output pixel `px` does besides the cache (R133, R138 to R142): its bytes go to
`OUT_BASE + CHANNELS * px`, alpha only with four channels; `px`, `out_pos` and `prev` move on; all else stays. -/
structure WritesPixel (s t : State) (p : Pixel) : Prop where
  stores : StoresAt s t (s.outBase.toNat + s.channels.toNat * s.px.toNat)
    (if s.channels = 4 then [p.r, p.g, p.b, p.a] else [p.r, p.g, p.b])
  px : t.px = s.px + 1
  outPos : t.outPos = s.outPos + s.channels.setWidth 32
  prev : t.prev = p
  inPos : t.inPos = s.inPos
  phase : t.phase = s.phase
  control : SameControl s t
  world : SameWorld s t

/-- Input pixel `px` lies in the memory space (R47). -/
abbrev InPixelFits (s : State) : Prop :=
  s.inBase.toNat + s.channels.toNat * s.px.toNat + (if s.channels = 4 then 4 else 3) ≤ memSize

/-- Output pixel `px` lies in the memory space (R47). -/
abbrev OutPixelFits (s : State) : Prop :=
  s.outBase.toNat + s.channels.toNat * s.px.toNat + (if s.channels = 4 then 4 else 3) ≤ memSize

/-- The step from `s` ended the job with error `e` (R152): the flags say so, the engine is idle, the cursors, WIDTH,
HEIGHT, FORMAT, CTRL and the windows keep the values of `s`, and no byte outside the output window changed (R165). -/
structure RaisedFrom (s t : State) (e : JobError) : Prop where
  failed : t.err = true ∧ t.errcode = e.code ∧ t.phase = .idle ∧ t.done = s.done
  cursors : t.inPos = s.inPos ∧ t.outPos = s.outPos ∧ t.px = s.px
  image : t.width = s.width ∧ t.height = s.height ∧ t.channels = s.channels ∧ t.colorspace = s.colorspace
  ctrl : t.mode = s.mode ∧ t.irqEn = s.irqEn ∧ t.strictEnd = s.strictEnd
  windows : t.inBase = s.inBase ∧ t.inLen = s.inLen ∧ t.outBase = s.outBase ∧ t.outCap = s.outCap
  memory : ∀ b, s.inOutputWindow b = false → t.mem.read b = s.mem.read b

/-- Two memories agree on the input window of `s`. -/
def AgreeOnInput (s : State) (m m' : Memory) : Prop := ∀ b, s.inInputWindow b = true → m.read b = m'.read b

/-- A transition of the phase machine that an engine step may take (R91), with IDLE resting (R90, R176). -/
def engineTransition : Phase → Phase → Bool
  | .idle, .idle => true
  | .dHdr, .dBody | .dHdr, .idle => true
  | .dBody, .dBody | .dBody, .dTrail | .dBody, .idle => true
  | .dTrail, .idle => true
  | .eHdr, .eBody | .eHdr, .idle => true
  | .eBody, .eBody | .eBody, .eFlush | .eBody, .idle => true
  | .eFlush, .eTrail | .eFlush, .idle => true
  | .eTrail, .idle => true
  | _, _ => false

/-- The raster pixel `i` of the input window of `s` (R53, R115). -/
def inputPixel (s : State) (i : Nat) : Pixel :=
  let a := s.inBase.toNat + s.channels.toNat * i
  ⟨s.mem.read a, s.mem.read (a + 1), s.mem.read (a + 2), if s.channels = 4 then s.mem.read (a + 3) else 255⟩

/-! The header and the pixel step in the words of their rules. -/

/-- The big-endian value of four bytes (R15, R51). -/
def bigEndian (b0 b1 b2 b3 : Byte) : Nat :=
  b0.toNat * 2 ^ 24 + b1.toNat * 2 ^ 16 + b2.toNat * 2 ^ 8 + b3.toNat

/-- The state with the raw header fields of the first 14 input bytes in WIDTH, HEIGHT and FORMAT (R97, R101). -/
def HoldsRawHeader (s t : State) : Prop :=
  let h := fun k => s.mem.read (s.inBase.toNat + k)
  t.width.toNat = bigEndian (h 4) (h 5) (h 6) (h 7) ∧ t.height.toNat = bigEndian (h 8) (h 9) (h 10) (h 11) ∧
  t.channels = h 12 ∧ t.colorspace = h 13

/-- The decoder's check, by number, that the first 14 input bytes and the state fail (R99, R166): 0 for none. -/
def headerCheckFailed (s : State) : Nat :=
  let h := fun k => s.mem.read (s.inBase.toNat + k)
  if ¬(h 0 = 0x71 ∧ h 1 = 0x6F ∧ h 2 = 0x69 ∧ h 3 = 0x66) then 1
  else if h 12 ≠ 3 ∧ h 12 ≠ 4 then 2
  else if h 13 ≠ 0 ∧ h 13 ≠ 1 then 3
  else if bigEndian (h 4) (h 5) (h 6) (h 7) = 0 ∨ bigEndian (h 8) (h 9) (h 10) (h 11) = 0 then 4
  else if bigEndian (h 4) (h 5) (h 6) (h 7) * bigEndian (h 8) (h 9) (h 10) (h 11) * (h 12).toNat > s.outCap.toNat then 5
  else 0

/-- The encoder's configuration check, by number, that the registers fail (R114, R166): 0 for none. -/
def configCheckFailed (s : State) : Nat :=
  if s.channels ≠ 3 ∧ s.channels ≠ 4 then 2
  else if s.colorspace ≠ 0 ∧ s.colorspace ≠ 1 then 3
  else if s.width = 0 ∨ s.height = 0 then 4
  else if s.width.toNat * s.height.toNat * s.channels.toNat > s.inLen.toNat then 5
  else if s.outPos.toNat + 14 > s.outCap.toNat then 8
  else 0

/-- A 32-bit value as four bytes, big-endian (R51, R98). -/
def bigEndianBytes (w : Word) : List Byte :=
  [BitVec.ofNat 8 (w.toNat / 2 ^ 24), BitVec.ofNat 8 (w.toNat / 2 ^ 16), BitVec.ofNat 8 (w.toNat / 2 ^ 8),
   BitVec.ofNat 8 w.toNat]

/-- The bytes a pixel step writes for pixel `p` and chunk `i`: the pending run is closed first (R117, R121). -/
def pixelStepBytes (s : State) (i : Instr) : List Byte :=
  (if s.run.toNat > 0 then [BitVec.ofNat 8 (0xC0 + (s.run.toNat - 1))] else []) ++ encode i

end Sys2Proof.Machine
end

