-- ==== Sys2Proof/Certificates/Slice0/Obligations.lean ====
section
/-! DEFINITION. The statements for the provers. Each docstring names the rule of spec/ it formalises. -/

open Sys2Proof Sys2Proof.Machine

/-! Reset. -/

/-- R44, on the state of a model that has just been reset: every register of the block reads 0, the engine is idle in
decode mode with the interrupt masked, and `irq` is 0. -/
def Obligations.ResetStateReadsZeroAndIdle : Prop :=
  (∀ off, regValue off State.reset = 0) ∧ State.reset.mode = .decode ∧ State.reset.irqEn = false ∧
  State.reset.strictEnd = false ∧ State.reset.done = false ∧ State.reset.err = false ∧ State.reset.errcode = 0 ∧
  State.reset.phase = .idle ∧ State.reset.irq = false

/-- R177 and R178: the reset event, from every state, sets every register the spec gives a value, leaves the engine at
rest, touches no memory when idle, and during a job changes no byte outside the output window. -/
def Obligations.ResetEventSetsStatedValues : Prop :=
  ∀ s : State, ∃ t, hostStep .rst s = .next t ∧
    (t.mode = .decode ∧ t.irqEn = false ∧ t.strictEnd = false) ∧
    (t.done = false ∧ t.err = false ∧ t.errcode = 0 ∧ t.statusWord = 0) ∧
    (t.width = 0 ∧ t.height = 0 ∧ t.channels = 0 ∧ t.colorspace = 0) ∧
    (t.inBase = 0 ∧ t.inLen = 0 ∧ t.outBase = 0 ∧ t.outCap = 0) ∧
    (t.outPos = 0 ∧ t.inPos = 0 ∧ t.px = 0) ∧ t.phase = .idle ∧ t.irq = false ∧ t.host = s.host ∧
    engineStep t = .next t ∧
    (s.busy = false → StoresNothing s t) ∧ (∀ b, s.inOutputWindow b = false → t.mem.read b = s.mem.read b)

/-! The invariant. -/

/-- The invariant of the machine holds right after reset. -/
def Obligations.ResetSatisfiesTheInvariant : Prop := Inv State.reset

/-- Every step, of the engine or of the world outside, keeps the invariant: memory stays canonical, DONE and ERR stay
exclusive and clear while BUSY, ERRCODE stays in 0 to 10, and the cursors of a job stay inside its windows
(R23, R39, R40, R49, R50, R163). -/
def Obligations.EveryStepKeepsTheInvariant : Prop := ∀ s t : State, Inv s → step s = .next t → Inv t

/-- The windows rule out every access outside the memory space (R47, R49, R50). -/
def Obligations.InvariantStatesNeverFault : Prop := ∀ (s : State) (f : Fault), Inv s → step s ≠ .fault f

/-- Without host moves nothing is refused either: the engine always answers a next state. -/
def Obligations.EngineStepsAlwaysComplete : Prop := ∀ s : State, Inv s → ∃ t, engineStep s = .next t

/-- The memory's form is canonical: memories in that form, with no byte left unspecified, that read the same everywhere
are the same data. -/
def Obligations.EqualMemoriesAreEqualData : Prop :=
  ∀ m m' : Memory, m.wf → m'.wf → m.spans = [] → m'.spans = [] → (∀ a, m.read a = m'.read a) → m = m'

/-! Encoding. -/

/-- Decode and encode agree: every well-formed instruction, with every operand, is read back from its bytes, whatever
bytes follow (R77, R78). -/
def Obligations.DecodeOfEncodeIsTheInstruction : Prop :=
  ∀ (i : Instr) (rest : List Byte), i.wellFormed = true → decode (encode i ++ rest) = .ok (i, rest)

/-- Every chunk has one meaning and every meaning one spelling: what the decoder reads is well-formed and encodes to the
bytes it was read from (R74, R79). -/
def Obligations.EncodeOfDecodeIsTheBytes : Prop :=
  ∀ (bs rest : List Byte) (i : Instr), decode bs = .ok (i, rest) → i.wellFormed = true ∧ encode i ++ rest = bs

/-- R74, R75 and R77: the first byte decides kind and length, and the operands are the biased fields. -/
def Obligations.FirstByteDecidesKindAndOperands : Prop :=
  ∀ (b0 b1 b2 b3 b4 : Byte) (rest : List Byte),
    (b0.toNat ≤ 0x3F → decode (b0 :: rest) = .ok (.index b0.toNat, rest)) ∧
    (0x40 ≤ b0.toNat ∧ b0.toNat ≤ 0x7F → decode (b0 :: rest) =
      .ok (.diff ((b0.toNat / 16 % 4 : Nat) - 2) ((b0.toNat / 4 % 4 : Nat) - 2) ((b0.toNat % 4 : Nat) - 2), rest)) ∧
    (0x80 ≤ b0.toNat ∧ b0.toNat ≤ 0xBF → decode (b0 :: b1 :: rest) =
      .ok (.luma ((b0.toNat % 64 : Nat) - 32) ((b1.toNat / 16 : Nat) - 8) ((b1.toNat % 16 : Nat) - 8), rest)) ∧
    (0xC0 ≤ b0.toNat ∧ b0.toNat ≤ 0xFD → decode (b0 :: rest) = .ok (.run (b0.toNat % 64 + 1), rest)) ∧
    (b0.toNat = 0xFE → decode (b0 :: b1 :: b2 :: b3 :: rest) = .ok (.rgb b1 b2 b3, rest)) ∧
    (b0.toNat = 0xFF → decode (b0 :: b1 :: b2 :: b3 :: b4 :: rest) = .ok (.rgba b1 b2 b3 b4, rest))

/-- A word of each row of the opcode table, written out from the row's encoding (R68 to R73). -/
def Obligations.TableWordsDecodeAsTheirRows : Prop :=
  decodeTableWord 8 0b00011111 = some (.index 31) ∧ decodeTableWord 8 0b01011011 = some (.diff (-1) 0 1) ∧
  decodeTableWord 16 0b0000111110101010 = some (.luma 10 (-8) 7) ∧ decodeTableWord 8 0b11000010 = some (.run 3) ∧
  decodeTableWord 32 0x1E140AFE = some (.rgb 10 20 30) ∧ decodeTableWord 40 0x04030201FF = some (.rgba 1 2 3 4)

/-- R81 with R68 to R73: for each kind, a chunk line with its operands in range gives the kind's bytes, written out here
from the field tables, and one with an operand out of range encodes nothing. RGB and RGBA operands are bytes, so every
line of them is in range. -/
def Obligations.AssemblerRefusesOperandsOutOfRange : Prop :=
  (∀ idx : Nat, assemble [.chunk (.index idx)] = if idx ≤ 63 then some [BitVec.ofNat 8 idx] else none) ∧
  (∀ dr dg db : Int, assemble [.chunk (.diff dr dg db)] =
    if (-2 ≤ dr ∧ dr ≤ 1) ∧ (-2 ≤ dg ∧ dg ≤ 1) ∧ (-2 ≤ db ∧ db ≤ 1) then
      some [BitVec.ofInt 8 (0x40 + (dr + 2) * 16 + (dg + 2) * 4 + (db + 2))]
    else none) ∧
  (∀ dg drDg dbDg : Int, assemble [.chunk (.luma dg drDg dbDg)] =
    if (-32 ≤ dg ∧ dg ≤ 31) ∧ (-8 ≤ drDg ∧ drDg ≤ 7) ∧ (-8 ≤ dbDg ∧ dbDg ≤ 7) then
      some [BitVec.ofInt 8 (0x80 + (dg + 32)), BitVec.ofInt 8 ((drDg + 8) * 16 + (dbDg + 8))]
    else none) ∧
  (∀ n : Nat, assemble [.chunk (.run n)] =
    if 1 ≤ n ∧ n ≤ 62 then some [BitVec.ofNat 8 (0xC0 + (n - 1))] else none) ∧
  (∀ r g b : Byte, assemble [.chunk (.rgb r g b)] = some [0xFE, r, g, b]) ∧
  ∀ r g b a : Byte, assemble [.chunk (.rgba r g b a)] = some [0xFF, r, g, b, a]

/-- R82: `FILL n` is `n div 62` bytes `RUN 62` and one more RUN for the rest, if any. -/
def Obligations.FillIsRunsOfSixtyTwo : Prop :=
  ∀ n : Nat, 1 ≤ n → assemble [.fill n] =
    some (List.replicate (n / 62) 0xFD ++ if n % 62 = 0 then [] else [BitVec.ofNat 8 (0xC0 + (n % 62 - 1))])

/-! The chunks: result, completion and frame. -/

/-- R136: a first byte 0xC0 to 0xFD is RUN with its count; RUN loads the counter, writes no pixel, and changes nothing
else. -/
def Obligations.RunLoadsTheRunCounter : Prop :=
  (∀ (b0 : Byte) (rest : List Byte), 0xC0 ≤ b0.toNat ∧ b0.toNat ≤ 0xFD →
    decode (b0 :: rest) = .ok (.run (b0.toNat % 64 + 1), rest)) ∧
  ∀ (s : State) (count : Nat), 1 ≤ count → count ≤ 62 → ∃ t, exec (.run count) s = .next t ∧
    t.run.toNat = count ∧ t.prev = s.prev ∧ t.cache = s.cache ∧ StoresNothing s t ∧
    SameCursors s t ∧ t.phase = s.phase ∧ SameControl s t ∧ SameWorld s t

/-- R138: a first byte 0x00 to 0x3F is INDEX with its entry; INDEX writes the cached pixel, sets `prev`, and writes
neither the cache nor anything else. -/
def Obligations.IndexWritesTheCachedPixel : Prop :=
  (∀ (b0 : Byte) (rest : List Byte), b0.toNat ≤ 0x3F → decode (b0 :: rest) = .ok (.index (b0.toNat % 64), rest)) ∧
  ∀ (s : State) (idx : Nat) (h : idx < 64), OutPixelFits s → ∃ t, exec (.index idx) s = .next t ∧
    WritesPixel s t s.cache[idx] ∧ t.cache = s.cache ∧ t.run = s.run

/-- R139: a first byte 0x40 to 0x7F is DIFF with its deltas; DIFF writes `prev` plus its deltas, wrapping, alpha
unchanged, and stores the pixel. -/
def Obligations.DiffAddsWrappingDeltas : Prop :=
  (∀ (b0 : Byte) (rest : List Byte), 0x40 ≤ b0.toNat ∧ b0.toNat ≤ 0x7F → decode (b0 :: rest) =
    .ok (.diff ((b0.toNat / 16 % 4 : Nat) - 2) ((b0.toNat / 4 % 4 : Nat) - 2) ((b0.toNat % 4 : Nat) - 2), rest)) ∧
  ∀ (s : State) (dr dg db : Int), OutPixelFits s → ∃ t p, exec (.diff dr dg db) s = .next t ∧
    (p.r.toNat : Int) = (s.prev.r.toNat + dr) % 256 ∧ (p.g.toNat : Int) = (s.prev.g.toNat + dg) % 256 ∧
    (p.b.toNat : Int) = (s.prev.b.toNat + db) % 256 ∧ p.a = s.prev.a ∧
    WritesPixel s t p ∧ CacheStores s t p ∧ t.run = s.run

/-- R140: a first byte 0x80 to 0xBF is LUMA with the fields of two bytes; LUMA adds the green delta to every channel and
the relative deltas to red and blue, and stores the pixel. -/
def Obligations.LumaAddsRelativeDeltas : Prop :=
  (∀ (b0 b1 : Byte) (rest : List Byte), 0x80 ≤ b0.toNat ∧ b0.toNat ≤ 0xBF → decode (b0 :: b1 :: rest) =
    .ok (.luma ((b0.toNat % 64 : Nat) - 32) ((b1.toNat / 16 : Nat) - 8) ((b1.toNat % 16 : Nat) - 8), rest)) ∧
  ∀ (s : State) (dg drDg dbDg : Int), OutPixelFits s → ∃ t p, exec (.luma dg drDg dbDg) s = .next t ∧
    (p.r.toNat : Int) = (s.prev.r.toNat + dg + drDg) % 256 ∧ (p.g.toNat : Int) = (s.prev.g.toNat + dg) % 256 ∧
    (p.b.toNat : Int) = (s.prev.b.toNat + dg + dbDg) % 256 ∧ p.a = s.prev.a ∧
    WritesPixel s t p ∧ CacheStores s t p ∧ t.run = s.run

/-- R141: the first byte 0xFE is RGB with three more bytes; RGB takes its channels from them and its alpha from `prev`,
and stores the pixel. -/
def Obligations.RgbKeepsTheAlphaOfPrev : Prop :=
  (∀ (b1 b2 b3 : Byte) (rest : List Byte), decode (0xFE :: b1 :: b2 :: b3 :: rest) = .ok (.rgb b1 b2 b3, rest)) ∧
  ∀ (s : State) (r g b : Byte), OutPixelFits s → ∃ t, exec (.rgb r g b) s = .next t ∧
    WritesPixel s t ⟨r, g, b, s.prev.a⟩ ∧ CacheStores s t ⟨r, g, b, s.prev.a⟩ ∧ t.run = s.run

/-- R142: the first byte 0xFF is RGBA with four more bytes; RGBA takes all four channels from them, and stores the
pixel. -/
def Obligations.RgbaTakesAllFourChannels : Prop :=
  (∀ (b1 b2 b3 b4 : Byte) (rest : List Byte),
    decode (0xFF :: b1 :: b2 :: b3 :: b4 :: rest) = .ok (.rgba b1 b2 b3 b4, rest)) ∧
  ∀ (s : State) (r g b a : Byte), OutPixelFits s → ∃ t, exec (.rgba r g b a) s = .next t ∧
    WritesPixel s t ⟨r, g, b, a⟩ ∧ CacheStores s t ⟨r, g, b, a⟩ ∧ t.run = s.run

/-! The decoder's steps. -/

/-- A step runs the decoded chunk: when the rest of the input decodes to a chunk, the step is that chunk's meaning on the
state whose input cursor stands past it (R135). -/
def Obligations.StepRunsTheDecodedChunk : Prop :=
  ∀ (s : State) (i : Instr) (rest : List Byte), s.host = [] → s.phase = .dBody → s.px.toNat ≠ s.pixelCount →
    s.run = 0 → s.inBase.toNat + s.inLen.toNat ≤ 2 ^ 32 → s.inPos.toNat ≤ s.inLen.toNat →
    decode (s.mem.readList (s.inBase.toNat + s.inPos.toNat) (s.inLen.toNat - s.inPos.toNat)) = .ok (i, rest) →
    step s = exec i { s with inPos := s.inPos + BitVec.ofNat 32 (encode i).length }

/-- R135 and R158: a chunk that passes the end of the input ends the job with TRUNCATED_STREAM, the cursor at its first
byte. -/
def Obligations.CutShortChunkIsTruncatedStream : Prop :=
  ∀ (s : State) (e : DecodeError), s.host = [] → s.phase = .dBody → s.px.toNat ≠ s.pixelCount →
    s.run = 0 → s.inBase.toNat + s.inLen.toNat ≤ 2 ^ 32 → s.inPos.toNat ≤ s.inLen.toNat →
    decode (s.mem.readList (s.inBase.toNat + s.inPos.toNat) (s.inLen.toNat - s.inPos.toNat)) = .error e →
    ∃ t, step s = .next t ∧ RaisedFrom s t .truncatedStream

/-- R134: a run-pixel step writes one copy of `prev`, reads no stream byte and does not touch the cache. -/
def Obligations.RunPixelStepCopiesPrev : Prop :=
  ∀ s : State, s.host = [] → s.phase = .dBody → s.px.toNat ≠ s.pixelCount → s.run ≠ 0 → OutPixelFits s →
    ∃ t, step s = .next t ∧ WritesPixel s t s.prev ∧ t.cache = s.cache ∧ t.run.toNat = s.run.toNat - 1

/-- R137: once `px` is `N` the body ends: what is left of a RUN is dropped, nothing is written, no error is raised and
the cursor stays after the RUN. -/
def Obligations.BodyEndDropsTheRestOfARun : Prop :=
  ∀ s : State, s.host = [] → s.phase = .dBody → s.px.toNat = s.pixelCount →
    ∃ t, step s = .next t ∧ t.phase = .dTrail ∧ t.run = 0 ∧ StoresNothing s t ∧ SameCursors s t ∧
      t.cache = s.cache ∧ t.prev = s.prev ∧ SameControl s t ∧ SameWorld s t

/-- R146 to R148: the end-marker step. -/
def Obligations.EndMarkerStepChecksInOrder : Prop :=
  ∀ s : State, s.host = [] → s.phase = .dTrail → s.inBase.toNat + s.inLen.toNat ≤ 2 ^ 32 →
    ∃ t, step s = .next t ∧
      (s.inPos.toNat + 8 > s.inLen.toNat → RaisedFrom s t .truncatedStream) ∧
      (s.inPos.toNat + 8 ≤ s.inLen.toNat →
        s.mem.readList (s.inBase.toNat + s.inPos.toNat) 8 ≠ [0, 0, 0, 0, 0, 0, 0, 1] →
        RaisedFrom s t .endMarkerMismatch) ∧
      (s.inPos.toNat + 8 ≤ s.inLen.toNat →
        s.mem.readList (s.inBase.toNat + s.inPos.toNat) 8 = [0, 0, 0, 0, 0, 0, 0, 1] →
        s.strictEnd = true ∧ s.inPos.toNat + 8 < s.inLen.toNat →
        RaisedFrom { s with inPos := s.inPos + 8 } t .trailingBytes) ∧
      (s.inPos.toNat + 8 ≤ s.inLen.toNat →
        s.mem.readList (s.inBase.toNat + s.inPos.toNat) 8 = [0, 0, 0, 0, 0, 0, 0, 1] →
        ¬(s.strictEnd = true ∧ s.inPos.toNat + 8 < s.inLen.toNat) →
        t.phase = .idle ∧ t.done = true ∧ t.err = s.err ∧ t.errcode = s.errcode ∧ t.inPos = s.inPos + 8 ∧
        t.outPos = s.outPos ∧ t.px = s.px ∧ StoresNothing s t ∧ SameDatapath s t ∧ SameWorld s t ∧
        SameControl { s with done := true } t)

/-- R99 to R102: the header step. A bad window or an input under 22 bytes ends the job with no register changed; else
WIDTH, HEIGHT and FORMAT take the raw header, the first failing check in the spec's order is reported with `in_pos` 0,
and a good header leads to the body at offset 14. -/
def Obligations.HeaderStepReportsTheFirstFailingCheck : Prop :=
  ∀ s : State, Inv s → s.host = [] → s.phase = .dHdr → ∃ t, step s = .next t ∧
    (¬WindowsFit s → RaisedFrom s t .invalidConfig) ∧
    (WindowsFit s → s.inLen.toNat < 22 → RaisedFrom s t .truncatedStream) ∧
    (WindowsFit s → 22 ≤ s.inLen.toNat → HoldsRawHeader s t ∧ SameSetup s t ∧
      (headerCheckFailed s ≠ 0 → t.failedWith
        (match headerCheckFailed s with
          | 1 => .badMagic
          | 2 => .unsupportedChannels
          | 3 => .unsupportedColorspace
          | 4 => .invalidDimensions
          | _ => .dimensionOverflow) ∧ t.inPos = 0 ∧ t.outPos = 0 ∧ t.px = 0 ∧
          ∀ b, s.inOutputWindow b = false → t.mem.read b = s.mem.read b) ∧
      (headerCheckFailed s = 0 → t.phase = .dBody ∧ t.inPos = 14 ∧ t.outPos = 0 ∧ t.px = 0 ∧ t.done = false ∧
        t.err = false ∧ t.errcode = 0 ∧ SameDatapath s t ∧ StoresNothing s t ∧ SameWorld s t))

/-! The encoder's steps. -/

/-- R98 and R114: the encoder's first step. A failing check is reported on the state as it was; else the 14 header bytes
are written at OUT_BASE and nothing else in memory. -/
def Obligations.EncoderHeaderStepChecksThenWrites : Prop :=
  ∀ s : State, s.host = [] → s.phase = .eHdr → ∃ t, step s = .next t ∧
    (¬WindowsFit s → RaisedFrom s t .invalidConfig) ∧
    (WindowsFit s → configCheckFailed s ≠ 0 → RaisedFrom s t
      (match configCheckFailed s with
        | 2 => .unsupportedChannels
        | 3 => .unsupportedColorspace
        | 4 => .invalidDimensions
        | 5 => .dimensionOverflow
        | _ => .outputOverflow)) ∧
    (WindowsFit s → configCheckFailed s = 0 →
      StoresAt s t s.outBase.toNat ([0x71, 0x6F, 0x69, 0x66] ++ bigEndianBytes s.width ++ bigEndianBytes s.height ++
        [s.channels, s.colorspace]) ∧
      t.phase = .eBody ∧ t.outPos = 14 ∧ t.inPos = s.inPos ∧ t.px = s.px ∧ SameDatapath s t ∧ SameControl s t ∧
      SameWorld s t)

/-- R118: a pixel equal to `prev` joins a run of fewer than 62, and no byte is written. -/
def Obligations.EqualPixelJoinsTheRun : Prop :=
  ∀ s : State, s.host = [] → s.phase = .eBody → s.px.toNat ≠ s.pixelCount → InPixelFits s →
    inputPixel s s.px.toNat = s.prev → s.run.toNat < 62 → ∃ t, step s = .next t ∧
    t.run.toNat = s.run.toNat + 1 ∧ t.px = s.px + 1 ∧ t.inPos = s.inPos + s.channels.setWidth 32 ∧
    t.outPos = s.outPos ∧ t.prev = s.prev ∧ t.cache = s.cache ∧ t.phase = s.phase ∧ StoresNothing s t ∧
    SameControl s t ∧ SameWorld s t

/-- R116 and R117: any other pixel closes the run and writes the chunk the multiplexer picks; where the bytes do not fit
in OUT_CAP none is written and the job ends with OUTPUT_OVERFLOW on the state as it was. -/
def Obligations.OtherPixelWritesItsChunk : Prop :=
  ∀ (s : State) (p : Pixel) (i : Instr) (store : Bool), Inv s → s.host = [] → s.phase = .eBody →
    s.px.toNat ≠ s.pixelCount → p = inputPixel s s.px.toNat → ¬(p = s.prev ∧ s.run.toNat < 62) →
    (i, store) = mux p s.prev (s.lookup (hash p)) (hash p) → ∃ t, step s = .next t ∧
    (s.outPos.toNat + (pixelStepBytes s i).length > s.outCap.toNat → RaisedFrom s t .outputOverflow) ∧
    (s.outPos.toNat + (pixelStepBytes s i).length ≤ s.outCap.toNat →
      StoresAt s t (s.outBase.toNat + s.outPos.toNat) (pixelStepBytes s i) ∧
      t.outPos = s.outPos + BitVec.ofNat 32 (pixelStepBytes s i).length ∧ t.run = 0 ∧ t.prev = p ∧
      (if store then CacheStores s t p else t.cache = s.cache) ∧
      t.px = s.px + 1 ∧ t.inPos = s.inPos + s.channels.setWidth 32 ∧ t.phase = s.phase ∧ SameControl s t ∧
      SameWorld s t)

/-- R117: after the last pixel the body ends and nothing else changes. -/
def Obligations.EncoderBodyEndsAfterTheLastPixel : Prop :=
  ∀ s : State, s.host = [] → s.phase = .eBody → s.px.toNat = s.pixelCount → ∃ t, step s = .next t ∧
    t.phase = .eFlush ∧ StoresNothing s t ∧ SameCursors s t ∧ SameDatapath s t ∧ SameControl s t ∧ SameWorld s t

/-- R119 and R120: the multiplexer. A hit gives INDEX and no store. A miss stores, and gives RGBA where alpha changed,
else DIFF where the three signed wrapping deltas lie in [-2,1], else LUMA where the green delta lies in [-32,31] and the
two relative ones in [-8,7], else RGB. -/
def Obligations.MultiplexerPicksTheFirstFittingKind : Prop :=
  ∀ (p prev c : Pixel) (i : Fin 64) (dr dg db : Int),
    -128 ≤ dr ∧ dr ≤ 127 ∧ -128 ≤ dg ∧ dg ≤ 127 ∧ -128 ≤ db ∧ db ≤ 127 →
    ((p.r.toNat : Int) - prev.r.toNat - dr) % 256 = 0 → ((p.g.toNat : Int) - prev.g.toNat - dg) % 256 = 0 →
    ((p.b.toNat : Int) - prev.b.toNat - db) % 256 = 0 →
    let fitsDiff := (-2 ≤ dr ∧ dr ≤ 1) ∧ (-2 ≤ dg ∧ dg ≤ 1) ∧ -2 ≤ db ∧ db ≤ 1
    let fitsLuma := (-32 ≤ dg ∧ dg ≤ 31) ∧ (-8 ≤ dr - dg ∧ dr - dg ≤ 7) ∧ -8 ≤ db - dg ∧ db - dg ≤ 7
    (c = p → mux p prev c i = (.index i.val, false)) ∧
    (c ≠ p → p.a ≠ prev.a → mux p prev c i = (.rgba p.r p.g p.b p.a, true)) ∧
    (c ≠ p → p.a = prev.a → fitsDiff → mux p prev c i = (.diff dr dg db, true)) ∧
    (c ≠ p → p.a = prev.a → ¬fitsDiff → fitsLuma → mux p prev c i = (.luma dg (dr - dg) (db - dg), true)) ∧
    (c ≠ p → p.a = prev.a → ¬fitsDiff → ¬fitsLuma → mux p prev c i = (.rgb p.r p.g p.b, true))

/-- R119: the delta unit gives the signed wrapping deltas, their plain differences and whether alpha is unchanged; and
wrapping a relative delta modulo 256 and reading it as signed again makes no difference to a test of R120. -/
def Obligations.WrappedRelativeDeltasTestTheSame : Prop :=
  ∀ p prev : Pixel, let d := deltaUnit p prev
    (-128 ≤ d.dr ∧ d.dr ≤ 127 ∧ ((p.r.toNat : Int) - prev.r.toNat - d.dr) % 256 = 0) ∧
    (-128 ≤ d.dg ∧ d.dg ≤ 127 ∧ ((p.g.toNat : Int) - prev.g.toNat - d.dg) % 256 = 0) ∧
    (-128 ≤ d.db ∧ d.db ≤ 127 ∧ ((p.b.toNat : Int) - prev.b.toNat - d.db) % 256 = 0) ∧
    d.drDg = d.dr - d.dg ∧ d.dbDg = d.db - d.dg ∧ (d.aeq = true ↔ p.a = prev.a) ∧
    (-32 ≤ d.dg ∧ d.dg ≤ 31 → inRange (-8) 7 (sext8 (wrap8 d.drDg)) = inRange (-8) 7 d.drDg ∧
      inRange (-8) 7 (sext8 (wrap8 d.dbDg)) = inRange (-8) 7 d.dbDg)

/-- R106: the hash of a pixel, and that it keeps the same value when every product and the sum keep only their low six
bits. -/
def Obligations.HashNeedsOnlySixBits : Prop :=
  ∀ p : Pixel, p.r.toNat * 3 + p.g.toNat * 5 + p.b.toNat * 7 + p.a.toNat * 11 ≤ 6630 ∧
    (hash p).val = (p.r.toNat * 3 + p.g.toNat * 5 + p.b.toNat * 7 + p.a.toNat * 11) % 64 ∧
    (hash p).val = ((p.r.toNat % 64 * 3 % 64 + p.g.toNat % 64 * 5 % 64) % 64 +
      (p.b.toNat % 64 * 7 % 64 + p.a.toNat % 64 * 11 % 64) % 64) % 64

/-- R128: with three channels no pixel step of an encode job picks RGBA. -/
def Obligations.ThreeChannelEncodeNeverPicksRgba : Prop :=
  ∀ (s : State) (c : Pixel) (k : Fin 64) (r g b a : Byte), Inv s → s.phase = .eBody → s.channels = 3 →
    (mux (inputPixel s s.px.toNat) s.prev c k).1 ≠ .rgba r g b a

/-- R127: the flush writes the pending run, if any. -/
def Obligations.FlushWritesThePendingRun : Prop :=
  ∀ s : State, s.host = [] → s.phase = .eFlush → s.run.toNat ≤ 62 → s.outBase.toNat + s.outCap.toNat ≤ 2 ^ 32 →
    ∃ t, step s = .next t ∧
      (s.run.toNat > 0 ∧ s.outPos.toNat + 1 > s.outCap.toNat → RaisedFrom s t .outputOverflow) ∧
      (s.run.toNat > 0 ∧ s.outPos.toNat + 1 ≤ s.outCap.toNat →
        StoresAt s t (s.outBase.toNat + s.outPos.toNat) [BitVec.ofNat 8 (0xC0 + (s.run.toNat - 1))] ∧
        t.outPos = s.outPos + 1 ∧ t.run = 0 ∧ t.phase = .eTrail ∧ t.inPos = s.inPos ∧ t.px = s.px ∧
        t.cache = s.cache ∧ t.prev = s.prev ∧ SameControl s t ∧ SameWorld s t) ∧
      (s.run = 0 → t.phase = .eTrail ∧ StoresNothing s t ∧ SameCursors s t ∧ SameDatapath s t ∧ SameControl s t ∧
        SameWorld s t)

/-- R129 and R95: the end marker is written and the job ends with DONE, or it does not fit and the job ends with
OUTPUT_OVERFLOW. -/
def Obligations.TrailerWritesTheEndMarker : Prop :=
  ∀ s : State, s.host = [] → s.phase = .eTrail → s.outBase.toNat + s.outCap.toNat ≤ 2 ^ 32 →
    ∃ t, step s = .next t ∧
      (s.outPos.toNat + 8 > s.outCap.toNat → RaisedFrom s t .outputOverflow) ∧
      (s.outPos.toNat + 8 ≤ s.outCap.toNat →
        StoresAt s t (s.outBase.toNat + s.outPos.toNat) [0, 0, 0, 0, 0, 0, 0, 1] ∧
        t.outPos = s.outPos + 8 ∧ t.phase = .idle ∧ t.done = true ∧ t.err = s.err ∧ t.inPos = s.inPos ∧ t.px = s.px ∧
        SameDatapath s t ∧ SameControl { s with done := true } t ∧ SameWorld s t)

/-! Whole-machine rules. -/

/-- R91: the phase changes only along the listed transitions: an engine step takes an engine transition; another move
changes the phase only by starting a job from IDLE in the mode just written, or by reset. A job goes back to IDLE by an
error, or from the last phase of its mode by finishing. -/
def Obligations.PhaseChangesOnlyAsListed : Prop :=
  (∀ s t : State, engineStep s = .next t → engineTransition s.phase t.phase = true) ∧
  (∀ (s t : State) (m : HostMove), m ≠ .letEngineStep → hostStep m s = .next t → t.phase = s.phase ∨
    (m = .rst ∧ t.phase = .idle) ∨
    (s.phase = .idle ∧ (∃ v, m = .regWrite 4 0 v ∧ v.getLsbD 0 = true) ∧
      t.phase = (if t.mode = .encode then .eHdr else .dHdr))) ∧
  ∀ s t : State, engineStep s = .next t → s.phase ≠ .idle → t.phase = .idle →
    (t.err = true ∧ ∃ e : JobError, t.errcode = e.code) ∨ ((s.phase = .dTrail ∨ s.phase = .eTrail) ∧ t.done = true)

/-- R176: nothing but a START write makes the engine leave IDLE, and an idle engine changes nothing. -/
def Obligations.OnlyStartLeavesIdle : Prop :=
  (∀ s : State, s.phase = .idle → engineStep s = .next s) ∧
  (∀ s t : State, s.phase = .idle → step s = .next t → t.phase ≠ .idle →
    ∃ v rest, s.host = .regWrite 4 0 v :: rest ∧ v.getLsbD 0 = true)

/-- R152 and R164: a step that ends a job with an error sets ERR and one of the codes 1 to 10, goes idle, leaves DONE,
`px`, `out_pos`, the datapath, CTRL and the windows as they were, moves `in_pos` only for TRAILING_BYTES, changes WIDTH,
HEIGHT and FORMAT only in the header step, and changes no byte outside the output window. -/
def Obligations.ErrorsEndTheJobPrecisely : Prop :=
  ∀ s t : State, engineStep s = .next t → s.err = false → t.err = true →
    t.phase = .idle ∧ t.done = s.done ∧ (∃ e : JobError, t.errcode = e.code) ∧ t.px = s.px ∧ t.outPos = s.outPos ∧
    (t.inPos = s.inPos ∨ (t.errcode = 10 ∧ t.inPos = s.inPos + 8)) ∧
    (s.phase = .dHdr ∨ (t.width = s.width ∧ t.height = s.height ∧ t.channels = s.channels ∧
      t.colorspace = s.colorspace)) ∧
    SameSetup s t ∧ SameDatapath s t ∧ (∀ b, s.inOutputWindow b = false → t.mem.read b = s.mem.read b)

/-- R151: the codes of the ten errors. -/
def Obligations.ErrorCodesAreTheTable : Prop :=
  JobError.badMagic.code = 1 ∧ JobError.unsupportedChannels.code = 2 ∧ JobError.unsupportedColorspace.code = 3 ∧
  JobError.invalidDimensions.code = 4 ∧ JobError.dimensionOverflow.code = 5 ∧ JobError.truncatedStream.code = 6 ∧
  JobError.endMarkerMismatch.code = 7 ∧ JobError.outputOverflow.code = 8 ∧ JobError.invalidConfig.code = 9 ∧
  JobError.trailingBytes.code = 10

/-- R48: an engine step changes no byte outside the output window. -/
def Obligations.EngineWritesOnlyTheOutputWindow : Prop :=
  ∀ (s t : State) (b : Nat), Inv s → engineStep s = .next t → s.inOutputWindow b = false →
    t.mem.read b = s.mem.read b

/-- R48 and R93: an engine step depends on memory only through the input window: from two memories that agree there it
gives states that agree on everything but memory, and each byte is either left alone in both or the same in both. -/
def Obligations.EngineReadsOnlyTheInputWindow : Prop :=
  ∀ (s t : State) (m : Memory), Inv s → AgreeOnInput s s.mem m → engineStep s = .next t →
    ∃ t', engineStep { s with mem := m } = .next t' ∧ t' = { t with mem := t'.mem } ∧
      ∀ b, (t.mem.read b = s.mem.read b ∧ t'.mem.read b = m.read b) ∨ t.mem.read b = t'.mem.read b

/-- R95: what the registers hold after a successful job. -/
def Obligations.SuccessLeavesExactRegisters : Prop :=
  ∀ s t : State, Inv s → engineStep s = .next t → s.done = false → t.done = true →
    t.phase = .idle ∧ t.statusWord = 2 ∧ t.irq = s.irqEn ∧ t.width = s.width ∧ t.height = s.height ∧
    t.channels = s.channels ∧ t.colorspace = s.colorspace ∧ t.px.toNat = s.pixelCount ∧
    (s.mode = .decode → t.outPos.toNat = s.pixelCount * s.channels.toNat ∧ t.inPos.toNat = s.inPos.toNat + 8 ∧
      t.inPos.toNat ≤ s.inLen.toNat) ∧
    (s.mode = .encode → t.inPos.toNat = s.pixelCount * s.channels.toNat ∧ t.outPos.toNat = s.outPos.toNat + 8 ∧
      t.outPos.toNat ≤ s.outCap.toNat)

/-! The host's registers. -/

/-- R34: a register access that is not 32 bits wide or not aligned is refused; an access to the block that is both is
answered. -/
def Obligations.OnlyAlignedWordAccessesAreAnswered : Prop :=
  ∀ (s : State) (size off : Nat) (v : Word),
    (size ≠ 4 ∨ off % 4 ≠ 0 → hostStep (.regWrite size off v) s = .refused .undefinedRegisterAccess ∧
      hostStep (.regRead size off) s = .refused .undefinedRegisterAccess) ∧
    (size = 4 ∧ off % 4 = 0 ∧ off < 64 → (∃ t, hostStep (.regWrite size off v) s = .next t) ∧
      ∃ t, hostStep (.regRead size off) s = .next t)

/-- R84 with R22, R23, R26, R33 and R45: a read gives the register's fields, 0 for reserved bits and offsets, and a free
value for the six registers of R45 while BUSY; it changes no register and no memory. -/
def Obligations.ReadsGiveTheStoredFields : Prop :=
  ∀ (s : State) (off : Nat), off % 4 = 0 → off < 64 → ∃ t, hostStep (.regRead 4 off) s = .next t ∧
    (s.busy = true ∧ (off = 0x08 ∨ off = 0x0C ∨ off = 0x10 ∨ off = 0x24 ∨ off = 0x28 ∨ off = 0x2C) →
      t.hostWord = Config.freeWord s.draws ∧ t.draws = s.draws + 1) ∧
    (¬(s.busy = true ∧ (off = 0x08 ∨ off = 0x0C ∨ off = 0x10 ∨ off = 0x24 ∨ off = 0x28 ∨ off = 0x2C)) →
      t.draws = s.draws ∧ t.hostWord.toNat =
        if off = 0x00 then (if s.mode = .encode then 2 else 0) + (if s.irqEn then 4 else 0) + (if s.strictEnd then 8 else 0)
        else if off = 0x04 then (if s.phase = .idle then 0 else 1) + (if s.done then 2 else 0) + (if s.err then 4 else 0) +
          16 * s.errcode.toNat
        else if off = 0x08 then s.width.toNat
        else if off = 0x0C then s.height.toNat
        else if off = 0x10 then s.channels.toNat + 256 * s.colorspace.toNat
        else if off = 0x14 then s.inBase.toNat
        else if off = 0x18 then s.inLen.toNat
        else if off = 0x1C then s.outBase.toNat
        else if off = 0x20 then s.outCap.toNat
        else if off = 0x24 then s.outPos.toNat
        else if off = 0x28 then s.inPos.toNat
        else if off = 0x2C then s.px.toNat
        else 0) ∧
    SameControl s t ∧ SameCursors s t ∧ SameDatapath s t ∧ t.phase = s.phase ∧ t.mem = s.mem ∧ t.host = s.host

/-- R83 with R26 and R31 to R33: while idle a write sets the RW register at its offset and nothing else; read-only
registers, reserved offsets and reserved bits ignore it. CTRL and STATUS have statements of their own. -/
def Obligations.IdleWritesSetTheirRegister : Prop :=
  ∀ (s : State) (off : Nat) (v : Word), s.busy = false → off % 4 = 0 → 8 ≤ off → off < 64 →
    ∃ t, hostStep (.regWrite 4 off v) s = .next t ∧
      t.width = (if off = 0x08 then v else s.width) ∧ t.height = (if off = 0x0C then v else s.height) ∧
      t.channels.toNat = (if off = 0x10 then v.toNat % 256 else s.channels.toNat) ∧
      t.colorspace.toNat = (if off = 0x10 then v.toNat / 256 % 256 else s.colorspace.toNat) ∧
      t.inBase = (if off = 0x14 then v else s.inBase) ∧ t.inLen = (if off = 0x18 then v else s.inLen) ∧
      t.outBase = (if off = 0x1C then v else s.outBase) ∧ t.outCap = (if off = 0x20 then v else s.outCap) ∧
      t.mode = s.mode ∧ t.irqEn = s.irqEn ∧ t.strictEnd = s.strictEnd ∧ t.done = s.done ∧ t.err = s.err ∧
      t.errcode = s.errcode ∧ t.phase = s.phase ∧ SameCursors s t ∧ SameDatapath s t ∧ t.mem = s.mem ∧ SameWorld s t

/-- R85: writing 1 to DONE clears it, writing 1 to ERR clears it and ERRCODE, and nothing else changes. -/
def Obligations.StatusWritesClearFlags : Prop :=
  ∀ (s : State) (v : Word), s.busy = false → ∃ t, hostStep (.regWrite 4 4 v) s = .next t ∧
    t.done = (s.done && !v.getLsbD 1) ∧ t.err = (s.err && !v.getLsbD 2) ∧
    t.errcode = (if v.getLsbD 2 then 0 else s.errcode) ∧
    SameControl { s with done := t.done, err := t.err, errcode := t.errcode } t ∧ SameCursors s t ∧
    SameDatapath s t ∧ t.phase = s.phase ∧ t.mem = s.mem ∧ SameWorld s t

/-- R86 and R87: a CTRL write while idle sets MODE, IRQ_EN and STRICT_END; with START it begins a job in that mode:
flags and cursors 0, the cache cleared, `prev` (0,0,0,255), `run` 0. -/
def Obligations.CtrlWriteStartsAJob : Prop :=
  ∀ (s : State) (v : Word), s.busy = false → ∃ t, hostStep (.regWrite 4 0 v) s = .next t ∧
    t.mode = (if v.getLsbD 1 then .encode else .decode) ∧ t.irqEn = v.getLsbD 2 ∧ t.strictEnd = v.getLsbD 3 ∧
    (v.getLsbD 0 = false → t.done = s.done ∧ t.err = s.err ∧ t.errcode = s.errcode ∧ SameCursors s t ∧
      SameDatapath s t ∧ t.phase = s.phase) ∧
    (v.getLsbD 0 = true → t.done = false ∧ t.err = false ∧ t.errcode = 0 ∧ t.outPos = 0 ∧ t.inPos = 0 ∧ t.px = 0 ∧
      (∀ k (h : k < 64), t.cache[k] = ⟨0, 0, 0, 0⟩) ∧ t.prev = ⟨0, 0, 0, 255⟩ ∧ t.run = 0 ∧
      t.phase = (if v.getLsbD 1 then .eHdr else .dHdr) ∧ t.busy = true) ∧
    t.width = s.width ∧ t.height = s.height ∧ t.channels = s.channels ∧ t.colorspace = s.colorspace ∧
    t.inBase = s.inBase ∧ t.inLen = s.inLen ∧ t.outBase = s.outBase ∧ t.outCap = s.outCap ∧ t.mem = s.mem ∧
    SameWorld s t

/-- R88: while BUSY a write changes IRQ_EN, when it is to CTRL, and nothing else. -/
def Obligations.BusyWritesChangeOnlyTheIrqEnable : Prop :=
  ∀ (s : State) (off : Nat) (v : Word), s.busy = true → off % 4 = 0 → off < 64 →
    hostStep (.regWrite 4 off v) s = .next { s with irqEn := if off = 0 then v.getLsbD 2 else s.irqEn }

/-- R180: what a START leaves does not depend on earlier jobs: neither the flags, the cursors, `prev`, `run` and the
cache they left, nor the old CTRL bits matter. -/
def Obligations.StartForgetsEarlierJobs : Prop :=
  ∀ (s : State) (v : Word) (cache : Vector Pixel 64) (prev : Pixel) (run : BitVec 6) (outPos inPos px : Word)
    (done err : Bool) (errcode : BitVec 4) (mode : Mode) (irqEn strictEnd : Bool),
    s.phase = .idle → v.getLsbD 0 = true →
    hostStep (.regWrite 4 0 v) { s with
      cache := cache, prev := prev, run := run, outPos := outPos, inPos := inPos, px := px, done := done, err := err,
      errcode := errcode, mode := mode, irqEn := irqEn, strictEnd := strictEnd } = hostStep (.regWrite 4 0 v) s

/-- R167: the interrupt is the enable and a flag; masking keeps the flag and unmasking raises `irq` again; clearing the
flags, a new job and reset lower it; a running job can be enabled and masked; it drives the line the platform names. -/
def Obligations.InterruptFollowsEnableAndFlags : Prop :=
  ∀ s : State, (s.irq = true ↔ s.irqEn = true ∧ (s.done = true ∨ s.err = true)) ∧
    s.assertedLines = (if s.irq then [Config.pIrqLine] else []) ∧
    (s.busy = false → ∀ v : Word, v.getLsbD 0 = false → ∃ t, hostStep (.regWrite 4 0 v) s = .next t ∧
      t.done = s.done ∧ t.err = s.err ∧ t.irq = (v.getLsbD 2 && (s.done || s.err))) ∧
    (s.busy = false → ∀ v : Word, v.getLsbD 0 = true → ∃ t, hostStep (.regWrite 4 0 v) s = .next t ∧ t.irq = false) ∧
    (s.busy = false → ∃ t, hostStep (.regWrite 4 4 6) s = .next t ∧ t.irq = false) ∧
    (∃ t, hostStep .rst s = .next t ∧ t.irq = false) ∧
    (s.busy = true → ∀ v : Word, ∃ t, hostStep (.regWrite 4 0 v) s = .next t ∧ t.irqEn = v.getLsbD 2)

/-- The host's memory accesses. R60 gives the refused writes while BUSY and the free value of a read of the output window.
The rest is the model's choice, because R46 leaves the host's means of reaching memory outside the spec: that every other
host access stores and gives the byte (log entry 4; R61 needs it at the job boundary), the names of the refusals, and that
a write to a byte of both windows is named as one to the input window (log entry 7). -/
def Obligations.HostMemoryAccessesRespectTheWindows : Prop :=
  ∀ (s : State) (a : Word) (v : Byte),
    (s.busy = true → s.inInputWindow a.toNat = true →
      hostStep (.memWrite a v) s = .refused .hostWritesInputWindow) ∧
    (s.busy = true → s.inInputWindow a.toNat = false → s.inOutputWindow a.toNat = true →
      hostStep (.memWrite a v) s = .refused .hostWritesOutputWindow) ∧
    (s.busy = false ∨ (s.inInputWindow a.toNat = false ∧ s.inOutputWindow a.toNat = false) →
      ∃ t, hostStep (.memWrite a v) s = .next t ∧ StoresAt s t a.toNat [v] ∧ t = { s with mem := t.mem }) ∧
    (∃ t, hostStep (.memRead a) s = .next t ∧ t.mem = s.mem ∧ SameControl s t ∧ SameCursors s t ∧ SameDatapath s t ∧
      t.phase = s.phase ∧
      (s.busy = true ∧ s.inOutputWindow a.toNat = true →
        t.hostByte = Config.freeByte s.draws a.toNat ∧ t.draws = s.draws + 1) ∧
      (¬(s.busy = true ∧ s.inOutputWindow a.toNat = true) → t.hostByte = s.mem.read a.toNat ∧ t.draws = s.draws))

/-! Headlines. -/

/-- R92: every job ends. A decode job takes at most `1 + IN_LEN + N + 1 + 1` steps and an encode job at most
`1 + N + 1 + 1 + 1`, with N the product of the WIDTH and HEIGHT the job leaves. -/
def Obligations.EveryJobEndsWithinItsBound : Prop :=
  ∀ s : State, Inv s → s.host = [] →
    (s.phase = .dHdr → ∃ k t, runSteps k s = .next t ∧ t.phase = .idle ∧ (t.done = true ∨ t.err = true) ∧
      k ≤ 1 + s.inLen.toNat + t.pixelCount + 1 + 1) ∧
    (s.phase = .eHdr → ∃ k t, runSteps k s = .next t ∧ t.phase = .idle ∧ (t.done = true ∨ t.err = true) ∧
      k ≤ 1 + t.pixelCount + 1 + 1 + 1)

/-- R130: a successful encode writes at most `22 + N * (CHANNELS + 1)` bytes, so an OUT_CAP of that size rules out
OUTPUT_OVERFLOW. -/
def Obligations.EncodeOutputIsBounded : Prop :=
  ∀ (s t : State) (k : Nat), Inv s → s.host = [] → s.phase = .eHdr → runSteps k s = .next t →
    (t.succeeded → t.outPos.toNat ≤ 22 + s.pixelCount * (s.channels.toNat + 1)) ∧
    (22 + s.pixelCount * (s.channels.toNat + 1) ≤ s.outCap.toNat → ¬t.failedWith .outputOverflow)

/-- R182: with legal registers and buffers of the sizes the rule gives, an encode job ends with DONE. -/
def Obligations.EncodeWithRoomSucceeds : Prop :=
  ∀ s : State, Inv s → s.host = [] → s.phase = .eHdr → FormatOk s → s.rasterSize ≤ s.inLen.toNat →
    22 + s.pixelCount * (s.channels.toNat + 1) ≤ s.outCap.toNat →
    ∃ k t, runSteps k s = .next t ∧ t.succeeded

/-- R112, one pixel step at a time: where the encoder and a decoder hold the same cache and `prev`, executing the chunk
that a pixel step writes makes the decoder write that pixel and hold the encoder's new cache and `prev`; a pixel that
joins the run changes neither. -/
def Obligations.DecoderFollowsTheEncoder : Prop :=
  ∀ (s t : State) (p : Pixel), Inv s → s.phase = .eBody → s.px.toNat ≠ s.pixelCount →
    p = inputPixel s s.px.toNat → engineStep s = .next t → t.phase = .eBody →
    (p = s.prev ∧ s.run.toNat < 62 → t.cache = s.cache ∧ t.prev = s.prev) ∧
    (¬(p = s.prev ∧ s.run.toNat < 62) → ∀ d : State, d.cache = s.cache → d.prev = s.prev → OutPixelFits d →
      ∃ d', exec (mux p s.prev (s.lookup (hash p)) (hash p)).1 d = .next d' ∧ WritesPixel d d' p ∧
        d'.cache = t.cache ∧ d'.prev = t.prev)

/-- R149: the round trip. Decoding the bytes a successful encode job wrote, into an output window that can hold the
raster, succeeds, gives back WIDTH, HEIGHT and FORMAT, and writes the encoder's raster byte for byte. -/
def Obligations.RoundTripRestoresTheRaster : Prop :=
  ∀ (e e' d : State) (k : Nat), Inv e → e.host = [] → e.phase = .eHdr → runSteps k e = .next e' → e'.succeeded →
    Inv d → d.host = [] → d.phase = .dHdr → WindowsFit d → d.inLen = e'.outPos →
    (∀ j, j < e'.outPos.toNat → d.mem.read (d.inBase.toNat + j) = e'.mem.read (e.outBase.toNat + j)) →
    e.rasterSize ≤ d.outCap.toNat →
    ∃ m d', runSteps m d = .next d' ∧ d'.succeeded ∧ d'.width = e.width ∧ d'.height = e.height ∧
      d'.channels = e.channels ∧ d'.colorspace = e.colorspace ∧
      ∀ j, j < e.rasterSize → d'.mem.read (d.outBase.toNat + j) = e.mem.read (e.inBase.toNat + j)

/-- R131: a uniform image of `N` pixels other than (0,0,0,255) takes one chunk of 1 to 5 bytes, two bytes for each 63
pixels after the first, and one byte for what is left of the run. -/
def Obligations.UniformImagesCompressToRuns : Prop :=
  ∀ (s : State) (c : Pixel), Inv s → s.host = [] → s.phase = .eHdr → FormatOk s → s.rasterSize ≤ s.inLen.toNat →
    22 + s.pixelCount * (s.channels.toNat + 1) ≤ s.outCap.toNat → c ≠ ⟨0, 0, 0, 255⟩ →
    (∀ i, i < s.pixelCount → inputPixel s i = c) →
    ∃ k t len0, runSteps k s = .next t ∧ t.succeeded ∧ 1 ≤ len0 ∧ len0 ≤ 5 ∧
      t.outPos.toNat = 14 + len0 + 2 * ((s.pixelCount - 1) / 63) + (if (s.pixelCount - 1) % 63 > 0 then 1 else 0) + 8
end

