-- ==== Sys2Proof/Laws/Decode.lean ====
section
/-! SUPPORT. Small facts of the decoder and the encoder: field bounds, lengths, and what a chunk's meaning reads. -/

namespace Sys2Proof

theorem bits_lt (v : Byte) (hi lo : Nat) : bits v hi lo < 2 ^ (hi - lo + 1) := Nat.mod_lt _ (by positivity)

theorem chunkLen_pos (b0 : Byte) : 1 ≤ chunkLen b0 := by unfold chunkLen; split_ifs <;> omega

theorem chunkLen_le (b0 : Byte) : chunkLen b0 ≤ maxChunkLen := by unfold chunkLen maxChunkLen; split_ifs <;> omega

/-- Every chunk is 1, 2, 4 or 5 bytes long (R67). -/
theorem chunkLen_cases (b0 : Byte) : chunkLen b0 = 1 ∨ chunkLen b0 = 2 ∨ chunkLen b0 = 4 ∨ chunkLen b0 = 5 := by
  unfold chunkLen; split_ifs <;> simp

theorem decode_of_le {b0 : Byte} {rest : List Byte} (h : chunkLen b0 ≤ rest.length + 1) :
    decode (b0 :: rest) = .ok (decodeChunk b0 rest, rest.drop (chunkLen b0 - 1)) := by
  simp [decode, Nat.not_lt.mpr h]

/-- What a successful decode says of the bytes. -/
theorem decode_ok {bs rest : List Byte} {i : Instr} (h : decode bs = .ok (i, rest)) :
    ∃ b0 more, bs = b0 :: more ∧ chunkLen b0 ≤ more.length + 1 ∧ i = decodeChunk b0 more ∧
      rest = more.drop (chunkLen b0 - 1) := by
  cases bs with
  | nil => simp [decode] at h
  | cons b0 more =>
    by_cases hl : more.length + 1 < chunkLen b0
    · simp [decode, hl] at h
    · rw [decode_of_le (by omega)] at h
      simp only [Except.ok.injEq, Prod.mk.injEq] at h
      exact ⟨b0, more, rfl, by omega, h.1.symm, h.2.symm⟩

theorem byteAt_take {rest : List Byte} {k n : Nat} (h : k < n) : byteAt (rest.take n) k = byteAt rest k := by
  simp [byteAt, List.getD_eq_getElem?_getD, h]

/-- A chunk's meaning reads no byte past its length (R75). -/
theorem decodeChunk_take (b0 : Byte) (rest : List Byte) :
    decodeChunk b0 (rest.take (chunkLen b0 - 1)) = decodeChunk b0 rest := by
  unfold decodeChunk chunkLen
  split_ifs <;> simp_all [byteAt_take, tagRgb, tagRgba, tagLuma, tagIndex, tagDiff]

/-- The bytes of a chunk number what its first byte says. -/
theorem taggedByte_toNat {tag field : Nat} (ht : tag < 4) (hf : field < 64) :
    (taggedByte tag field).toNat = tag * 64 + field := by
  unfold taggedByte
  rw [BitVec.toNat_ofNat, Nat.mod_eq_of_lt (by omega)]

/-- A RUN chunk counts 1 to 62 pixels (R71, R77). -/
theorem decodeChunk_run {b0 : Byte} {rest : List Byte} {c : Nat} (h : decodeChunk b0 rest = .run c) : 1 ≤ c ∧ c ≤ 62 := by
  unfold decodeChunk at h
  split_ifs at h with h1 h2 h3 h4 h5
  have h6 := bits_lt b0 7 6
  have n1 : b0.toNat ≠ 0xFE := fun e => h1 (BitVec.eq_of_toNat_eq e)
  have n2 : b0.toNat ≠ 0xFF := fun e => h2 (BitVec.eq_of_toNat_eq e)
  have := b0.isLt
  cases h
  simp only [bits, tagIndex, tagDiff, tagLuma] at *
  omega

theorem biased_lt {x bias : Int} {n : Nat} (hn : 0 < n) (h : x + bias < n) : biased x bias < n := by
  unfold biased; omega

theorem lowBytes_length (n w : Nat) : (lowBytes n w).length = n := by
  induction n generalizing w with
  | zero => rfl
  | succ n ih => simp [lowBytes, ih]

end Sys2Proof
end

