-- ==== Sys2Proof/Laws/Memory.lean ====
section
/-! SUPPORT. The laws of the memory space: what a read gives after each operation, and that every operation keeps the
canonical form. -/

namespace Sys2Proof.Machine

/-! What the listed bytes read as. -/

theorem cellRead_erase (a b : Nat) (cells : List Host.Cell) :
    cellRead (cellErase a cells) b = if b = a then unwrittenByte else cellRead cells b := by
  induction cells with
  | nil => simp [cellErase, cellRead]
  | cons c rest ih =>
    obtain ⟨k, v⟩ := c
    unfold cellErase at ih ⊢
    by_cases hk : k = a
    · subst hk
      simp only [List.filter_cons, ne_eq, not_true_eq_false, decide_false, Bool.false_eq_true, if_false, ih, cellRead]
      split <;> simp_all [eq_comm]
    · simp only [List.filter_cons, ne_eq, hk, not_false_eq_true, decide_true, if_true, cellRead, ih]
      by_cases hb : k = b
      · subst hb; simp [hk]
      · simp [hb]

theorem cellRead_insert (a b : Nat) (v : Byte) (cells : List Host.Cell) (h : ∀ c ∈ cells, c.1 ≠ a) :
    cellRead (cellInsert a v cells) b = if b = a then v else cellRead cells b := by
  induction cells with
  | nil => simp [cellInsert, cellRead, eq_comm]
  | cons c rest ih =>
    obtain ⟨k, w⟩ := c
    have hk : k ≠ a := h (k, w) (by simp)
    have ih := ih fun c hc => h c (by simp [hc])
    unfold cellInsert
    split
    · simp [cellRead, eq_comm]
    · simp only [cellRead, ih]
      by_cases hb : k = b
      · subst hb; simp [hk]
      · simp [hb]

theorem mem_cellErase {a : Nat} {cells : List Host.Cell} {c : Host.Cell} :
    c ∈ cellErase a cells ↔ c ∈ cells ∧ c.1 ≠ a := by
  simp [cellErase]

theorem cellRead_write (a b : Nat) (v : Byte) (cells : List Host.Cell) :
    cellRead (cellWrite a v cells) b = if b = a then v else cellRead cells b := by
  unfold cellWrite
  split
  · next hv => rw [cellRead_erase, hv]
  · rw [cellRead_insert _ _ _ _ fun c hc => (mem_cellErase.mp hc).2, cellRead_erase]
    by_cases hb : b = a <;> simp [hb]

theorem cellRead_filter (p : Nat → Bool) (cells : List Host.Cell) (b : Nat) (hb : p b = true) :
    cellRead (cells.filter fun c => p c.1) b = cellRead cells b := by
  induction cells with
  | nil => rfl
  | cons c rest ih =>
    obtain ⟨k, v⟩ := c
    by_cases hk : p k = true
    · simp [hk, cellRead, ih]
    · have : k ≠ b := fun h => hk (h ▸ hb)
      simp [hk, cellRead, this, ih]

/-! Which bytes are unspecified. -/

theorem spanDraw_append (xs ys : List Span) (b : Nat) :
    spanDraw (xs ++ ys) b = (spanDraw xs b).or (spanDraw ys b) := by
  induction xs with
  | nil => simp [spanDraw]
  | cons x rest ih =>
    simp only [List.cons_append, spanDraw, ih]
    split <;> simp

theorem spanDraw_spanOrNone (lo hi d b : Nat) :
    spanDraw (spanOrNone lo hi d) b = if lo ≤ b ∧ b < hi then some d else none := by
  unfold spanOrNone
  by_cases h : lo < hi
  · simp [h, spanDraw, Span.covers]
  · have : ¬(lo ≤ b ∧ b < hi) := by omega
    simp [h, spanDraw, this]

theorem spanDraw_outside (lo hi : Nat) (sp : Span) (b : Nat) :
    spanDraw (sp.outside lo hi) b = if sp.covers b ∧ ¬(lo ≤ b ∧ b < hi) then some sp.draw else none := by
  unfold Span.outside
  rw [spanDraw_append, spanDraw_spanOrNone, spanDraw_spanOrNone]
  simp only [Span.covers, Bool.and_eq_true, decide_eq_true_eq]
  by_cases h : (sp.lo ≤ b ∧ b < sp.hi) ∧ ¬(lo ≤ b ∧ b < hi)
  · rw [if_pos h]
    by_cases h1 : sp.lo ≤ b ∧ b < min sp.hi lo
    · rw [if_pos h1]; rfl
    · rw [if_neg h1, if_pos (by omega)]; rfl
  · rw [if_neg h, if_neg (by omega), if_neg (by omega)]; rfl

theorem spanDraw_cut (lo hi : Nat) (spans : List Span) (b : Nat) :
    spanDraw (spanCut lo hi spans) b = if lo ≤ b ∧ b < hi then none else spanDraw spans b := by
  induction spans with
  | nil => simp [spanCut, spanDraw]
  | cons sp rest ih =>
    have e : spanCut lo hi (sp :: rest) = sp.outside lo hi ++ spanCut lo hi rest := by simp [spanCut]
    rw [e, spanDraw_append, spanDraw_outside, ih]
    by_cases hb : lo ≤ b ∧ b < hi
    · simp [hb]
    · by_cases hc : sp.covers b = true <;> simp [hb, hc, spanDraw]

theorem spanDraw_insert (sp : Span) (spans : List Span) (b : Nat)
    (h : sp.covers b = true → spanDraw spans b = none) :
    spanDraw (spanInsert sp spans) b = if sp.covers b then some sp.draw else spanDraw spans b := by
  induction spans with
  | nil => rfl
  | cons x rest ih =>
    unfold spanInsert
    split
    · rfl
    · by_cases hx : x.covers b = true
      · have hs : ¬sp.covers b = true := fun hc => by simpa [spanDraw, hx] using h hc
        simp [spanDraw, hx, hs]
      · rw [spanDraw, if_neg hx, ih fun hc => by simpa [spanDraw, hx] using h hc, spanDraw, if_neg hx]

/-! What a read gives after each operation. -/

/-- A read after a write: the value at the address written, the old byte everywhere else. -/
theorem Memory.read_write (m : Memory) (a b : Nat) (v : Byte) :
    (m.write a v).read b = if b = a then v else m.read b := by
  have hs : spanDraw (m.write a v).spans b = if b = a then none else spanDraw m.spans b := by
    show spanDraw (spanCut a (a + 1) m.spans) b = _
    rw [spanDraw_cut]
    by_cases hb : b = a
    · simp [hb]
    · rw [if_neg (by omega), if_neg hb]
  have hc : cellRead (m.write a v).cells b = if b = a then v else cellRead m.cells b := cellRead_write a b v m.cells
  unfold Memory.read
  rw [hs, hc]
  by_cases hb : b = a <;> simp [hb]

@[simp] theorem Memory.read_write_same (m : Memory) (a : Nat) (v : Byte) : (m.write a v).read a = v := by
  simp [Memory.read_write]

theorem Memory.read_write_ne (m : Memory) {a b : Nat} (v : Byte) (h : b ≠ a) : (m.write a v).read b = m.read b := by
  simp [Memory.read_write, h]

/-- A read outside the bytes a list write stores gives what it gave before. -/
theorem Memory.read_writeList_outside (bs : List Byte) :
    ∀ (m : Memory) (a b : Nat), b < a ∨ a + bs.length ≤ b → (m.writeList a bs).read b = m.read b := by
  induction bs with
  | nil => intros; rfl
  | cons v rest ih =>
    intro m a b h
    simp only [List.length_cons] at h
    rw [Memory.writeList, ih _ _ _ (by omega), Memory.read_write_ne _ _ (by omega)]

/-- A read inside the bytes a list write stores gives the byte stored there. -/
theorem Memory.read_writeList_inside (bs : List Byte) :
    ∀ (m : Memory) (a j : Nat) (h : j < bs.length), (m.writeList a bs).read (a + j) = bs[j] := by
  induction bs with
  | nil => intro _ _ j h; simp at h
  | cons v rest ih =>
    intro m a j h
    rw [Memory.writeList]
    cases j with
    | zero => rw [Memory.read_writeList_outside _ _ _ _ (by omega)]; simp
    | succ j =>
      rw [show a + (j + 1) = a + 1 + j by omega, ih _ _ _ (by simpa using h)]
      simp

/-- Bytes made unspecified read as their free draw; every other byte reads as before. -/
theorem Memory.read_forget (lo hi draw : Nat) (m : Memory) (b : Nat) :
    (m.forget lo hi draw).read b = if lo ≤ b ∧ b < hi then Config.freeByte draw b else m.read b := by
  unfold Memory.forget
  by_cases h : lo < hi
  · rw [if_pos h]
    unfold Memory.read
    simp only
    rw [spanDraw_insert _ _ _ fun hc => by
      rw [spanDraw_cut, if_pos (by simpa [Span.covers] using hc)], spanDraw_cut]
    by_cases hb : lo ≤ b ∧ b < hi
    · simp [Span.covers, hb]
    · have hp : (decide (b < lo) || decide (hi ≤ b)) = true := by simp; omega
      have hf := cellRead_filter (fun a => decide (a < lo) || decide (hi ≤ a)) m.cells b hp
      have hcov : ¬(Span.covers ⟨lo, hi, draw⟩ b = true) := by simpa [Span.covers] using hb
      simp only [if_neg hcov, if_neg hb, hf]
  · rw [if_neg h, if_neg (by omega)]

@[simp] theorem Memory.readList_length (m : Memory) (n : Nat) : ∀ a, (m.readList a n).length = n := by
  induction n with
  | zero => intro a; rfl
  | succ n ih => intro a; simp [Memory.readList, ih]

theorem Memory.readList_getElem (m : Memory) (n : Nat) :
    ∀ (a j : Nat) (h : j < (m.readList a n).length), (m.readList a n)[j] = m.read (a + j) := by
  induction n with
  | zero => intro a j h; simp [Memory.readList] at h
  | succ n ih =>
    intro a j h
    cases j with
    | zero => rfl
    | succ j =>
      simp only [Memory.readList, List.getElem_cons_succ]
      rw [ih]; congr 1; omega

/-- Two memories that agree on the bytes read give the same list. -/
theorem Memory.readList_congr (m m' : Memory) (n : Nat) :
    ∀ a, (∀ b, a ≤ b → b < a + n → m.read b = m'.read b) → m.readList a n = m'.readList a n := by
  induction n with
  | zero => intros; rfl
  | succ n ih =>
    intro a h
    simp only [Memory.readList]
    rw [h a (by omega) (by omega), ih (a + 1) fun b h1 h2 => h b (by omega) (by omega)]

theorem Memory.readList_append (m : Memory) (n k : Nat) :
    ∀ a, m.readList a (n + k) = m.readList a n ++ m.readList (a + n) k := by
  induction n with
  | zero => intro a; simp [Memory.readList]
  | succ n ih =>
    intro a
    rw [show n + 1 + k = (n + k) + 1 by omega, Memory.readList, ih, Memory.readList]
    simp [show a + 1 + n = a + (n + 1) by omega]

/-! Every operation keeps the canonical form. -/

theorem mem_cellInsert {a : Nat} {v : Byte} {cells : List Host.Cell} {c : Host.Cell} :
    c ∈ cellInsert a v cells ↔ c = (a, v) ∨ c ∈ cells := by
  induction cells with
  | nil => simp [cellInsert]
  | cons x rest ih =>
    unfold cellInsert
    split
    · simp
    · simp only [List.mem_cons, ih]; tauto

theorem mem_spanInsert {sp x : Span} {spans : List Span} : x ∈ spanInsert sp spans ↔ x = sp ∨ x ∈ spans := by
  induction spans with
  | nil => simp [spanInsert]
  | cons y rest ih =>
    unfold spanInsert
    split
    · simp
    · simp only [List.mem_cons, ih]; tauto

theorem cellInsert_sorted {a : Nat} {v : Byte} {cells : List Host.Cell}
    (h : cells.Pairwise fun x y => x.1 < y.1) (hne : ∀ c ∈ cells, c.1 ≠ a) :
    (cellInsert a v cells).Pairwise fun x y => x.1 < y.1 := by
  induction cells with
  | nil => simp [cellInsert]
  | cons x rest ih =>
    obtain ⟨hx, hrest⟩ := List.pairwise_cons.mp h
    have hxa : x.1 ≠ a := hne x (by simp)
    unfold cellInsert
    split
    · next hlt =>
      refine List.pairwise_cons.mpr ⟨fun c hc => ?_, h⟩
      rcases List.mem_cons.mp hc with rfl | hc
      · exact hlt
      · have := hx c hc; show a < c.1; omega
    · next hlt =>
      refine List.pairwise_cons.mpr ⟨fun c hc => ?_, ih hrest fun c hc => hne c (by simp [hc])⟩
      rcases mem_cellInsert.mp hc with rfl | hc
      · show x.1 < a; omega
      · exact hx c hc

theorem cellsWf_erase {a : Nat} {cells : List Host.Cell} (h : cellsWf cells) : cellsWf (cellErase a cells) :=
  ⟨h.1.filter _, fun c hc => h.2 c (mem_cellErase.mp hc).1⟩

theorem cellsWf_write {a : Nat} {v : Byte} {cells : List Host.Cell} (h : cellsWf cells) (ha : a < memSize) :
    cellsWf (cellWrite a v cells) := by
  unfold cellWrite
  split
  · exact cellsWf_erase h
  · next hv =>
    refine ⟨cellInsert_sorted (cellsWf_erase h).1 fun c hc => (mem_cellErase.mp hc).2, fun c hc => ?_⟩
    rcases mem_cellInsert.mp hc with rfl | hc
    · exact ⟨ha, hv⟩
    · exact (cellsWf_erase h).2 c hc

theorem mem_outside {lo hi : Nat} {sp x : Span} (h : x ∈ sp.outside lo hi) :
    x.lo < x.hi ∧ sp.lo ≤ x.lo ∧ x.hi ≤ sp.hi ∧ (x.hi ≤ lo ∨ hi ≤ x.lo) := by
  simp only [Span.outside, spanOrNone, List.mem_append] at h
  rcases h with h | h <;> split at h <;> simp at h <;> subst h <;> simp <;> omega

theorem outside_sorted {lo hi : Nat} (hlh : lo ≤ hi) (sp : Span) :
    (sp.outside lo hi).Pairwise fun x y => x.hi ≤ y.lo := by
  unfold Span.outside spanOrNone
  split <;> split <;> simp
  omega

theorem mem_spanCut {lo hi : Nat} {spans : List Span} {x : Span} (h : x ∈ spanCut lo hi spans) :
    ∃ sp ∈ spans, x ∈ sp.outside lo hi := by simpa [spanCut] using h

theorem spansWf_cut {lo hi : Nat} (hlh : lo ≤ hi) {spans : List Span} (h : spansWf spans) :
    spansWf (spanCut lo hi spans) := by
  refine ⟨?_, fun x hx => ?_⟩
  · induction spans with
    | nil => simp [spanCut]
    | cons sp rest ih =>
      obtain ⟨hsp, hrest⟩ := List.pairwise_cons.mp h.1
      have e : spanCut lo hi (sp :: rest) = sp.outside lo hi ++ spanCut lo hi rest := by simp [spanCut]
      rw [e, List.pairwise_append]
      refine ⟨outside_sorted hlh sp, ih ⟨hrest, fun x hx => h.2 x (by simp [hx])⟩, fun x hx y hy => ?_⟩
      obtain ⟨z, hz, hyz⟩ := mem_spanCut hy
      have := mem_outside hx
      have := mem_outside hyz
      have := hsp z hz
      omega
  · obtain ⟨sp, hsp, hx⟩ := mem_spanCut hx
    have := mem_outside hx
    have := h.2 sp hsp
    omega

theorem spansWf_insert {sp : Span} {spans : List Span} (h : spansWf spans)
    (hsp : sp.lo < sp.hi ∧ sp.hi ≤ memSize) (hout : ∀ x ∈ spans, x.hi ≤ sp.lo ∨ sp.hi ≤ x.lo) :
    spansWf (spanInsert sp spans) := by
  refine ⟨?_, fun x hx => ?_⟩
  · induction spans with
    | nil => simp [spanInsert]
    | cons x rest ih =>
      obtain ⟨hx, hrest⟩ := List.pairwise_cons.mp h.1
      have hxw := h.2 x (by simp)
      have hxo := hout x (by simp)
      unfold spanInsert
      split
      · next hlt =>
        refine List.pairwise_cons.mpr ⟨fun y hy => ?_, h.1⟩
        rcases List.mem_cons.mp hy with rfl | hy
        · omega
        · have := hx y hy; omega
      · next hlt =>
        refine List.pairwise_cons.mpr ⟨fun y hy => ?_, ih ⟨hrest, fun y hy => h.2 y (by simp [hy])⟩
          fun y hy => hout y (by simp [hy])⟩
        rcases mem_spanInsert.mp hy with rfl | hy
        · omega
        · exact hx y hy
  · rcases mem_spanInsert.mp hx with rfl | hx
    · exact hsp
    · exact h.2 x hx

theorem Memory.wf_empty : Memory.empty.wf := by decide

/-- Storing a byte inside the memory space keeps the canonical form. -/
theorem Memory.wf_write {m : Memory} (h : m.wf) {a : Nat} (ha : a < memSize) (v : Byte) : (m.write a v).wf := by
  refine ⟨cellsWf_write h.1 ha, spansWf_cut (by omega) h.2.1, fun c hc => ?_⟩
  have hc' : c.1 = a ∨ c ∈ m.cells := by
    simp only [Memory.write, cellWrite] at hc
    split at hc
    · exact .inr (mem_cellErase.mp hc).1
    · rcases mem_cellInsert.mp hc with rfl | hc
      · exact .inl rfl
      · exact .inr (mem_cellErase.mp hc).1
  show spanDraw (spanCut a (a + 1) m.spans) c.1 = none
  rw [spanDraw_cut]
  split
  · rfl
  · rcases hc' with h1 | h1
    · omega
    · exact h.2.2 c h1

/-- Storing bytes inside the memory space keeps the canonical form. -/
theorem Memory.wf_writeList (bs : List Byte) :
    ∀ {m : Memory} {a : Nat}, m.wf → a + bs.length ≤ memSize → (m.writeList a bs).wf := by
  induction bs with
  | nil => intro m a h _; exact h
  | cons v rest ih =>
    intro m a h hl
    simp only [List.length_cons] at hl
    exact ih (Memory.wf_write h (by omega) v) (by omega)

/-- Making bytes inside the memory space unspecified keeps the canonical form. -/
theorem Memory.wf_forget {m : Memory} (h : m.wf) {lo hi : Nat} (hhi : hi ≤ memSize) (draw : Nat) :
    (m.forget lo hi draw).wf := by
  unfold Memory.forget
  split
  · next hlt =>
    refine ⟨⟨h.1.1.filter _, fun c hc => h.1.2 c (List.mem_of_mem_filter hc)⟩,
      spansWf_insert (spansWf_cut (by omega) h.2.1) ⟨hlt, hhi⟩ fun x hx => ?_, fun c hc => ?_⟩
    · obtain ⟨sp, _, hx⟩ := mem_spanCut hx
      exact (mem_outside hx).2.2.2
    · have hc' := List.mem_filter.mp hc
      have hout : ¬(lo ≤ c.1 ∧ c.1 < hi) := by
        have := hc'.2
        simp only [Bool.or_eq_true, decide_eq_true_eq] at this
        omega
      show spanDraw (spanInsert ⟨lo, hi, draw⟩ (spanCut lo hi m.spans)) c.1 = none
      have hcov : ¬(Span.covers ⟨lo, hi, draw⟩ c.1 = true) := by simpa [Span.covers] using hout
      rw [spanDraw_insert _ _ _ fun hcc => absurd hcc hcov, if_neg hcov, spanDraw_cut, if_neg hout]
      exact h.2.2 c hc'.1
  · exact h

end Sys2Proof.Machine
end

