-- ==== Sys2Proof/Laws/State.lean ====
section
/-! SUPPORT. One lemma per field per named update of State, each true by rfl. -/

namespace Sys2Proof.Machine

/-! State.setDone -/

@[simp] theorem State.setDone_mode (s : State) : s.setDone.mode = s.mode := rfl
@[simp] theorem State.setDone_irqEn (s : State) : s.setDone.irqEn = s.irqEn := rfl
@[simp] theorem State.setDone_strictEnd (s : State) : s.setDone.strictEnd = s.strictEnd := rfl
@[simp] theorem State.setDone_done (s : State) : s.setDone.done = true := rfl
@[simp] theorem State.setDone_err (s : State) : s.setDone.err = s.err := rfl
@[simp] theorem State.setDone_errcode (s : State) : s.setDone.errcode = s.errcode := rfl
@[simp] theorem State.setDone_width (s : State) : s.setDone.width = s.width := rfl
@[simp] theorem State.setDone_height (s : State) : s.setDone.height = s.height := rfl
@[simp] theorem State.setDone_channels (s : State) : s.setDone.channels = s.channels := rfl
@[simp] theorem State.setDone_colorspace (s : State) : s.setDone.colorspace = s.colorspace := rfl
@[simp] theorem State.setDone_inBase (s : State) : s.setDone.inBase = s.inBase := rfl
@[simp] theorem State.setDone_inLen (s : State) : s.setDone.inLen = s.inLen := rfl
@[simp] theorem State.setDone_outBase (s : State) : s.setDone.outBase = s.outBase := rfl
@[simp] theorem State.setDone_outCap (s : State) : s.setDone.outCap = s.outCap := rfl
@[simp] theorem State.setDone_outPos (s : State) : s.setDone.outPos = s.outPos := rfl
@[simp] theorem State.setDone_inPos (s : State) : s.setDone.inPos = s.inPos := rfl
@[simp] theorem State.setDone_px (s : State) : s.setDone.px = s.px := rfl
@[simp] theorem State.setDone_phase (s : State) : s.setDone.phase = s.phase := rfl
@[simp] theorem State.setDone_cache (s : State) : s.setDone.cache = s.cache := rfl
@[simp] theorem State.setDone_prev (s : State) : s.setDone.prev = s.prev := rfl
@[simp] theorem State.setDone_run (s : State) : s.setDone.run = s.run := rfl
@[simp] theorem State.setDone_mem (s : State) : s.setDone.mem = s.mem := rfl
@[simp] theorem State.setDone_host (s : State) : s.setDone.host = s.host := rfl
@[simp] theorem State.setDone_hostWord (s : State) : s.setDone.hostWord = s.hostWord := rfl
@[simp] theorem State.setDone_hostByte (s : State) : s.setDone.hostByte = s.hostByte := rfl
@[simp] theorem State.setDone_draws (s : State) : s.setDone.draws = s.draws := rfl

/-! State.setErr -/

@[simp] theorem State.setErr_mode (e : JobError) (s : State) : (s.setErr e).mode = s.mode := rfl
@[simp] theorem State.setErr_irqEn (e : JobError) (s : State) : (s.setErr e).irqEn = s.irqEn := rfl
@[simp] theorem State.setErr_strictEnd (e : JobError) (s : State) : (s.setErr e).strictEnd = s.strictEnd := rfl
@[simp] theorem State.setErr_done (e : JobError) (s : State) : (s.setErr e).done = s.done := rfl
@[simp] theorem State.setErr_err (e : JobError) (s : State) : (s.setErr e).err = true := rfl
@[simp] theorem State.setErr_errcode (e : JobError) (s : State) : (s.setErr e).errcode = e.code := rfl
@[simp] theorem State.setErr_width (e : JobError) (s : State) : (s.setErr e).width = s.width := rfl
@[simp] theorem State.setErr_height (e : JobError) (s : State) : (s.setErr e).height = s.height := rfl
@[simp] theorem State.setErr_channels (e : JobError) (s : State) : (s.setErr e).channels = s.channels := rfl
@[simp] theorem State.setErr_colorspace (e : JobError) (s : State) : (s.setErr e).colorspace = s.colorspace := rfl
@[simp] theorem State.setErr_inBase (e : JobError) (s : State) : (s.setErr e).inBase = s.inBase := rfl
@[simp] theorem State.setErr_inLen (e : JobError) (s : State) : (s.setErr e).inLen = s.inLen := rfl
@[simp] theorem State.setErr_outBase (e : JobError) (s : State) : (s.setErr e).outBase = s.outBase := rfl
@[simp] theorem State.setErr_outCap (e : JobError) (s : State) : (s.setErr e).outCap = s.outCap := rfl
@[simp] theorem State.setErr_outPos (e : JobError) (s : State) : (s.setErr e).outPos = s.outPos := rfl
@[simp] theorem State.setErr_inPos (e : JobError) (s : State) : (s.setErr e).inPos = s.inPos := rfl
@[simp] theorem State.setErr_px (e : JobError) (s : State) : (s.setErr e).px = s.px := rfl
@[simp] theorem State.setErr_phase (e : JobError) (s : State) : (s.setErr e).phase = s.phase := rfl
@[simp] theorem State.setErr_cache (e : JobError) (s : State) : (s.setErr e).cache = s.cache := rfl
@[simp] theorem State.setErr_prev (e : JobError) (s : State) : (s.setErr e).prev = s.prev := rfl
@[simp] theorem State.setErr_run (e : JobError) (s : State) : (s.setErr e).run = s.run := rfl
@[simp] theorem State.setErr_mem (e : JobError) (s : State) : (s.setErr e).mem = s.mem := rfl
@[simp] theorem State.setErr_host (e : JobError) (s : State) : (s.setErr e).host = s.host := rfl
@[simp] theorem State.setErr_hostWord (e : JobError) (s : State) : (s.setErr e).hostWord = s.hostWord := rfl
@[simp] theorem State.setErr_hostByte (e : JobError) (s : State) : (s.setErr e).hostByte = s.hostByte := rfl
@[simp] theorem State.setErr_draws (e : JobError) (s : State) : (s.setErr e).draws = s.draws := rfl

/-! State.clearFlags -/

@[simp] theorem State.clearFlags_mode (s : State) : s.clearFlags.mode = s.mode := rfl
@[simp] theorem State.clearFlags_irqEn (s : State) : s.clearFlags.irqEn = s.irqEn := rfl
@[simp] theorem State.clearFlags_strictEnd (s : State) : s.clearFlags.strictEnd = s.strictEnd := rfl
@[simp] theorem State.clearFlags_done (s : State) : s.clearFlags.done = false := rfl
@[simp] theorem State.clearFlags_err (s : State) : s.clearFlags.err = false := rfl
@[simp] theorem State.clearFlags_errcode (s : State) : s.clearFlags.errcode = 0 := rfl
@[simp] theorem State.clearFlags_width (s : State) : s.clearFlags.width = s.width := rfl
@[simp] theorem State.clearFlags_height (s : State) : s.clearFlags.height = s.height := rfl
@[simp] theorem State.clearFlags_channels (s : State) : s.clearFlags.channels = s.channels := rfl
@[simp] theorem State.clearFlags_colorspace (s : State) : s.clearFlags.colorspace = s.colorspace := rfl
@[simp] theorem State.clearFlags_inBase (s : State) : s.clearFlags.inBase = s.inBase := rfl
@[simp] theorem State.clearFlags_inLen (s : State) : s.clearFlags.inLen = s.inLen := rfl
@[simp] theorem State.clearFlags_outBase (s : State) : s.clearFlags.outBase = s.outBase := rfl
@[simp] theorem State.clearFlags_outCap (s : State) : s.clearFlags.outCap = s.outCap := rfl
@[simp] theorem State.clearFlags_outPos (s : State) : s.clearFlags.outPos = s.outPos := rfl
@[simp] theorem State.clearFlags_inPos (s : State) : s.clearFlags.inPos = s.inPos := rfl
@[simp] theorem State.clearFlags_px (s : State) : s.clearFlags.px = s.px := rfl
@[simp] theorem State.clearFlags_phase (s : State) : s.clearFlags.phase = s.phase := rfl
@[simp] theorem State.clearFlags_cache (s : State) : s.clearFlags.cache = s.cache := rfl
@[simp] theorem State.clearFlags_prev (s : State) : s.clearFlags.prev = s.prev := rfl
@[simp] theorem State.clearFlags_run (s : State) : s.clearFlags.run = s.run := rfl
@[simp] theorem State.clearFlags_mem (s : State) : s.clearFlags.mem = s.mem := rfl
@[simp] theorem State.clearFlags_host (s : State) : s.clearFlags.host = s.host := rfl
@[simp] theorem State.clearFlags_hostWord (s : State) : s.clearFlags.hostWord = s.hostWord := rfl
@[simp] theorem State.clearFlags_hostByte (s : State) : s.clearFlags.hostByte = s.hostByte := rfl
@[simp] theorem State.clearFlags_draws (s : State) : s.clearFlags.draws = s.draws := rfl

/-! State.forgetOutput -/

@[simp] theorem State.forgetOutput_mode (s : State) : s.forgetOutput.mode = s.mode := rfl
@[simp] theorem State.forgetOutput_irqEn (s : State) : s.forgetOutput.irqEn = s.irqEn := rfl
@[simp] theorem State.forgetOutput_strictEnd (s : State) : s.forgetOutput.strictEnd = s.strictEnd := rfl
@[simp] theorem State.forgetOutput_done (s : State) : s.forgetOutput.done = s.done := rfl
@[simp] theorem State.forgetOutput_err (s : State) : s.forgetOutput.err = s.err := rfl
@[simp] theorem State.forgetOutput_errcode (s : State) : s.forgetOutput.errcode = s.errcode := rfl
@[simp] theorem State.forgetOutput_width (s : State) : s.forgetOutput.width = s.width := rfl
@[simp] theorem State.forgetOutput_height (s : State) : s.forgetOutput.height = s.height := rfl
@[simp] theorem State.forgetOutput_channels (s : State) : s.forgetOutput.channels = s.channels := rfl
@[simp] theorem State.forgetOutput_colorspace (s : State) : s.forgetOutput.colorspace = s.colorspace := rfl
@[simp] theorem State.forgetOutput_inBase (s : State) : s.forgetOutput.inBase = s.inBase := rfl
@[simp] theorem State.forgetOutput_inLen (s : State) : s.forgetOutput.inLen = s.inLen := rfl
@[simp] theorem State.forgetOutput_outBase (s : State) : s.forgetOutput.outBase = s.outBase := rfl
@[simp] theorem State.forgetOutput_outCap (s : State) : s.forgetOutput.outCap = s.outCap := rfl
@[simp] theorem State.forgetOutput_outPos (s : State) : s.forgetOutput.outPos = s.outPos := rfl
@[simp] theorem State.forgetOutput_inPos (s : State) : s.forgetOutput.inPos = s.inPos := rfl
@[simp] theorem State.forgetOutput_px (s : State) : s.forgetOutput.px = s.px := rfl
@[simp] theorem State.forgetOutput_phase (s : State) : s.forgetOutput.phase = s.phase := rfl
@[simp] theorem State.forgetOutput_cache (s : State) : s.forgetOutput.cache = s.cache := rfl
@[simp] theorem State.forgetOutput_prev (s : State) : s.forgetOutput.prev = s.prev := rfl
@[simp] theorem State.forgetOutput_run (s : State) : s.forgetOutput.run = s.run := rfl
@[simp] theorem State.forgetOutput_mem (s : State) : s.forgetOutput.mem = s.mem.forget s.outBase.toNat (min (s.outBase.toNat + s.outCap.toNat) memSize) s.draws := rfl
@[simp] theorem State.forgetOutput_host (s : State) : s.forgetOutput.host = s.host := rfl
@[simp] theorem State.forgetOutput_hostWord (s : State) : s.forgetOutput.hostWord = s.hostWord := rfl
@[simp] theorem State.forgetOutput_hostByte (s : State) : s.forgetOutput.hostByte = s.hostByte := rfl
@[simp] theorem State.forgetOutput_draws (s : State) : s.forgetOutput.draws = s.draws + 1 := rfl

/-! raiseError -/

@[simp] theorem raiseError_mode (e : JobError) (s : State) : (raiseError e s).mode = s.mode := rfl
@[simp] theorem raiseError_irqEn (e : JobError) (s : State) : (raiseError e s).irqEn = s.irqEn := rfl
@[simp] theorem raiseError_strictEnd (e : JobError) (s : State) : (raiseError e s).strictEnd = s.strictEnd := rfl
@[simp] theorem raiseError_done (e : JobError) (s : State) : (raiseError e s).done = s.done := rfl
@[simp] theorem raiseError_err (e : JobError) (s : State) : (raiseError e s).err = true := rfl
@[simp] theorem raiseError_errcode (e : JobError) (s : State) : (raiseError e s).errcode = e.code := rfl
@[simp] theorem raiseError_width (e : JobError) (s : State) : (raiseError e s).width = s.width := rfl
@[simp] theorem raiseError_height (e : JobError) (s : State) : (raiseError e s).height = s.height := rfl
@[simp] theorem raiseError_channels (e : JobError) (s : State) : (raiseError e s).channels = s.channels := rfl
@[simp] theorem raiseError_colorspace (e : JobError) (s : State) : (raiseError e s).colorspace = s.colorspace := rfl
@[simp] theorem raiseError_inBase (e : JobError) (s : State) : (raiseError e s).inBase = s.inBase := rfl
@[simp] theorem raiseError_inLen (e : JobError) (s : State) : (raiseError e s).inLen = s.inLen := rfl
@[simp] theorem raiseError_outBase (e : JobError) (s : State) : (raiseError e s).outBase = s.outBase := rfl
@[simp] theorem raiseError_outCap (e : JobError) (s : State) : (raiseError e s).outCap = s.outCap := rfl
@[simp] theorem raiseError_outPos (e : JobError) (s : State) : (raiseError e s).outPos = s.outPos := rfl
@[simp] theorem raiseError_inPos (e : JobError) (s : State) : (raiseError e s).inPos = s.inPos := rfl
@[simp] theorem raiseError_px (e : JobError) (s : State) : (raiseError e s).px = s.px := rfl
@[simp] theorem raiseError_phase (e : JobError) (s : State) : (raiseError e s).phase = .idle := rfl
@[simp] theorem raiseError_cache (e : JobError) (s : State) : (raiseError e s).cache = s.cache := rfl
@[simp] theorem raiseError_prev (e : JobError) (s : State) : (raiseError e s).prev = s.prev := rfl
@[simp] theorem raiseError_run (e : JobError) (s : State) : (raiseError e s).run = s.run := rfl
@[simp] theorem raiseError_mem (e : JobError) (s : State) : (raiseError e s).mem = s.forgetOutput.mem := rfl
@[simp] theorem raiseError_host (e : JobError) (s : State) : (raiseError e s).host = s.host := rfl
@[simp] theorem raiseError_hostWord (e : JobError) (s : State) : (raiseError e s).hostWord = s.hostWord := rfl
@[simp] theorem raiseError_hostByte (e : JobError) (s : State) : (raiseError e s).hostByte = s.hostByte := rfl
@[simp] theorem raiseError_draws (e : JobError) (s : State) : (raiseError e s).draws = s.draws + 1 := rfl

/-! finishJob -/

@[simp] theorem finishJob_mode (s : State) : (finishJob s).mode = s.mode := rfl
@[simp] theorem finishJob_irqEn (s : State) : (finishJob s).irqEn = s.irqEn := rfl
@[simp] theorem finishJob_strictEnd (s : State) : (finishJob s).strictEnd = s.strictEnd := rfl
@[simp] theorem finishJob_done (s : State) : (finishJob s).done = true := rfl
@[simp] theorem finishJob_err (s : State) : (finishJob s).err = s.err := rfl
@[simp] theorem finishJob_errcode (s : State) : (finishJob s).errcode = s.errcode := rfl
@[simp] theorem finishJob_width (s : State) : (finishJob s).width = s.width := rfl
@[simp] theorem finishJob_height (s : State) : (finishJob s).height = s.height := rfl
@[simp] theorem finishJob_channels (s : State) : (finishJob s).channels = s.channels := rfl
@[simp] theorem finishJob_colorspace (s : State) : (finishJob s).colorspace = s.colorspace := rfl
@[simp] theorem finishJob_inBase (s : State) : (finishJob s).inBase = s.inBase := rfl
@[simp] theorem finishJob_inLen (s : State) : (finishJob s).inLen = s.inLen := rfl
@[simp] theorem finishJob_outBase (s : State) : (finishJob s).outBase = s.outBase := rfl
@[simp] theorem finishJob_outCap (s : State) : (finishJob s).outCap = s.outCap := rfl
@[simp] theorem finishJob_outPos (s : State) : (finishJob s).outPos = s.outPos := rfl
@[simp] theorem finishJob_inPos (s : State) : (finishJob s).inPos = s.inPos := rfl
@[simp] theorem finishJob_px (s : State) : (finishJob s).px = s.px := rfl
@[simp] theorem finishJob_phase (s : State) : (finishJob s).phase = .idle := rfl
@[simp] theorem finishJob_cache (s : State) : (finishJob s).cache = s.cache := rfl
@[simp] theorem finishJob_prev (s : State) : (finishJob s).prev = s.prev := rfl
@[simp] theorem finishJob_run (s : State) : (finishJob s).run = s.run := rfl
@[simp] theorem finishJob_mem (s : State) : (finishJob s).mem = s.mem := rfl
@[simp] theorem finishJob_host (s : State) : (finishJob s).host = s.host := rfl
@[simp] theorem finishJob_hostWord (s : State) : (finishJob s).hostWord = s.hostWord := rfl
@[simp] theorem finishJob_hostByte (s : State) : (finishJob s).hostByte = s.hostByte := rfl
@[simp] theorem finishJob_draws (s : State) : (finishJob s).draws = s.draws := rfl

/-! startJob -/

@[simp] theorem startJob_mode (s : State) : (startJob s).mode = s.mode := rfl
@[simp] theorem startJob_irqEn (s : State) : (startJob s).irqEn = s.irqEn := rfl
@[simp] theorem startJob_strictEnd (s : State) : (startJob s).strictEnd = s.strictEnd := rfl
@[simp] theorem startJob_done (s : State) : (startJob s).done = false := rfl
@[simp] theorem startJob_err (s : State) : (startJob s).err = false := rfl
@[simp] theorem startJob_errcode (s : State) : (startJob s).errcode = 0 := rfl
@[simp] theorem startJob_width (s : State) : (startJob s).width = s.width := rfl
@[simp] theorem startJob_height (s : State) : (startJob s).height = s.height := rfl
@[simp] theorem startJob_channels (s : State) : (startJob s).channels = s.channels := rfl
@[simp] theorem startJob_colorspace (s : State) : (startJob s).colorspace = s.colorspace := rfl
@[simp] theorem startJob_inBase (s : State) : (startJob s).inBase = s.inBase := rfl
@[simp] theorem startJob_inLen (s : State) : (startJob s).inLen = s.inLen := rfl
@[simp] theorem startJob_outBase (s : State) : (startJob s).outBase = s.outBase := rfl
@[simp] theorem startJob_outCap (s : State) : (startJob s).outCap = s.outCap := rfl
@[simp] theorem startJob_outPos (s : State) : (startJob s).outPos = 0 := rfl
@[simp] theorem startJob_inPos (s : State) : (startJob s).inPos = 0 := rfl
@[simp] theorem startJob_px (s : State) : (startJob s).px = 0 := rfl
@[simp] theorem startJob_cache (s : State) : (startJob s).cache = clearedCache := rfl
@[simp] theorem startJob_prev (s : State) : (startJob s).prev = startPixel := rfl
@[simp] theorem startJob_run (s : State) : (startJob s).run = 0 := rfl
@[simp] theorem startJob_mem (s : State) : (startJob s).mem = s.mem := rfl
@[simp] theorem startJob_host (s : State) : (startJob s).host = s.host := rfl
@[simp] theorem startJob_hostWord (s : State) : (startJob s).hostWord = s.hostWord := rfl
@[simp] theorem startJob_hostByte (s : State) : (startJob s).hostByte = s.hostByte := rfl
@[simp] theorem startJob_draws (s : State) : (startJob s).draws = s.draws := rfl

/-! State.storePixel -/

@[simp] theorem State.storePixel_mode (p : Pixel) (s : State) : (s.storePixel p).mode = s.mode := rfl
@[simp] theorem State.storePixel_irqEn (p : Pixel) (s : State) : (s.storePixel p).irqEn = s.irqEn := rfl
@[simp] theorem State.storePixel_strictEnd (p : Pixel) (s : State) : (s.storePixel p).strictEnd = s.strictEnd := rfl
@[simp] theorem State.storePixel_done (p : Pixel) (s : State) : (s.storePixel p).done = s.done := rfl
@[simp] theorem State.storePixel_err (p : Pixel) (s : State) : (s.storePixel p).err = s.err := rfl
@[simp] theorem State.storePixel_errcode (p : Pixel) (s : State) : (s.storePixel p).errcode = s.errcode := rfl
@[simp] theorem State.storePixel_width (p : Pixel) (s : State) : (s.storePixel p).width = s.width := rfl
@[simp] theorem State.storePixel_height (p : Pixel) (s : State) : (s.storePixel p).height = s.height := rfl
@[simp] theorem State.storePixel_channels (p : Pixel) (s : State) : (s.storePixel p).channels = s.channels := rfl
@[simp] theorem State.storePixel_colorspace (p : Pixel) (s : State) : (s.storePixel p).colorspace = s.colorspace := rfl
@[simp] theorem State.storePixel_inBase (p : Pixel) (s : State) : (s.storePixel p).inBase = s.inBase := rfl
@[simp] theorem State.storePixel_inLen (p : Pixel) (s : State) : (s.storePixel p).inLen = s.inLen := rfl
@[simp] theorem State.storePixel_outBase (p : Pixel) (s : State) : (s.storePixel p).outBase = s.outBase := rfl
@[simp] theorem State.storePixel_outCap (p : Pixel) (s : State) : (s.storePixel p).outCap = s.outCap := rfl
@[simp] theorem State.storePixel_outPos (p : Pixel) (s : State) : (s.storePixel p).outPos = s.outPos := rfl
@[simp] theorem State.storePixel_inPos (p : Pixel) (s : State) : (s.storePixel p).inPos = s.inPos := rfl
@[simp] theorem State.storePixel_px (p : Pixel) (s : State) : (s.storePixel p).px = s.px := rfl
@[simp] theorem State.storePixel_phase (p : Pixel) (s : State) : (s.storePixel p).phase = s.phase := rfl
@[simp] theorem State.storePixel_cache (p : Pixel) (s : State) : (s.storePixel p).cache = s.cache.set (hash p).val p := rfl
@[simp] theorem State.storePixel_prev (p : Pixel) (s : State) : (s.storePixel p).prev = s.prev := rfl
@[simp] theorem State.storePixel_run (p : Pixel) (s : State) : (s.storePixel p).run = s.run := rfl
@[simp] theorem State.storePixel_mem (p : Pixel) (s : State) : (s.storePixel p).mem = s.mem := rfl
@[simp] theorem State.storePixel_host (p : Pixel) (s : State) : (s.storePixel p).host = s.host := rfl
@[simp] theorem State.storePixel_hostWord (p : Pixel) (s : State) : (s.storePixel p).hostWord = s.hostWord := rfl
@[simp] theorem State.storePixel_hostByte (p : Pixel) (s : State) : (s.storePixel p).hostByte = s.hostByte := rfl
@[simp] theorem State.storePixel_draws (p : Pixel) (s : State) : (s.storePixel p).draws = s.draws := rfl

/-! State.advanceIn -/

@[simp] theorem State.advanceIn_mode (n : Nat) (s : State) : (s.advanceIn n).mode = s.mode := rfl
@[simp] theorem State.advanceIn_irqEn (n : Nat) (s : State) : (s.advanceIn n).irqEn = s.irqEn := rfl
@[simp] theorem State.advanceIn_strictEnd (n : Nat) (s : State) : (s.advanceIn n).strictEnd = s.strictEnd := rfl
@[simp] theorem State.advanceIn_done (n : Nat) (s : State) : (s.advanceIn n).done = s.done := rfl
@[simp] theorem State.advanceIn_err (n : Nat) (s : State) : (s.advanceIn n).err = s.err := rfl
@[simp] theorem State.advanceIn_errcode (n : Nat) (s : State) : (s.advanceIn n).errcode = s.errcode := rfl
@[simp] theorem State.advanceIn_width (n : Nat) (s : State) : (s.advanceIn n).width = s.width := rfl
@[simp] theorem State.advanceIn_height (n : Nat) (s : State) : (s.advanceIn n).height = s.height := rfl
@[simp] theorem State.advanceIn_channels (n : Nat) (s : State) : (s.advanceIn n).channels = s.channels := rfl
@[simp] theorem State.advanceIn_colorspace (n : Nat) (s : State) : (s.advanceIn n).colorspace = s.colorspace := rfl
@[simp] theorem State.advanceIn_inBase (n : Nat) (s : State) : (s.advanceIn n).inBase = s.inBase := rfl
@[simp] theorem State.advanceIn_inLen (n : Nat) (s : State) : (s.advanceIn n).inLen = s.inLen := rfl
@[simp] theorem State.advanceIn_outBase (n : Nat) (s : State) : (s.advanceIn n).outBase = s.outBase := rfl
@[simp] theorem State.advanceIn_outCap (n : Nat) (s : State) : (s.advanceIn n).outCap = s.outCap := rfl
@[simp] theorem State.advanceIn_outPos (n : Nat) (s : State) : (s.advanceIn n).outPos = s.outPos := rfl
@[simp] theorem State.advanceIn_inPos (n : Nat) (s : State) : (s.advanceIn n).inPos = s.inPos + BitVec.ofNat 32 n := rfl
@[simp] theorem State.advanceIn_px (n : Nat) (s : State) : (s.advanceIn n).px = s.px := rfl
@[simp] theorem State.advanceIn_phase (n : Nat) (s : State) : (s.advanceIn n).phase = s.phase := rfl
@[simp] theorem State.advanceIn_cache (n : Nat) (s : State) : (s.advanceIn n).cache = s.cache := rfl
@[simp] theorem State.advanceIn_prev (n : Nat) (s : State) : (s.advanceIn n).prev = s.prev := rfl
@[simp] theorem State.advanceIn_run (n : Nat) (s : State) : (s.advanceIn n).run = s.run := rfl
@[simp] theorem State.advanceIn_mem (n : Nat) (s : State) : (s.advanceIn n).mem = s.mem := rfl
@[simp] theorem State.advanceIn_host (n : Nat) (s : State) : (s.advanceIn n).host = s.host := rfl
@[simp] theorem State.advanceIn_hostWord (n : Nat) (s : State) : (s.advanceIn n).hostWord = s.hostWord := rfl
@[simp] theorem State.advanceIn_hostByte (n : Nat) (s : State) : (s.advanceIn n).hostByte = s.hostByte := rfl
@[simp] theorem State.advanceIn_draws (n : Nat) (s : State) : (s.advanceIn n).draws = s.draws := rfl

/-! State.withHeader -/

@[simp] theorem State.withHeader_mode (h : List Byte) (s : State) : (s.withHeader h).mode = s.mode := rfl
@[simp] theorem State.withHeader_irqEn (h : List Byte) (s : State) : (s.withHeader h).irqEn = s.irqEn := rfl
@[simp] theorem State.withHeader_strictEnd (h : List Byte) (s : State) : (s.withHeader h).strictEnd = s.strictEnd := rfl
@[simp] theorem State.withHeader_done (h : List Byte) (s : State) : (s.withHeader h).done = s.done := rfl
@[simp] theorem State.withHeader_err (h : List Byte) (s : State) : (s.withHeader h).err = s.err := rfl
@[simp] theorem State.withHeader_errcode (h : List Byte) (s : State) : (s.withHeader h).errcode = s.errcode := rfl
@[simp] theorem State.withHeader_width (h : List Byte) (s : State) : (s.withHeader h).width = be32 (h.getD 4 0) (h.getD 5 0) (h.getD 6 0) (h.getD 7 0) := rfl
@[simp] theorem State.withHeader_height (h : List Byte) (s : State) : (s.withHeader h).height = be32 (h.getD 8 0) (h.getD 9 0) (h.getD 10 0) (h.getD 11 0) := rfl
@[simp] theorem State.withHeader_channels (h : List Byte) (s : State) : (s.withHeader h).channels = h.getD 12 0 := rfl
@[simp] theorem State.withHeader_colorspace (h : List Byte) (s : State) : (s.withHeader h).colorspace = h.getD 13 0 := rfl
@[simp] theorem State.withHeader_inBase (h : List Byte) (s : State) : (s.withHeader h).inBase = s.inBase := rfl
@[simp] theorem State.withHeader_inLen (h : List Byte) (s : State) : (s.withHeader h).inLen = s.inLen := rfl
@[simp] theorem State.withHeader_outBase (h : List Byte) (s : State) : (s.withHeader h).outBase = s.outBase := rfl
@[simp] theorem State.withHeader_outCap (h : List Byte) (s : State) : (s.withHeader h).outCap = s.outCap := rfl
@[simp] theorem State.withHeader_outPos (h : List Byte) (s : State) : (s.withHeader h).outPos = s.outPos := rfl
@[simp] theorem State.withHeader_inPos (h : List Byte) (s : State) : (s.withHeader h).inPos = s.inPos := rfl
@[simp] theorem State.withHeader_px (h : List Byte) (s : State) : (s.withHeader h).px = s.px := rfl
@[simp] theorem State.withHeader_phase (h : List Byte) (s : State) : (s.withHeader h).phase = s.phase := rfl
@[simp] theorem State.withHeader_cache (h : List Byte) (s : State) : (s.withHeader h).cache = s.cache := rfl
@[simp] theorem State.withHeader_prev (h : List Byte) (s : State) : (s.withHeader h).prev = s.prev := rfl
@[simp] theorem State.withHeader_run (h : List Byte) (s : State) : (s.withHeader h).run = s.run := rfl
@[simp] theorem State.withHeader_mem (h : List Byte) (s : State) : (s.withHeader h).mem = s.mem := rfl
@[simp] theorem State.withHeader_host (h : List Byte) (s : State) : (s.withHeader h).host = s.host := rfl
@[simp] theorem State.withHeader_hostWord (h : List Byte) (s : State) : (s.withHeader h).hostWord = s.hostWord := rfl
@[simp] theorem State.withHeader_hostByte (h : List Byte) (s : State) : (s.withHeader h).hostByte = s.hostByte := rfl
@[simp] theorem State.withHeader_draws (h : List Byte) (s : State) : (s.withHeader h).draws = s.draws := rfl

/-! joinRun -/

@[simp] theorem joinRun_mode (s : State) : (joinRun s).mode = s.mode := rfl
@[simp] theorem joinRun_irqEn (s : State) : (joinRun s).irqEn = s.irqEn := rfl
@[simp] theorem joinRun_strictEnd (s : State) : (joinRun s).strictEnd = s.strictEnd := rfl
@[simp] theorem joinRun_done (s : State) : (joinRun s).done = s.done := rfl
@[simp] theorem joinRun_err (s : State) : (joinRun s).err = s.err := rfl
@[simp] theorem joinRun_errcode (s : State) : (joinRun s).errcode = s.errcode := rfl
@[simp] theorem joinRun_width (s : State) : (joinRun s).width = s.width := rfl
@[simp] theorem joinRun_height (s : State) : (joinRun s).height = s.height := rfl
@[simp] theorem joinRun_channels (s : State) : (joinRun s).channels = s.channels := rfl
@[simp] theorem joinRun_colorspace (s : State) : (joinRun s).colorspace = s.colorspace := rfl
@[simp] theorem joinRun_inBase (s : State) : (joinRun s).inBase = s.inBase := rfl
@[simp] theorem joinRun_inLen (s : State) : (joinRun s).inLen = s.inLen := rfl
@[simp] theorem joinRun_outBase (s : State) : (joinRun s).outBase = s.outBase := rfl
@[simp] theorem joinRun_outCap (s : State) : (joinRun s).outCap = s.outCap := rfl
@[simp] theorem joinRun_outPos (s : State) : (joinRun s).outPos = s.outPos := rfl
@[simp] theorem joinRun_inPos (s : State) : (joinRun s).inPos = s.inPos + s.stride := rfl
@[simp] theorem joinRun_px (s : State) : (joinRun s).px = s.px + 1 := rfl
@[simp] theorem joinRun_phase (s : State) : (joinRun s).phase = s.phase := rfl
@[simp] theorem joinRun_cache (s : State) : (joinRun s).cache = s.cache := rfl
@[simp] theorem joinRun_prev (s : State) : (joinRun s).prev = s.prev := rfl
@[simp] theorem joinRun_run (s : State) : (joinRun s).run = s.run + 1 := rfl
@[simp] theorem joinRun_mem (s : State) : (joinRun s).mem = s.mem := rfl
@[simp] theorem joinRun_host (s : State) : (joinRun s).host = s.host := rfl
@[simp] theorem joinRun_hostWord (s : State) : (joinRun s).hostWord = s.hostWord := rfl
@[simp] theorem joinRun_hostByte (s : State) : (joinRun s).hostByte = s.hostByte := rfl
@[simp] theorem joinRun_draws (s : State) : (joinRun s).draws = s.draws := rfl

/-! afterChunk -/

@[simp] theorem afterChunk_mode (p : Pixel) (d : Bool) (s : State) : (afterChunk p d s).mode = s.mode := by
  cases d <;> rfl
@[simp] theorem afterChunk_irqEn (p : Pixel) (d : Bool) (s : State) : (afterChunk p d s).irqEn = s.irqEn := by
  cases d <;> rfl
@[simp] theorem afterChunk_strictEnd (p : Pixel) (d : Bool) (s : State) : (afterChunk p d s).strictEnd = s.strictEnd := by
  cases d <;> rfl
@[simp] theorem afterChunk_done (p : Pixel) (d : Bool) (s : State) : (afterChunk p d s).done = s.done := by
  cases d <;> rfl
@[simp] theorem afterChunk_err (p : Pixel) (d : Bool) (s : State) : (afterChunk p d s).err = s.err := by
  cases d <;> rfl
@[simp] theorem afterChunk_errcode (p : Pixel) (d : Bool) (s : State) : (afterChunk p d s).errcode = s.errcode := by
  cases d <;> rfl
@[simp] theorem afterChunk_width (p : Pixel) (d : Bool) (s : State) : (afterChunk p d s).width = s.width := by
  cases d <;> rfl
@[simp] theorem afterChunk_height (p : Pixel) (d : Bool) (s : State) : (afterChunk p d s).height = s.height := by
  cases d <;> rfl
@[simp] theorem afterChunk_channels (p : Pixel) (d : Bool) (s : State) : (afterChunk p d s).channels = s.channels := by
  cases d <;> rfl
@[simp] theorem afterChunk_colorspace (p : Pixel) (d : Bool) (s : State) : (afterChunk p d s).colorspace = s.colorspace := by
  cases d <;> rfl
@[simp] theorem afterChunk_inBase (p : Pixel) (d : Bool) (s : State) : (afterChunk p d s).inBase = s.inBase := by
  cases d <;> rfl
@[simp] theorem afterChunk_inLen (p : Pixel) (d : Bool) (s : State) : (afterChunk p d s).inLen = s.inLen := by
  cases d <;> rfl
@[simp] theorem afterChunk_outBase (p : Pixel) (d : Bool) (s : State) : (afterChunk p d s).outBase = s.outBase := by
  cases d <;> rfl
@[simp] theorem afterChunk_outCap (p : Pixel) (d : Bool) (s : State) : (afterChunk p d s).outCap = s.outCap := by
  cases d <;> rfl
@[simp] theorem afterChunk_outPos (p : Pixel) (d : Bool) (s : State) : (afterChunk p d s).outPos = s.outPos := by
  cases d <;> rfl
@[simp] theorem afterChunk_inPos (p : Pixel) (d : Bool) (s : State) : (afterChunk p d s).inPos = s.inPos + s.stride := by
  cases d <;> rfl
@[simp] theorem afterChunk_px (p : Pixel) (d : Bool) (s : State) : (afterChunk p d s).px = s.px + 1 := by
  cases d <;> rfl
@[simp] theorem afterChunk_phase (p : Pixel) (d : Bool) (s : State) : (afterChunk p d s).phase = s.phase := by
  cases d <;> rfl
theorem afterChunk_cache (p : Pixel) (d : Bool) (s : State) :
    (afterChunk p d s).cache = if d then s.cache.set (hash p).val p else s.cache := by cases d <;> rfl
@[simp] theorem afterChunk_prev (p : Pixel) (d : Bool) (s : State) : (afterChunk p d s).prev = p := by
  cases d <;> rfl
@[simp] theorem afterChunk_run (p : Pixel) (d : Bool) (s : State) : (afterChunk p d s).run = 0 := by
  cases d <;> rfl
@[simp] theorem afterChunk_mem (p : Pixel) (d : Bool) (s : State) : (afterChunk p d s).mem = s.mem := by
  cases d <;> rfl
@[simp] theorem afterChunk_host (p : Pixel) (d : Bool) (s : State) : (afterChunk p d s).host = s.host := by
  cases d <;> rfl
@[simp] theorem afterChunk_hostWord (p : Pixel) (d : Bool) (s : State) : (afterChunk p d s).hostWord = s.hostWord := by
  cases d <;> rfl
@[simp] theorem afterChunk_hostByte (p : Pixel) (d : Bool) (s : State) : (afterChunk p d s).hostByte = s.hostByte := by
  cases d <;> rfl
@[simp] theorem afterChunk_draws (p : Pixel) (d : Bool) (s : State) : (afterChunk p d s).draws = s.draws := by
  cases d <;> rfl

/-! Views that a named update leaves alone. -/

@[simp] theorem startJob_phase (s : State) :
    (startJob s).phase = match s.mode with | .encode => .eHdr | .decode => .dHdr := rfl

@[simp] theorem raiseError_busy (e : JobError) (s : State) : (raiseError e s).busy = false := rfl

@[simp] theorem finishJob_busy (s : State) : (finishJob s).busy = false := rfl

@[simp] theorem storePixel_outPixelAddr (p : Pixel) (s : State) : (s.storePixel p).outPixelAddr = s.outPixelAddr := rfl

@[simp] theorem storePixel_stride (p : Pixel) (s : State) : (s.storePixel p).stride = s.stride := rfl

end Sys2Proof.Machine
end

