-- ==== Sys2Proof/Laws/Ops.lean ====
section
/-! SUPPORT. What each shared operation can do, said once: the engine's reads and writes, a pixel written, bytes emitted,
an error raised. -/

namespace Sys2Proof.Machine

variable {s t : State} {a n : Nat} {bs : List Byte} {p : Pixel}

/-! Engine reads and writes. -/

theorem fetchBytes_of_le (h : a + n ≤ memSize) (k : List Byte → Outcome State Fault Refusal) :
    fetchBytes s a n k = k (s.mem.readList a n) := if_pos h

theorem fetchBytes_next {k : List Byte → Outcome State Fault Refusal} (h : fetchBytes s a n k = .next t) :
    a + n ≤ memSize ∧ k (s.mem.readList a n) = .next t := by
  unfold fetchBytes at h
  split at h
  · exact ⟨‹_›, h⟩
  · cases h

theorem storeBytes_of_le (h : a + bs.length ≤ memSize) (k : State → Outcome State Fault Refusal) :
    storeBytes s a bs k = k { s with mem := s.mem.writeList a bs } := if_pos h

theorem storeBytes_next {k : State → Outcome State Fault Refusal} (h : storeBytes s a bs k = .next t) :
    a + bs.length ≤ memSize ∧ k { s with mem := s.mem.writeList a bs } = .next t := by
  unfold storeBytes at h
  split at h
  · exact ⟨‹_›, h⟩
  · cases h

theorem pixelBytes_length (c : Byte) (p : Pixel) : (pixelBytes c p).length = pixelWidth c := by
  unfold pixelBytes pixelWidth; split <;> rfl

theorem pixelWidth_le (c : Byte) : 3 ≤ pixelWidth c ∧ pixelWidth c ≤ 4 := by
  unfold pixelWidth; split <;> omega

/-- With a legal channel count a pixel moves as many bytes as the count says. -/
theorem pixelWidth_of_legal {c : Byte} (h : c = 3 ∨ c = 4) : pixelWidth c = c.toNat := by
  rcases h with rfl | rfl <;> decide

/-! A pixel written. -/

/-- The state after `WritePixel(px, p); px <- px + 1; prev <- p`. -/
def pixelPut (p : Pixel) (s : State) : State :=
  { s with
    mem := s.mem.writeList s.outPixelAddr (pixelBytes s.channels p)
    outPos := s.outPos + s.stride
    px := s.px + 1
    prev := p }

/-- Writing a pixel answers one next state, or faults where the pixel's bytes do not all exist. -/
theorem putPixel_eq (p : Pixel) (s : State) :
    putPixel p s = if s.outPixelAddr + pixelWidth s.channels ≤ memSize then .next (pixelPut p s)
      else .fault .addressOutsideMemory := by
  unfold putPixel writePixel storeBytes
  rw [pixelBytes_length]
  rfl

theorem putAndStorePixel_eq (p : Pixel) (s : State) :
    putAndStorePixel p s = if s.outPixelAddr + pixelWidth s.channels ≤ memSize then .next (pixelPut p (s.storePixel p))
      else .fault .addressOutsideMemory := putPixel_eq p (s.storePixel p)

theorem outPixelFits_iff (s : State) : OutPixelFits s ↔ s.outPixelAddr + pixelWidth s.channels ≤ memSize := Iff.rfl

/-- Bytes stored with a list write, as the statements say it. -/
theorem storesAt_writeList (hm : t.mem = s.mem.writeList a bs) : StoresAt s t a bs :=
  ⟨fun j h => by rw [hm]; exact Memory.read_writeList_inside bs s.mem a j h,
   fun b h => by rw [hm]; exact Memory.read_writeList_outside bs s.mem a b h⟩

theorem pixelPut_writes (p : Pixel) (s : State) : WritesPixel s (pixelPut p s) p where
  stores := storesAt_writeList rfl
  px := rfl
  outPos := rfl
  prev := rfl
  inPos := rfl
  phase := rfl
  control := by constructor <;> rfl
  world := by constructor <;> rfl

theorem pixelPut_storePixel_writes (p : Pixel) (s : State) : WritesPixel s (pixelPut p (s.storePixel p)) p where
  stores := storesAt_writeList rfl
  px := rfl
  outPos := rfl
  prev := rfl
  inPos := rfl
  phase := rfl
  control := by constructor <;> rfl
  world := by constructor <;> rfl

/-- The hash is the index rule R106 gives. -/
theorem hash_val (p : Pixel) :
    (hash p).val = (3 * p.r.toNat + 5 * p.g.toNat + 7 * p.b.toNat + 11 * p.a.toNat) % 64 := by
  show (p.r.toNat * 3 + p.g.toNat * 5 + p.b.toNat * 7 + p.a.toNat * 11) % 64 = _
  congr 1; omega

theorem storePixel_cacheStores (p : Pixel) (s : State) : CacheStores s (s.storePixel p) p := by
  intro k h
  rw [← hash_val, State.storePixel_cache, Vector.getElem_set]
  simp [eq_comm]

/-! Bytes emitted. -/

/-- The state after the bytes of `emit(B)` are out. -/
def emitted (bs : List Byte) (s : State) : State :=
  { s with
    mem := s.mem.writeList (s.outBase.toNat + s.outPos.toNat) bs
    outPos := s.outPos + BitVec.ofNat 32 bs.length }

/-- What `emit` can answer: OUTPUT_OVERFLOW on the state before, a fault, or the continuation's answer. -/
theorem emit_eq (bs : List Byte) (s : State) (k : State → Outcome State Fault Refusal) :
    emit bs s k =
      if s.outPos.toNat + bs.length > s.outCap.toNat then .next (raiseError .outputOverflow s)
      else if s.outBase.toNat + s.outPos.toNat + bs.length ≤ memSize then k (emitted bs s)
      else .fault .addressOutsideMemory := rfl

theorem emit_next {k : State → Outcome State Fault Refusal} (h : emit bs s k = .next t) :
    (s.outPos.toNat + bs.length > s.outCap.toNat ∧ t = raiseError .outputOverflow s) ∨
    (s.outPos.toNat + bs.length ≤ s.outCap.toNat ∧ s.outBase.toNat + s.outPos.toNat + bs.length ≤ memSize ∧
      k (emitted bs s) = .next t) := by
  rw [emit_eq] at h
  split at h
  · cases h; exact .inl ⟨‹_›, rfl⟩
  · split at h
    · exact .inr ⟨by omega, ‹_›, h⟩
    · cases h

/-! An error raised. -/

theorem JobError.code_range (e : JobError) : 1 ≤ e.code.toNat ∧ e.code.toNat ≤ 10 := by cases e <;> decide

theorem raiseError_read (e : JobError) (s : State) (b : Nat) (h : s.inOutputWindow b = false) :
    (raiseError e s).mem.read b = s.mem.read b := by
  have : ¬(s.outBase.toNat ≤ b ∧ b < min (s.outBase.toNat + s.outCap.toNat) memSize) := by
    simp only [State.inOutputWindow, Bool.and_eq_false_iff, decide_eq_false_iff_not] at h; omega
  rw [raiseError_mem, State.forgetOutput_mem, Memory.read_forget, if_neg this]

/-- What `raise` does (R152, R165). -/
theorem raiseError_spec (e : JobError) (s : State) : RaisedFrom s (raiseError e s) e where
  failed := ⟨rfl, rfl, rfl, rfl⟩
  cursors := ⟨rfl, rfl, rfl⟩
  image := ⟨rfl, rfl, rfl, rfl⟩
  ctrl := ⟨rfl, rfl, rfl⟩
  windows := ⟨rfl, rfl, rfl, rfl⟩
  memory := raiseError_read e s

theorem raiseError_wf (h : s.mem.wf) (e : JobError) : (raiseError e s).mem.wf :=
  Memory.wf_forget h (Nat.min_le_right _ _) _

/-- Reset memory is in canonical form. -/
theorem reset_wf : State.reset.mem.wf := Memory.wf_empty

/-! The windows. -/

theorem windowsOk_iff (s : State) : s.windowsOk = true ↔
    s.inBase.toNat + s.inLen.toNat ≤ memSize ∧ s.outBase.toNat + s.outCap.toNat ≤ memSize ∧
    (s.inLen.toNat = 0 ∨ s.outCap.toNat = 0 ∨ s.inBase.toNat + s.inLen.toNat ≤ s.outBase.toNat ∨
      s.outBase.toNat + s.outCap.toNat ≤ s.inBase.toNat) := by
  simp only [State.windowsOk, Bool.and_eq_true, Bool.or_eq_true, decide_eq_true_eq]
  tauto

theorem windowsOk_iff_fit (s : State) : s.windowsOk = true ↔ WindowsFit s := by
  rw [windowsOk_iff]
  unfold WindowsFit memSize
  omega

theorem inOutputWindow_iff (s : State) (b : Nat) :
    s.inOutputWindow b = true ↔ s.outBase.toNat ≤ b ∧ b < s.outBase.toNat + s.outCap.toNat := by
  simp [State.inOutputWindow]

theorem inInputWindow_iff (s : State) (b : Nat) :
    s.inInputWindow b = true ↔ s.inBase.toNat ≤ b ∧ b < s.inBase.toNat + s.inLen.toNat := by
  simp [State.inInputWindow]

/-- The input pixel at the pixel cursor, where its bytes exist. -/
theorem readPixel_of_le (h : s.inPixelAddr + pixelWidth s.channels ≤ memSize)
    (k : Pixel → Outcome State Fault Refusal) : readPixel s k = k (inputPixel s s.px.toNat) := by
  unfold readPixel
  rw [fetchBytes_of_le h]
  congr 1
  by_cases hc : s.channels = 4
  · simp [pixelOfBytes, inputPixel, pixelWidth, hc, Memory.readList, State.inPixelAddr]
  · simp only [pixelOfBytes, inputPixel, pixelWidth, if_neg hc, State.inPixelAddr]
    simp [Memory.readList]

theorem readPixel_next {k : Pixel → Outcome State Fault Refusal} (h : readPixel s k = .next t) :
    s.inPixelAddr + pixelWidth s.channels ≤ memSize ∧ k (inputPixel s s.px.toNat) = .next t := by
  have hle := (fetchBytes_next h).1
  exact ⟨hle, by rwa [readPixel_of_le hle] at h⟩

end Sys2Proof.Machine
end

