-- ==== Sys2Proof/Laws/PerInstr.lean ====
section
/-! SUPPORT. Statements made per instruction, one lemma per constructor. The family EncodeLength: the bytes of a
well-formed instruction are its first byte and as many more as that byte asks for (R67, R75). -/

namespace Sys2Proof.Laws.EncodeLength

/-- The encoding starts with a byte that gives the encoding's length (R75). -/
def Statement (i : Instr) : Prop :=
  i.wellFormed = true → ∃ b0 rest, encode i = b0 :: rest ∧ chunkLen b0 = rest.length + 1

/-- A first byte that is neither of the 8-bit tags has the length of its 2-bit tag. -/
theorem chunkLen_taggedByte {tag field : Nat} (ht : tag < 4) (hf : field < 64) (hr : tag = tagRun → field < 62) :
    chunkLen (taggedByte tag field) = if tag = tagLuma then 2 else 1 := by
  have h := taggedByte_toNat ht hf
  have h1 : taggedByte tag field ≠ tagRgb := by
    intro he; rw [he] at h; simp [tagRgb, tagRun] at h hr; omega
  have h2 : taggedByte tag field ≠ tagRgba := by
    intro he; rw [he] at h; simp [tagRgba, tagRun] at h hr; omega
  have h3 : bits (taggedByte tag field) 7 6 = tag := by unfold bits; rw [h]; norm_num; omega
  rw [chunkLen, if_neg h1, if_neg h2, h3]

theorem index (idx : Nat) : Statement (.index idx) := by
  intro h
  simp only [Instr.wellFormed, decide_eq_true_eq] at h
  exact ⟨_, [], rfl, by rw [chunkLen_taggedByte (by decide) (by omega) (fun h => absurd h (by decide))]; rfl⟩

theorem diff (dr dg db : Int) : Statement (.diff dr dg db) := by
  intro h
  simp only [Instr.wellFormed, inRange, Bool.and_eq_true, decide_eq_true_eq] at h
  refine ⟨_, [], rfl, ?_⟩
  rw [chunkLen_taggedByte (by decide) (by unfold biased; omega) (fun h => absurd h (by decide))]; rfl

theorem luma (dg drDg dbDg : Int) : Statement (.luma dg drDg dbDg) := by
  intro h
  simp only [Instr.wellFormed, inRange, Bool.and_eq_true, decide_eq_true_eq] at h
  refine ⟨_, [_], rfl, ?_⟩
  rw [chunkLen_taggedByte (by decide) (by unfold biased; omega) (fun h => absurd h (by decide))]; rfl

theorem run (count : Nat) : Statement (.run count) := by
  intro h
  simp only [Instr.wellFormed, Bool.and_eq_true, decide_eq_true_eq] at h
  refine ⟨_, [], rfl, ?_⟩
  rw [chunkLen_taggedByte (by decide) (by omega) (by omega)]; rfl

theorem rgb (r g b : Byte) : Statement (.rgb r g b) := fun _ => ⟨tagRgb, [r, g, b], rfl, rfl⟩

theorem rgba (r g b a : Byte) : Statement (.rgba r g b a) := fun _ => ⟨tagRgba, [r, g, b, a], rfl, rfl⟩

end Sys2Proof.Laws.EncodeLength
end

