-- ==== Sys2Proof/Laws/Step.lean ====
section
/-! SUPPORT. What one engine step can do, said once (`Took`), with the small facts its users need: cursors that do not
wrap, pixels that stay in their windows, how long a multiplexer's chunk is, and what a host access can do. -/

namespace Sys2Proof.Machine

variable {s t : State}

/-! Small facts. -/

/-- A cursor that stays below 2^32 moves on as a number. -/
theorem toNat_add_ofNat {a : Word} {n : Nat} (h : a.toNat + n < 2 ^ 32) :
    (a + BitVec.ofNat 32 n).toNat = a.toNat + n := by
  rw [BitVec.toNat_add, BitVec.toNat_ofNat]; omega

/-- The pixel at a cursor below `N` ends inside a window that holds all `N`. -/
theorem pixel_fits {px n c cap : Nat} (h : px < n) (hcap : n * c ≤ cap) : c * px + c ≤ cap := by
  have : (px + 1) * c ≤ n * c := Nat.mul_le_mul_right _ h
  nlinarith

/-- In a decode body the next output pixel lies in the output window. -/
theorem DecodeOk.outPixel_fits (h : DecodeOk s) (hpx : s.px.toNat ≠ s.pixelCount) :
    s.channels.toNat * s.px.toNat + pixelWidth s.channels ≤ s.outCap.toNat := by
  rw [pixelWidth_of_legal h.channels]
  exact pixel_fits (by have := h.px; omega) h.raster

/-- In an encode body the next input pixel lies in the input window. -/
theorem EncodeOk.inPixel_fits (h : EncodeOk s) (hpx : s.px.toNat ≠ s.pixelCount) :
    s.channels.toNat * s.px.toNat + pixelWidth s.channels ≤ s.inLen.toNat := by
  rw [pixelWidth_of_legal h.channels]
  exact pixel_fits (by have := h.px; omega) h.raster

theorem DecodeOk.outPixelFits (h : DecodeOk s) (hpx : s.px.toNat ≠ s.pixelCount) : OutPixelFits s := by
  have := h.outPixel_fits hpx
  have := (windowsOk_iff s).1 h.windows
  show s.outBase.toNat + s.channels.toNat * s.px.toNat + pixelWidth s.channels ≤ memSize
  omega

theorem EncodeOk.inPixelFits (h : EncodeOk s) (hpx : s.px.toNat ≠ s.pixelCount) : InPixelFits s := by
  have := h.inPixel_fits hpx
  have := (windowsOk_iff s).1 h.windows
  show s.inBase.toNat + s.channels.toNat * s.px.toNat + pixelWidth s.channels ≤ memSize
  omega

/-- A pixel chunk answers the state with its pixel put where the pixel fits. -/
theorem putPixel_of_fits {p : Pixel} (h : OutPixelFits s) : putPixel p s = .next (pixelPut p s) := by
  rw [putPixel_eq, if_pos ((outPixelFits_iff s).1 h)]

theorem putAndStorePixel_of_fits {p : Pixel} (h : OutPixelFits s) :
    putAndStorePixel p s = .next (pixelPut p (s.storePixel p)) := by
  rw [putAndStorePixel_eq, if_pos ((outPixelFits_iff s).1 h)]

theorem putPixel_next {p : Pixel} (h : putPixel p s = .next t) : t = pixelPut p s := by
  rw [putPixel_eq] at h; split at h <;> cases h; rfl

theorem putAndStorePixel_next {p : Pixel} (h : putAndStorePixel p s = .next t) : t = pixelPut p (s.storePixel p) :=
  putPixel_next h

/-- What a chunk can do: load the run counter, or put a pixel, with or without storing it. -/
theorem exec_next {i : Instr} (h : exec i s = .next t) :
    (∃ c, i = .run c ∧ t = { s with run := BitVec.ofNat 6 c }) ∨
    ∃ p, t = pixelPut p s ∨ t = pixelPut p (s.storePixel p) := by
  cases i with
  | run c => cases h; exact .inl ⟨c, rfl, rfl⟩
  | index => exact .inr ⟨_, .inl (putPixel_next h)⟩
  | diff => exact .inr ⟨_, .inr (putAndStorePixel_next h)⟩
  | luma => exact .inr ⟨_, .inr (putAndStorePixel_next h)⟩
  | rgb => exact .inr ⟨_, .inr (putAndStorePixel_next h)⟩
  | rgba => exact .inr ⟨_, .inr (putAndStorePixel_next h)⟩

/-- A wrapped channel is the integer modulo 256 (R15). -/
theorem wrap8_toNat (x : Int) : ((wrap8 x).toNat : Int) = x % 256 := by
  unfold wrap8; rw [BitVec.toNat_ofInt]; norm_num; omega

/-- A channel delta is the signed representative of the difference modulo 256 (R119). -/
theorem channelDelta_spec (new old : Byte) :
    -128 ≤ channelDelta new old ∧ channelDelta new old ≤ 127 ∧
      ((new.toNat : Int) - old.toNat - channelDelta new old) % 256 = 0 := by
  unfold channelDelta sext8 chan
  have := wrap8_toNat ((new.toNat : Int) - old.toNat)
  have := new.isLt; have := old.isLt
  split <;> omega

theorem runBytes_length (run : BitVec 6) : (runBytes run).length = if run.toNat > 0 then 1 else 0 := by
  unfold runBytes; split <;> rfl

/-- The multiplexer's chunk is at most one byte longer than a pixel; with three channels alpha never changes. -/
theorem mux_length {p prev c : Pixel} {k : Fin 64} {ch : Byte} (hc : ch = 3 ∨ ch = 4)
    (ha : ch = 3 → p.a = prev.a) :
    1 ≤ (encode (mux p prev c k).1).length ∧ (encode (mux p prev c k).1).length ≤ ch.toNat + 1 := by
  have h34 : 3 ≤ ch.toNat := by rcases hc with rfl | rfl <;> decide
  unfold mux missChunk
  split_ifs with h1 h2 h3 h4
  · simp [encode]
  · simp [encode]
  · simp [encode]; omega
  · simp [encode]; omega
  · have : ch = 4 := hc.resolve_left fun h => h4 (by simp [deltaUnit, ha h])
    subst this; simp [encode]

theorem formatError_none {cap : Word} (h : formatError cap s = none) :
    (s.channels = 3 ∨ s.channels = 4) ∧ (s.colorspace = 0 ∨ s.colorspace = 1) ∧ s.width ≠ 0 ∧ s.height ≠ 0 ∧
      s.rasterSize ≤ cap.toNat := by
  unfold formatError at h
  split_ifs at h with h1 h2 h3 h4
  exact ⟨h1, h2, fun e => h3 (.inl e), fun e => h3 (.inr e), by omega⟩

theorem configError_none (h : configError s = none) : s.windowsOk = true ∧ formatError s.inLen s = none := by
  unfold configError at h
  split_ifs at h with hw
  exact ⟨hw, h⟩

/-! One engine step. -/

theorem step_of_no_host (h : s.host = []) : step s = engineStep s := by unfold step; rw [h]

/-- The header bytes of the input. -/
def headerBytes (s : State) : List Byte := s.mem.readList s.inBase.toNat headerLen

/-- The states an engine step can answer, with the guards it has checked. -/
inductive Took (s : State) : State → Prop
  | rest : s.phase = .idle → Took s s
  | raised (e : JobError) : s.phase ≠ .idle → Took s (raiseError e s)
  | badHeader (e : JobError) : s.phase = .dHdr → s.windowsOk = true → 22 ≤ s.inLen.toNat →
      headerError (headerBytes s) (s.withHeader (headerBytes s)) = some e →
      Took s (raiseError e (s.withHeader (headerBytes s)))
  | goodHeader : s.phase = .dHdr → s.windowsOk = true → 22 ≤ s.inLen.toNat →
      headerError (headerBytes s) (s.withHeader (headerBytes s)) = none →
      Took s { s.withHeader (headerBytes s) with inPos := BitVec.ofNat 32 headerLen, phase := .dBody }
  | bodyEnd : s.phase = .dBody → s.px.toNat = s.pixelCount → Took s { s with run := 0, phase := .dTrail }
  | runPixel : s.phase = .dBody → s.px.toNat ≠ s.pixelCount → s.run.toNat > 0 →
      Took s (pixelPut s.prev { s with run := s.run - 1 })
  | runChunk (n c : Nat) : s.phase = .dBody → s.px.toNat ≠ s.pixelCount → s.run = 0 → 1 ≤ n →
      s.inPos.toNat + n ≤ s.inLen.toNat → 1 ≤ c → c ≤ 62 → Took s { s.advanceIn n with run := BitVec.ofNat 6 c }
  | indexChunk (n : Nat) (p : Pixel) : s.phase = .dBody → s.px.toNat ≠ s.pixelCount → s.run = 0 → 1 ≤ n →
      s.inPos.toNat + n ≤ s.inLen.toNat → Took s (pixelPut p (s.advanceIn n))
  | pixelChunk (n : Nat) (p : Pixel) : s.phase = .dBody → s.px.toNat ≠ s.pixelCount → s.run = 0 → 1 ≤ n →
      s.inPos.toNat + n ≤ s.inLen.toNat → Took s (pixelPut p ((s.advanceIn n).storePixel p))
  | trailing : s.phase = .dTrail → Took s (raiseError .trailingBytes (s.advanceIn 8))
  | decodeDone : s.phase = .dTrail → s.inPos.toNat + 8 ≤ s.inLen.toNat → Took s (finishJob (s.advanceIn 8))
  | wroteHeader : s.phase = .eHdr → configError s = none → s.outPos.toNat + 14 ≤ s.outCap.toNat →
      Took s { s with
        mem := s.mem.writeList s.outBase.toNat (writeHeader s.width s.height s.channels s.colorspace)
        outPos := BitVec.ofNat 32 headerLen
        phase := .eBody }
  | encodeEnd : s.phase = .eBody → s.px.toNat = s.pixelCount → Took s { s with phase := .eFlush }
  | joined : s.phase = .eBody → s.px.toNat ≠ s.pixelCount → inputPixel s s.px.toNat = s.prev → s.run.toNat < 62 →
      Took s (joinRun s)
  | wroteChunk (p : Pixel) (i : Instr) (doStore : Bool) : s.phase = .eBody → s.px.toNat ≠ s.pixelCount →
      p = inputPixel s s.px.toNat → (i, doStore) = mux p s.prev (s.lookup (hash p)) (hash p) →
      s.outPos.toNat + (runBytes s.run ++ encode i).length ≤ s.outCap.toNat →
      Took s (afterChunk p doStore (emitted (runBytes s.run ++ encode i) s))
  | flushed : s.phase = .eFlush → s.run.toNat > 0 → s.outPos.toNat + 1 ≤ s.outCap.toNat →
      Took s { emitted (runBytes s.run) s with run := 0, phase := .eTrail }
  | noFlush : s.phase = .eFlush → s.run = 0 → Took s { s with phase := .eTrail }
  | encodeDone : s.phase = .eTrail → s.outPos.toNat + 8 ≤ s.outCap.toNat → Took s (finishJob (emitted endMarker s))

theorem run_eq_zero {r : BitVec 6} (h : ¬r.toNat > 0) : r = 0 := BitVec.eq_of_toNat_eq (by simpa using h)

theorem stepDHdr_took (hp : s.phase = .dHdr) (h : stepDHdr s = .next t) : Took s t := by
  unfold stepDHdr at h
  split_ifs at h with hw hl
  · cases h; exact .raised _ (by simp [hp])
  · obtain ⟨-, h⟩ := fetchBytes_next h
    cases h
    unfold minStreamLen at hl
    unfold parseHeader
    split
    · exact .badHeader _ hp hw (by omega) ‹_›
    · exact .goodHeader hp hw (by omega) ‹_›
  · cases h; exact .raised _ (by simp [hp])

theorem chunkStep_took (hp : s.phase = .dBody) (hpx : s.px.toNat ≠ s.pixelCount) (hr : s.run = 0)
    (h : chunkStep s = .next t) : Took s t := by
  unfold chunkStep at h
  split_ifs at h
  · cases h; exact .raised _ (by simp [hp])
  obtain ⟨-, h⟩ := fetchBytes_next h
  dsimp only at h
  split_ifs at h
  · cases h; exact .raised _ (by simp [hp])
  obtain ⟨-, h⟩ := fetchBytes_next h
  obtain ⟨c, hc, rfl⟩ | ⟨p, rfl | rfl⟩ := exec_next h
  · have := decodeChunk_run hc
    exact .runChunk _ _ hp hpx hr (chunkLen_pos _) (by omega) this.1 this.2
  · exact .indexChunk _ _ hp hpx hr (chunkLen_pos _) (by omega)
  · exact .pixelChunk _ _ hp hpx hr (chunkLen_pos _) (by omega)

theorem stepDBody_took (hp : s.phase = .dBody) (h : stepDBody s = .next t) : Took s t := by
  unfold stepDBody at h
  split_ifs at h with h1 h2
  · cases h; exact .bodyEnd hp h1
  · rw [putPixel_next h]; exact .runPixel hp h1 h2
  · exact chunkStep_took hp h1 (run_eq_zero h2) h

theorem stepDTrail_took (hp : s.phase = .dTrail) (h : stepDTrail s = .next t) : Took s t := by
  unfold stepDTrail at h
  split_ifs at h
  · cases h; exact .raised _ (by simp [hp])
  obtain ⟨-, h⟩ := fetchBytes_next h
  cases h
  unfold checkEndMarker
  split_ifs
  · exact .raised _ (by simp [hp])
  · exact .trailing hp
  · exact .decodeDone hp (by omega)

theorem stepEHdr_took (hp : s.phase = .eHdr) (h : stepEHdr s = .next t) : Took s t := by
  unfold stepEHdr at h
  split at h
  · cases h; exact .raised _ (by simp [hp])
  rename_i hc
  unfold headerWrite at h
  split_ifs at h with ho
  · cases h; exact .raised _ (by simp [hp])
  obtain ⟨-, h⟩ := storeBytes_next h
  cases h
  unfold headerLen at ho
  exact .wroteHeader hp hc (by omega)

theorem stepEBody_took (hp : s.phase = .eBody) (h : stepEBody s = .next t) : Took s t := by
  unfold stepEBody at h
  split_ifs at h with hpx
  · cases h; exact .encodeEnd hp hpx
  obtain ⟨-, h⟩ := readPixel_next h
  unfold encodePixel at h
  split_ifs at h with hj
  · cases h; exact .joined hp hpx hj.1 hj.2
  obtain ⟨-, rfl⟩ | ⟨hl, -, h⟩ := emit_next h
  · exact .raised _ (by simp [hp])
  · cases h; exact .wroteChunk _ _ _ hp hpx rfl rfl hl

theorem stepEFlush_took (hp : s.phase = .eFlush) (h : stepEFlush s = .next t) : Took s t := by
  unfold stepEFlush at h
  split_ifs at h with hr
  · obtain ⟨-, rfl⟩ | ⟨hl, -, h⟩ := emit_next h
    · exact .raised _ (by simp [hp])
    · cases h; rw [runBytes_length, if_pos hr] at hl; exact .flushed hp hr hl
  · cases h; exact .noFlush hp (run_eq_zero hr)

theorem stepETrail_took (hp : s.phase = .eTrail) (h : stepETrail s = .next t) : Took s t := by
  obtain ⟨-, rfl⟩ | ⟨hl, -, h⟩ := emit_next h
  · exact .raised _ (by simp [hp])
  · cases h; exact .encodeDone hp hl

/-- What an engine step can do. -/
theorem engineStep_took (h : engineStep s = .next t) : Took s t := by
  unfold engineStep at h
  split at h <;> rename_i hp
  · cases h; exact .rest hp
  · exact stepDHdr_took hp h
  · exact stepDBody_took hp h
  · exact stepDTrail_took hp h
  · exact stepEHdr_took hp h
  · exact stepEBody_took hp h
  · exact stepEFlush_took hp h
  · exact stepETrail_took hp h

/-! Host accesses. -/

/-- What a register access can do. -/
theorem regAccess_next {size off : Nat} {k : State} (h : regAccess size off k = .next t) :
    size = 4 ∧ off % 4 = 0 ∧ off < 64 ∧ t = k := by
  unfold regAccess checkRegAccess regBlockSize at h
  by_cases h1 : size ≠ 4 ∨ off % 4 ≠ 0
  · rw [if_pos h1] at h; cases h
  · by_cases h2 : 64 ≤ off
    · rw [if_neg h1, if_pos h2] at h; cases h
    · rw [if_neg h1, if_neg h2] at h; cases h
      exact ⟨by omega, by omega, by omega, rfl⟩

theorem regAccess_of_aligned {off : Nat} (h : off % 4 = 0) (hlt : off < 64) (k : State) : regAccess 4 off k = .next k := by
  unfold regAccess checkRegAccess regBlockSize
  rw [if_neg (by omega), if_neg (by omega)]

/-- What a host write of memory can do. -/
theorem hostMemWrite_next {a : Word} {v : Byte} (h : hostMemWrite a v s = .next t) :
    t = { s with mem := s.mem.write a.toNat v } := by
  unfold hostMemWrite at h
  split_ifs at h
  cases h; rfl

end Sys2Proof.Machine
end

