-- ==== Sys2Proof/Tests/Slice0.lean ====
section
/-! SUPPORT. The model's own tests. The expected values come from spec/95_test_vectors.md (the part is named) or from the
examples of the rules; none is the model's own answer. The witnesses at the end meet the hypotheses of the statements. -/

namespace Sys2Proof.Machine.Test

/-! What the tests read off an outcome. -/

/-- The next state, or the reset state where there is none. -/
def stateOf : Outcome State Fault Refusal → State
  | .next t => t
  | _ => State.reset

/-- The outcome is a next state. -/
def completes : Outcome State Fault Refusal → Bool
  | .next _ => true
  | _ => false

/-- The outcome is this refusal. -/
def refusedWith (r : Refusal) : Outcome State Fault Refusal → Bool
  | .refused r' => decide (r' = r)
  | _ => false

/-- A decode body: a `w` by 1 image of `c` channels, `prev` given, cache cleared, output at 0x2000, and `bs` as the next
stream bytes at 0x100E. -/
def decoding (w : Word) (c : Byte) (prev : Pixel) (bs : List Byte) : State :=
  { bodyJob State.reset with
    width := w
    channels := c
    inLen := 64
    outCap := 64
    prev := prev
    mem := Memory.empty.writeList 0x100E bs }

/-- An encode body past its header: a `w` by 1 four-channel image at 0x1000 whose next pixel is `p`, output at
0x2000. -/
def encoding (w : Word) (prev : Pixel) (run : BitVec 6) (p : Pixel) : State :=
  { State.reset with
    mode := .encode
    width := w
    height := 1
    channels := 4
    inBase := 0x1000
    inLen := 256
    outBase := 0x2000
    outCap := 64
    outPos := 14
    phase := .eBody
    prev := prev
    run := run
    mem := Memory.empty.writeList 0x1000 [p.r, p.g, p.b, p.a] }

/-- A decode job just started on the bytes at 0x1000. -/
def decodeStart (bs : List Byte) (cap : Word) : State :=
  startJob { State.reset with
    inBase := 0x1000
    inLen := BitVec.ofNat 32 bs.length
    outBase := 0x2000
    outCap := cap
    mem := Memory.empty.writeList 0x1000 bs }

/-- An encode job just started on a `w` by 1 raster of `c` channels at 0x1000. -/
def encodeStart (w : Word) (c : Byte) (bs : List Byte) (cap : Word) : State :=
  startJob { State.reset with
    mode := .encode
    width := w
    height := 1
    channels := c
    inBase := 0x1000
    inLen := BitVec.ofNat 32 bs.length
    outBase := 0x2000
    outCap := cap
    mem := Memory.empty.writeList 0x1000 bs }

/-- The bytes a state holds at the start of its output window. -/
def output (s : State) (n : Nat) : List Byte := s.mem.readList s.outBase.toNat n

/-! Well-formedness refuses an ill-formed term for each check (R81, part B3). -/

theorem test_wf_refuses_index_64 : (Instr.index 64).wellFormed = false := by decide
theorem test_wf_refuses_diff_red_2 : (Instr.diff 2 0 0).wellFormed = false := by decide
theorem test_wf_refuses_diff_green_below : (Instr.diff 0 (-3) 0).wellFormed = false := by decide
theorem test_wf_refuses_diff_blue_2 : (Instr.diff 0 0 2).wellFormed = false := by decide
theorem test_wf_refuses_luma_green_32 : (Instr.luma 32 0 0).wellFormed = false := by decide
theorem test_wf_refuses_luma_green_below : (Instr.luma (-33) 0 0).wellFormed = false := by decide
theorem test_wf_refuses_luma_red_8 : (Instr.luma 0 8 0).wellFormed = false := by decide
theorem test_wf_refuses_luma_blue_below : (Instr.luma 0 0 (-9)).wellFormed = false := by decide
theorem test_wf_refuses_run_0 : (Instr.run 0).wellFormed = false := by decide
theorem test_wf_refuses_run_63 : (Instr.run 63).wellFormed = false := by decide
theorem test_wf_accepts_bounds :
    (Instr.index 63).wellFormed && (Instr.diff (-2) 1 (-2)).wellFormed && (Instr.luma 31 (-8) 7).wellFormed &&
      (Instr.luma (-32) 7 (-8)).wellFormed && (Instr.run 1).wellFormed && (Instr.run 62).wellFormed = true := by decide

/-! Decoding: words written out bit by bit from R68 to R73. -/

theorem test_decode_index : decode [0b00111111] = .ok (.index 63, []) := by decide
theorem test_decode_diff : decode [0b01000110] = .ok (.diff (-2) (-1) 0, []) := by decide
theorem test_decode_luma : decode [0b10101010, 0b00001111, 0x55] = .ok (.luma 10 (-8) 7, [0x55]) := by decide
theorem test_decode_run : decode [0b11111101] = .ok (.run 62, []) := by decide
theorem test_decode_rgb : decode [0b11111110, 1, 2, 3] = .ok (.rgb 1 2 3, []) := by decide
theorem test_decode_rgba : decode [0b11111111, 1, 2, 3, 4] = .ok (.rgba 1 2 3 4, []) := by decide
theorem test_decode_nothing : decode [] = .error .noBytes := by decide
theorem test_decode_cut_short : decode [0b11111111, 1, 2, 3] = .error (.cutShort 5 4) := by decide

/-- Part B3: the listing lines and their bytes. -/
theorem test_listing_lines :
    assemble [.chunk (.index 63), .chunk (.diff (-2) (-2) (-2)), .chunk (.diff 0 0 0), .chunk (.luma (-32) (-8) (-8)),
      .chunk (.luma 31 7 7), .chunk (.luma 10 (-8) 7), .chunk (.run 1), .chunk (.run 45), .chunk (.rgb 1 2 3),
      .chunk (.rgba 1 2 3 4), .fill 129] =
    some [0x3F, 0x40, 0x6A, 0x80, 0x00, 0xBF, 0xFF, 0xAA, 0x0F, 0xC0, 0xEC, 0xFE, 1, 2, 3, 0xFF, 1, 2, 3, 4,
      0xFD, 0xFD, 0xC4] := by decide
theorem test_listing_refuses : assemble [.chunk (.run 62), .chunk (.run 63)] = none := by decide
theorem test_listing_header : assemble [.qoi 640 480 3 1, .endMark, .raw [0x71]] =
    some [0x71, 0x6F, 0x69, 0x66, 0, 0, 0x02, 0x80, 0, 0, 0x01, 0xE0, 3, 1, 0, 0, 0, 0, 0, 0, 0, 1, 0x71] := by decide

/-! The hash unit (part B1). -/

theorem test_hash_collision : hash ⟨10, 20, 30, 255⟩ = 9 ∧ hash ⟨3, 0, 0, 0⟩ = 9 := by decide
theorem test_hash_alpha : hash ⟨255, 255, 255, 255⟩ = 38 ∧ hash ⟨0, 0, 0, 255⟩ = 53 := by decide

/-! The chunks, one step each (part B5 and the examples of R136 to R142). -/

theorem test_index_unwritten_entry :
    let t := stateOf (step (decoding 2 4 startPixel [0x35]))
    t.prev = ⟨0, 0, 0, 0⟩ ∧ t.px = 1 ∧ t.outPos = 4 ∧ t.inPos = 15 ∧ output t 4 = [0, 0, 0, 0] := by decide
theorem test_index_does_not_store :
    (stateOf (execIndex 31 { decoding 1 4 startPixel [] with
      cache := clearedCache.set 31 ⟨9, 9, 9, 4⟩ })).cache[51] = zeroPixel := by decide

theorem test_diff_wraps_and_stores :
    let t := stateOf (step (decoding 2 4 ⟨255, 255, 255, 255⟩ [0x7F]))
    t.prev = ⟨0, 0, 0, 255⟩ ∧ t.cache[53] = ⟨0, 0, 0, 255⟩ ∧ output t 4 = [0, 0, 0, 0xFF] := by decide
theorem test_diff_fields_in_order :
    (stateOf (step (decoding 1 4 ⟨100, 100, 100, 255⟩ [0x5B]))).prev = ⟨99, 100, 101, 255⟩ := by decide

theorem test_luma_relative_deltas :
    let t := stateOf (step (decoding 1 4 ⟨100, 100, 100, 255⟩ [0xAA, 0x0F]))
    t.prev = ⟨102, 110, 117, 255⟩ ∧ t.cache[0] = ⟨102, 110, 117, 255⟩ ∧ t.inPos = 16 := by decide
theorem test_luma_wraps : (stateOf (step (decoding 1 4 startPixel [0x80, 0x00]))).prev = ⟨216, 224, 216, 255⟩ := by decide

theorem test_run_loads_counter :
    let t := stateOf (step (decoding 5 4 startPixel [0xC2]))
    t.run = 3 ∧ t.px = 0 ∧ t.outPos = 0 ∧ t.inPos = 15 := by decide
theorem test_run_62 : (stateOf (step (decoding 5 4 startPixel [0xFD]))).run = 62 := by decide

theorem test_rgb_keeps_alpha :
    let t := stateOf (step (decoding 2 4 ⟨1, 2, 3, 4⟩ [0xFE, 9, 9, 9]))
    t.prev = ⟨9, 9, 9, 4⟩ ∧ t.cache[51] = ⟨9, 9, 9, 4⟩ ∧ t.inPos = 18 ∧ output t 4 = [9, 9, 9, 4] := by decide

theorem test_rgba_three_channels_keeps_alpha_inside :
    let t := stateOf (step (decoding 2 3 startPixel [0xFF, 10, 20, 30, 0]))
    t.prev = ⟨10, 20, 30, 0⟩ ∧ t.cache[20] = ⟨10, 20, 30, 0⟩ ∧ t.outPos = 3 ∧ output t 4 = [10, 20, 30, 0] := by decide
theorem test_rgba_length : (stateOf (step (decoding 1 4 startPixel [0xFF, 0, 0, 0, 0x80]))).inPos = 19 := by decide

/-! The decoder's other steps. -/

/-- The example of R134, with three channels. -/
theorem test_run_pixel :
    let t := stateOf (step { decoding 9 3 ⟨7, 7, 7, 255⟩ [] with run := 2, px := 5, outPos := 15 })
    t.run = 1 ∧ t.px = 6 ∧ t.mem.readList 0x200F 3 = [7, 7, 7] := by decide

/-- D4: the copies past the last pixel are dropped. -/
theorem test_body_end_drops_run :
    let t := stateOf (step { decoding 2 4 startPixel [] with run := 3, px := 2, outPos := 8 })
    t.run = 0 ∧ t.phase = .dTrail ∧ t.outPos = 8 := by decide

/-- X15: an RGBA chunk with four of its five bytes. -/
theorem test_chunk_cut_short :
    let t := stateOf (step { decoding 2 4 startPixel [0xFF, 1, 2, 3] with inLen := 18 })
    t.statusWord = 0x64 ∧ t.inPos = 14 ∧ t.px = 0 := by decide

/-- X33: a byte after the marker, with and without STRICT_END. -/
theorem test_trailing_byte_strict :
    let s := { decoding 1 4 startPixel [0, 0, 0, 0, 0, 0, 0, 1, 0x55] with phase := .dTrail, px := 1, inLen := 23 }
    (stateOf (step { s with strictEnd := true })).statusWord = 0xA4 ∧
    (stateOf (step { s with strictEnd := true })).inPos = 22 ∧ (stateOf (step s)).statusWord = 2 := by decide
theorem test_end_marker_wrong :
    (stateOf (step { decoding 1 4 startPixel [0, 0, 0, 0, 0, 0, 0, 2] with phase := .dTrail, px := 1 })).statusWord =
      0x74 := by decide

/-- Part B2 and A1: the header step. -/
def goodHeader : List Byte := [0x71, 0x6F, 0x69, 0x66, 0, 0, 2, 0x80, 0, 0, 1, 0xE0, 3, 1, 0, 0, 0, 0, 0, 0, 0, 1]

theorem test_header_good :
    let t := stateOf (step (decodeStart goodHeader 921600))
    t.width = 640 ∧ t.height = 480 ∧ t.formatWord = 0x103 ∧ t.inPos = 14 ∧ t.phase = .dBody := by decide
theorem test_header_dimension_overflow :
    (stateOf (step (decodeStart goodHeader 921599))).statusWord = 0x54 := by decide
theorem test_header_bad_magic_first :
    let t := stateOf (step (decodeStart ([0, 0, 0, 0] ++ (goodHeader.drop 4).set 8 7) 4))
    t.statusWord = 0x14 ∧ t.width = 640 ∧ t.channels = 7 := by decide
theorem test_header_short : (stateOf (step (decodeStart (goodHeader.take 21) 4))).statusWord = 0x64 := by decide

/-- X29: a window past 2^32. -/
theorem test_header_window_wraps :
    (stateOf (step { decodeStart goodHeader 4 with inBase := 0xFFFFFFF0, inLen := 0x20 })).statusWord = 0x94 := by decide

/-! The encoder (part B4). -/

/-- E3 and E5: the run grows to 62, then is closed before the pixel's INDEX. -/
theorem test_encode_joins_run :
    let t := stateOf (step (encoding 9 ⟨7, 7, 7, 255⟩ 61 ⟨7, 7, 7, 255⟩))
    t.run = 62 ∧ t.outPos = 14 ∧ t.px = 1 ∧ t.inPos = 4 := by decide
theorem test_encode_run_cap :
    let t := stateOf (step { encoding 9 ⟨7, 7, 7, 255⟩ 62 ⟨7, 7, 7, 255⟩ with
      cache := clearedCache.set 30 ⟨7, 7, 7, 255⟩ })
    t.run = 0 ∧ t.outPos = 16 ∧ t.mem.readList 0x200E 2 = [0xFD, 0x1E] := by decide

/-- E6. -/
theorem test_encode_closes_run_then_diff :
    let t := stateOf (step (encoding 9 ⟨7, 7, 7, 255⟩ 1 ⟨8, 8, 8, 255⟩))
    t.mem.readList 0x200E 2 = [0xC0, 0x7F] ∧ t.cache[45] = ⟨8, 8, 8, 255⟩ ∧ t.prev = ⟨8, 8, 8, 255⟩ := by decide

/-- E14, E15, E19, E21, E25, E28: the multiplexer's rows. -/
theorem test_mux_diff_wraps : (mux ⟨0, 255, 0, 255⟩ ⟨255, 0, 255, 255⟩ zeroPixel 48).1 = .diff 1 (-1) 1 := by decide
theorem test_mux_luma_beyond_diff :
    (mux ⟨102, 100, 100, 255⟩ ⟨100, 100, 100, 255⟩ zeroPixel 23).1 = .luma 0 2 0 := by decide
theorem test_mux_luma_bounds :
    (mux ⟨102, 110, 117, 255⟩ ⟨100, 100, 100, 255⟩ zeroPixel 0).1 = .luma 10 (-8) 7 := by decide
theorem test_mux_rgb_green_32 :
    (mux ⟨132, 132, 132, 255⟩ ⟨100, 100, 100, 255⟩ zeroPixel 49).1 = .rgb 132 132 132 := by decide
theorem test_mux_rgba_alpha : (mux ⟨0, 0, 0, 128⟩ ⟨201, 101, 51, 255⟩ zeroPixel 0).1 = .rgba 0 0 0 128 := by decide

/-- X24: a chunk that does not fit is not written at all. -/
theorem test_encode_overflow :
    let t := stateOf (step { encoding 1 startPixel 0 ⟨10, 20, 30, 255⟩ with outCap := 17 })
    t.statusWord = 0x84 ∧ t.outPos = 14 ∧ t.px = 0 ∧ t.prev = startPixel := by decide

/-- The example of R114, X22 and X5. -/
theorem test_encode_header :
    let t := stateOf (step (encodeStart 1 4 [1, 1, 1, 255] 64))
    output t 14 = [0x71, 0x6F, 0x69, 0x66, 0, 0, 0, 1, 0, 0, 0, 1, 4, 0] ∧ t.outPos = 14 ∧ t.phase = .eBody := by decide
theorem test_encode_header_errors :
    (stateOf (step (encodeStart 1 4 [1, 1, 1, 255] 13))).statusWord = 0x84 ∧
    (stateOf (step (encodeStart 1 0 [1, 1, 1, 255] 64))).statusWord = 0x24 ∧
    (stateOf (step (encodeStart 2 4 [1, 1, 1, 255] 64))).statusWord = 0x54 := by decide

/-- The example of R127 and the trailer. -/
theorem test_encode_flush :
    let t := stateOf (step { encoding 45 startPixel 45 startPixel with phase := .eFlush })
    t.mem.readList 0x200E 1 = [0xEC] ∧ t.run = 0 ∧ t.phase = .eTrail := by decide
theorem test_encode_trailer :
    let t := stateOf (step { encoding 1 startPixel 0 startPixel with phase := .eTrail })
    t.mem.readList 0x200E 8 = [0, 0, 0, 0, 0, 0, 0, 1] ∧ t.statusWord = 2 ∧ t.outPos = 22 := by decide

/-! Registers, interrupt and reset (part B7). -/

theorem test_format_reserved_bits :
    let t := stateOf (hostStep (.regWrite 4 0x10 0xFFFFFFFF) State.reset)
    regValue 0x10 t = 0x0000FFFF := by decide
theorem test_start_reads_busy :
    let t := stateOf (hostStep (.regWrite 4 0 0xF) State.reset)
    t.ctrlWord = 0xE ∧ t.statusWord = 1 ∧ t.phase = .eHdr := by decide
theorem test_error_raises_irq :
    let t := stateOf (engineStep (stateOf (hostStep (.regWrite 4 0 0xF) State.reset)))
    t.statusWord = 0x24 ∧ t.irq = true := by decide
theorem test_ack_clears_error :
    let t := stateOf (hostStep (.regWrite 4 4 4) { State.reset with err := true, errcode := 2, irqEn := true })
    t.statusWord = 0 ∧ t.irq = false := by decide
theorem test_busy_write_ignored :
    let t := stateOf (hostStep (.regWrite 4 8 5) (encodeStart 64 4 [] 64))
    t.width = 64 := by decide
theorem test_busy_ctrl_write :
    let t := stateOf (hostStep (.regWrite 4 0 5) (encodeStart 64 4 [] 64))
    t.ctrlWord = 6 ∧ t.phase = .eHdr := by decide
theorem test_narrow_access_refused :
    refusedWith .undefinedRegisterAccess (hostStep (.regRead 2 0) State.reset) = true := by decide
theorem test_misaligned_access_refused :
    refusedWith .undefinedRegisterAccess (hostStep (.regWrite 4 2 0) State.reset) = true := by decide
theorem test_window_write_refused :
    refusedWith .hostWritesInputWindow (hostStep (.memWrite 0x1000 0) (encodeStart 1 4 [1, 2, 3, 4] 64)) = true := by
  decide
theorem test_reset_event :
    let t := stateOf (hostStep .rst (encodeStart 64 4 [] 64))
    t.statusWord = 0 ∧ t.width = 0 ∧ t.phase = .idle := by decide

/-- After an error the output window is unspecified and the bytes around it are not (R165). -/
theorem test_error_forgets_output_window :
    let t := raiseError .truncatedStream (decoding 1 4 startPixel [5])
    t.mem.spans = [⟨0x2000, 0x2040, 0⟩] ∧ t.mem.read 0x100E = 5 ∧ t.mem.read 0x2040 = 0 := by decide
/-- A byte written after the error is that byte again. -/
theorem test_write_into_forgotten_window :
    let m := (raiseError .truncatedStream (decoding 1 4 startPixel [])).mem.write 0x2010 7
    m.read 0x2010 = 7 ∧ m.spans = [⟨0x2000, 0x2010, 0⟩, ⟨0x2011, 0x2040, 0⟩] := by decide

/-! A table word runs as the first instruction after reset. -/

theorem test_fetch_word_runs :
    let t := stateOf (step (State.reset.withFetchWord 32 0x1E140AFE))
    t.prev = ⟨10, 20, 30, 0⟩ ∧ t.inPos = 18 := by decide
theorem test_fetch_word_short_row :
    (stateOf (step (State.reset.withFetchWord 8 0xFF))).prev = ⟨0, 0, 0, 0⟩ := by decide

/-! Witnesses: for each statement with hypotheses, a state and operands that meet them together, one for each of its
cases, at the ends of the ranges. -/

theorem next_of_completes {o : Outcome State Fault Refusal} (h : completes o = true) : o = .next (stateOf o) := by
  cases o <;> simp_all [completes, stateOf]

/-- A state during a job with no flag set and canonical memory meets the invariant if its phase's conditions hold. -/
theorem inv_of_phase {s : State} (hm : s.mem.wf) (hd : s.done = false) (he : s.err = false) (hc : s.errcode = 0)
    (hp : PhaseOk s) : Inv s :=
  ⟨hm, ⟨by simp [hd], fun _ => ⟨hd, he⟩, fun _ => hc, by simp [he]⟩, hp⟩

/-- A decode body at its last pixel with a RUN pending. -/
def bodyAtEnd : State := { decoding 2 4 startPixel [] with run := 3, px := 2, outPos := 8 }

/-- A decode job before its end marker, which stands at offset 14. -/
def beforeMarker (marker : List Byte) (inLen : Word) (strict : Bool) : State :=
  { decoding 1 4 startPixel marker with phase := .dTrail, px := 1, outPos := 4, inLen := inLen, strictEnd := strict }

/-- An encode body at its second pixel `p`, with a pending run. -/
def secondPixel (w : Word) (prev : Pixel) (run : BitVec 6) (p : Pixel) (cap : Word) : State :=
  { encoding w prev run ⟨0, 0, 0, 0⟩ with
    px := 1
    inPos := 4
    outCap := cap
    mem := Memory.empty.writeList 0x1004 [p.r, p.g, p.b, p.a] }

/-- An encode body of a 1 by 1 three-channel image. -/
def encodingThree : State := { encoding 1 startPixel 0 ⟨9, 9, 9, 0⟩ with channels := 3 }

/-- An encode job at its end, in the given phase. -/
def encodeAtEnd (ph : Phase) (run : BitVec 6) (cap : Word) : State :=
  { encoding 1 startPixel run startPixel with phase := ph, px := 1, inPos := 4, outCap := cap }

theorem inv_decodeStart_good : Inv (decodeStart goodHeader 921600) :=
  inv_of_phase (by decide) rfl rfl rfl ⟨rfl, by constructor <;> rfl⟩
theorem inv_encodeStart_one : Inv (encodeStart 1 4 [10, 20, 30, 255] 64) :=
  inv_of_phase (by decide) rfl rfl rfl ⟨rfl, by constructor <;> rfl⟩
theorem inv_decoding_run : Inv (decoding 5 4 startPixel [0xC2]) :=
  inv_of_phase (by decide) rfl rfl rfl ⟨by constructor <;> decide, rfl, by decide, by decide, by decide, by decide, by decide⟩
theorem inv_beforeMarker : Inv (beforeMarker [0, 0, 0, 0, 0, 0, 0, 1] 22 true) :=
  inv_of_phase (by decide) rfl rfl rfl
    ⟨⟨by constructor <;> decide, rfl, by decide, by decide, by decide, by decide, by decide⟩, by decide, rfl⟩
theorem inv_encoding_first : Inv (encoding 1 startPixel 0 ⟨10, 20, 30, 255⟩) :=
  inv_of_phase (by decide) rfl rfl rfl
    ⟨by constructor <;> decide, rfl, by decide, by decide, by decide, by decide, by decide, by decide, by decide⟩
theorem inv_secondPixel_room : Inv (secondPixel 64 ⟨7, 7, 7, 255⟩ 62 ⟨7, 7, 7, 255⟩ 16) :=
  inv_of_phase (by decide) rfl rfl rfl
    ⟨by constructor <;> decide, rfl, by decide, by decide, by decide, by decide, by decide, by decide, by decide⟩
theorem inv_secondPixel_no_room : Inv (secondPixel 64 ⟨7, 7, 7, 255⟩ 62 ⟨7, 7, 7, 255⟩ 15) :=
  inv_of_phase (by decide) rfl rfl rfl
    ⟨by constructor <;> decide, rfl, by decide, by decide, by decide, by decide, by decide, by decide, by decide⟩
theorem inv_secondPixel_joins : Inv (secondPixel 64 ⟨7, 7, 7, 255⟩ 61 ⟨7, 7, 7, 255⟩ 16) :=
  inv_of_phase (by decide) rfl rfl rfl
    ⟨by constructor <;> decide, rfl, by decide, by decide, by decide, by decide, by decide, by decide, by decide⟩
theorem inv_encodingThree : Inv encodingThree :=
  inv_of_phase (by decide) rfl rfl rfl
    ⟨by constructor <;> decide, rfl, by decide, by decide, by decide, by decide, by decide, by decide, by decide⟩
theorem inv_encodeAtEnd : Inv (encodeAtEnd .eTrail 0 22) :=
  inv_of_phase (by decide) rfl rfl rfl
    ⟨⟨by constructor <;> decide, rfl, by decide, by decide, by decide, by decide, by decide, by decide, by decide⟩,
      by decide, rfl⟩

/-! Reset and the invariant. -/

theorem witness_ResetEvent_idle : State.reset.busy = false := rfl
theorem witness_ResetEvent_outside :
    (encodeStart 1 4 [] 64).busy = true ∧ (encodeStart 1 4 [] 64).inOutputWindow 0x1FFF = false ∧
    (encodeStart 1 4 [] 64).inOutputWindow 0x2040 = false := by decide
theorem witness_EveryStepKeepsTheInvariant :
    Inv (decoding 5 4 startPixel [0xC2]) ∧ ∃ t, step (decoding 5 4 startPixel [0xC2]) = .next t :=
  ⟨inv_decoding_run, _, next_of_completes (by decide)⟩
theorem witness_InvariantStatesNeverFault : Inv (decodeStart goodHeader 921600) := inv_decodeStart_good
theorem witness_EngineStepsAlwaysComplete : Inv (encodeAtEnd .eTrail 0 22) := inv_encodeAtEnd
theorem witness_EqualMemoriesAreEqualData :
    let m := (Memory.empty.write 1 5).write 2 6
    let m' := (Memory.empty.write 2 6).write 1 5
    m.wf ∧ m'.wf ∧ m.spans = [] ∧ m'.spans = [] ∧ ∀ a, m.read a = m'.read a :=
  ⟨by decide, by decide, rfl, rfl, fun _ => rfl⟩

/-! Encoding. -/

theorem witness_DecodeOfEncode :
    (Instr.index 63).wellFormed = true ∧ (Instr.diff (-2) 1 0).wellFormed = true ∧
    (Instr.luma 31 (-8) 7).wellFormed = true ∧ (Instr.run 62).wellFormed = true ∧
    (Instr.rgb 255 0 255).wellFormed = true ∧ (Instr.rgba 0 255 0 255).wellFormed = true := by decide
theorem witness_EncodeOfDecode : decode [0b10111111, 0xF0, 0x55] = .ok (.luma 31 7 (-8), [0x55]) := by decide
theorem witness_FirstByte_index : (0x00 : Byte).toNat ≤ 0x3F ∧ (0x3F : Byte).toNat ≤ 0x3F := by decide
theorem witness_FirstByte_diff : 0x40 ≤ (0x40 : Byte).toNat ∧ (0x7F : Byte).toNat ≤ 0x7F := by decide
theorem witness_FirstByte_luma : 0x80 ≤ (0x80 : Byte).toNat ∧ (0xBF : Byte).toNat ≤ 0xBF := by decide
theorem witness_FirstByte_run : 0xC0 ≤ (0xC0 : Byte).toNat ∧ (0xFD : Byte).toNat ≤ 0xFD := by decide
theorem witness_FirstByte_rgb : (0xFE : Byte).toNat = 0xFE ∧ (0xFF : Byte).toNat = 0xFF := by decide
theorem witness_Fill : 1 ≤ 1 ∧ 1 ≤ 62 ∧ 1 ≤ 63 := by decide

/-! Chunks. -/

/-- A state whose next output pixel ends at the last byte of the memory space. -/
def lastPixel : State := { decoding 1 4 startPixel [] with outBase := 0xFFFFFFFC, outCap := 4 }

theorem witness_Run : 1 ≤ 1 ∧ 1 ≤ 62 ∧ 62 ≤ 62 := by decide
theorem witness_Index : 0 < 64 ∧ 63 < 64 ∧ OutPixelFits lastPixel := by decide
theorem witness_Diff : OutPixelFits (decoding 1 3 startPixel []) ∧ OutPixelFits lastPixel := by decide
theorem witness_Luma : OutPixelFits lastPixel := by decide
theorem witness_Rgb : OutPixelFits lastPixel := by decide
theorem witness_Rgba : OutPixelFits (decoding 1 3 startPixel []) := by decide

/-! The decoder's steps. -/

/-- An RGBA chunk that ends at the end of the input. -/
theorem witness_StepRunsTheDecodedChunk :
    let s := { decoding 1 4 startPixel [0xFF, 1, 2, 3, 4] with inLen := 19 }
    s.host = [] ∧ s.phase = .dBody ∧ s.px.toNat ≠ s.pixelCount ∧ s.run = 0 ∧
    s.inBase.toNat + s.inLen.toNat ≤ 2 ^ 32 ∧ s.inPos.toNat ≤ s.inLen.toNat ∧
    decode (s.mem.readList (s.inBase.toNat + s.inPos.toNat) (s.inLen.toNat - s.inPos.toNat)) =
      .ok (.rgba 1 2 3 4, []) := by decide
/-- The same chunk without its last byte, and no byte at all. -/
theorem witness_CutShortChunk : ∀ x ∈ ([(18, .cutShort 5 4), (14, .noBytes)] : List (Word × DecodeError)),
    let s := { decoding 1 4 startPixel [0xFF, 1, 2, 3, 4] with inLen := x.1 }
    s.host = [] ∧ s.phase = .dBody ∧ s.px.toNat ≠ s.pixelCount ∧ s.run = 0 ∧
    s.inBase.toNat + s.inLen.toNat ≤ 2 ^ 32 ∧ s.inPos.toNat ≤ s.inLen.toNat ∧
    decode (s.mem.readList (s.inBase.toNat + s.inPos.toNat) (s.inLen.toNat - s.inPos.toNat)) = .error x.2 := by decide
theorem witness_RunPixelStep : ∀ r ∈ ([1, 62] : List (BitVec 6)),
    let s := { decoding 5 4 startPixel [] with run := r }
    s.host = [] ∧ s.phase = .dBody ∧ s.px.toNat ≠ s.pixelCount ∧ s.run ≠ 0 ∧ OutPixelFits s := by decide
theorem witness_BodyEnd :
    bodyAtEnd.host = [] ∧ bodyAtEnd.phase = .dBody ∧ bodyAtEnd.px.toNat = bodyAtEnd.pixelCount ∧ bodyAtEnd.run ≠ 0 := by
  decide
theorem witness_EndMarker_truncated :
    let s := beforeMarker [0, 0, 0, 0, 0, 0, 0] 21 false
    s.host = [] ∧ s.phase = .dTrail ∧ s.inBase.toNat + s.inLen.toNat ≤ 2 ^ 32 ∧ s.inPos.toNat + 8 > s.inLen.toNat := by
  decide
theorem witness_EndMarker_mismatch :
    let s := beforeMarker [0, 0, 0, 0, 0, 0, 0, 2] 22 false
    s.host = [] ∧ s.phase = .dTrail ∧ s.inBase.toNat + s.inLen.toNat ≤ 2 ^ 32 ∧ s.inPos.toNat + 8 ≤ s.inLen.toNat ∧
    s.mem.readList (s.inBase.toNat + s.inPos.toNat) 8 ≠ [0, 0, 0, 0, 0, 0, 0, 1] := by decide
theorem witness_EndMarker_trailing :
    let s := beforeMarker [0, 0, 0, 0, 0, 0, 0, 1] 23 true
    s.host = [] ∧ s.phase = .dTrail ∧ s.inBase.toNat + s.inLen.toNat ≤ 2 ^ 32 ∧ s.inPos.toNat + 8 ≤ s.inLen.toNat ∧
    s.mem.readList (s.inBase.toNat + s.inPos.toNat) 8 = [0, 0, 0, 0, 0, 0, 0, 1] ∧
    (s.strictEnd = true ∧ s.inPos.toNat + 8 < s.inLen.toNat) := by decide
theorem witness_EndMarker_done :
    let s := beforeMarker [0, 0, 0, 0, 0, 0, 0, 1] 22 true
    s.host = [] ∧ s.phase = .dTrail ∧ s.inBase.toNat + s.inLen.toNat ≤ 2 ^ 32 ∧ s.inPos.toNat + 8 ≤ s.inLen.toNat ∧
    s.mem.readList (s.inBase.toNat + s.inPos.toNat) 8 = [0, 0, 0, 0, 0, 0, 0, 1] ∧
    ¬(s.strictEnd = true ∧ s.inPos.toNat + 8 < s.inLen.toNat) := by decide

/-- A decode job just started on a header with the given bytes 0, 11, 12 and 13. -/
def headerStart (b0 height channels colorspace : Byte) (cap : Word) : State :=
  decodeStart [b0, 0x6F, 0x69, 0x66, 0, 0, 0, 1, 0, 0, 0, height, channels, colorspace, 0, 0, 0, 0, 0, 0, 0, 1] cap

theorem inv_headerStart (b0 height channels colorspace : Byte) (cap : Word) :
    Inv (headerStart b0 height channels colorspace cap) :=
  inv_of_phase (Memory.wf_writeList _ Memory.wf_empty (by show 0x1000 + 22 ≤ memSize; decide)) rfl rfl rfl
    ⟨rfl, by constructor <;> rfl⟩

theorem witness_HeaderStep_overlap :
    let s := { headerStart 0x71 1 4 0 4 with outBase := 0x1015 }
    Inv s ∧ s.host = [] ∧ s.phase = .dHdr ∧ ¬WindowsFit s :=
  ⟨inv_of_phase (by decide) rfl rfl rfl ⟨rfl, by constructor <;> rfl⟩, rfl, rfl, by decide⟩
theorem witness_HeaderStep_wrap :
    let s := { headerStart 0x71 1 4 0 4 with inBase := 0xFFFFFFEB }
    Inv s ∧ s.host = [] ∧ s.phase = .dHdr ∧ ¬WindowsFit s :=
  ⟨inv_of_phase (by decide) rfl rfl rfl ⟨rfl, by constructor <;> rfl⟩, rfl, rfl, by decide⟩
theorem witness_HeaderStep_short :
    let s := { headerStart 0x71 1 4 0 4 with inLen := 21 }
    Inv s ∧ s.host = [] ∧ s.phase = .dHdr ∧ WindowsFit s ∧ s.inLen.toNat < 22 :=
  ⟨inv_of_phase (by decide) rfl rfl rfl ⟨rfl, by constructor <;> rfl⟩, rfl, rfl, by decide⟩
theorem witness_HeaderStep (b0 height channels colorspace : Byte) (cap : Word) (hc : cap.toNat ≤ 4) :
    let s := headerStart b0 height channels colorspace cap
    Inv s ∧ s.host = [] ∧ s.phase = .dHdr ∧ WindowsFit s ∧ 22 ≤ s.inLen.toNat :=
  ⟨inv_headerStart .., rfl, rfl, ⟨by show 0x1000 + 22 ≤ 2 ^ 32; decide, by show 0x2000 + cap.toNat ≤ 2 ^ 32; omega,
    fun _ => .inl (by show 0x1000 + 22 ≤ 0x2000; decide)⟩, by show 22 ≤ 22; decide⟩
theorem witness_HeaderStep_checks :
    headerCheckFailed (headerStart 0x70 0 5 2 0) = 1 ∧ headerCheckFailed (headerStart 0x71 0 5 2 0) = 2 ∧
    headerCheckFailed (headerStart 0x71 0 3 2 0) = 3 ∧ headerCheckFailed (headerStart 0x71 0 3 1 0) = 4 ∧
    headerCheckFailed (headerStart 0x71 1 4 0 3) = 5 ∧ headerCheckFailed (headerStart 0x71 1 4 0 4) = 0 := by decide

/-! The encoder's steps. -/

/-- The premises of the encoder's header statement, with the check that fails. -/
def encoderHeader (s : State) (check : Nat) : Prop :=
  s.host = [] ∧ s.phase = .eHdr ∧ WindowsFit s ∧ configCheckFailed s = check

theorem witness_EncoderHeader_good : encoderHeader (encodeStart 1 4 [1, 1, 1, 255] 14) 0 := by
  unfold encoderHeader; decide
theorem witness_EncoderHeader_bad_window :
    let s := { encodeStart 1 4 [1, 1, 1, 255] 14 with outBase := 0x1003 }
    s.host = [] ∧ s.phase = .eHdr ∧ ¬WindowsFit s := by decide
theorem witness_EncoderHeader_checks :
    encoderHeader (encodeStart 0 2 [] 13) 2 ∧ encoderHeader { encodeStart 0 3 [] 13 with colorspace := 2 } 3 ∧
    encoderHeader (encodeStart 0 3 [] 13) 4 ∧ encoderHeader (encodeStart 1 4 [1, 1, 1] 13) 5 ∧
    encoderHeader (encodeStart 1 3 [1, 1, 1] 13) 8 := by unfold encoderHeader; decide
theorem witness_EqualPixel : ∀ r ∈ ([0, 61] : List (BitVec 6)),
    let s := encoding 9 ⟨7, 7, 7, 255⟩ r ⟨7, 7, 7, 255⟩
    s.host = [] ∧ s.phase = .eBody ∧ s.px.toNat ≠ s.pixelCount ∧ InPixelFits s ∧
    inputPixel s s.px.toNat = s.prev ∧ s.run.toNat < 62 := by decide
/-- The 63rd equal pixel, with exactly enough room, and with one byte too little. -/
theorem witness_OtherPixel_room :
    let s := secondPixel 64 ⟨7, 7, 7, 255⟩ 62 ⟨7, 7, 7, 255⟩ 16
    Inv s ∧ s.host = [] ∧ s.phase = .eBody ∧ s.px.toNat ≠ s.pixelCount ∧
    (⟨7, 7, 7, 255⟩ : Pixel) = inputPixel s s.px.toNat ∧
    ¬((⟨7, 7, 7, 255⟩ : Pixel) = s.prev ∧ s.run.toNat < 62) ∧
    (.diff 0 0 0, true) = mux ⟨7, 7, 7, 255⟩ s.prev (s.lookup (hash ⟨7, 7, 7, 255⟩)) (hash ⟨7, 7, 7, 255⟩) ∧
    s.outPos.toNat + (pixelStepBytes s (.diff 0 0 0)).length ≤ s.outCap.toNat := ⟨inv_secondPixel_room, by decide⟩
theorem witness_OtherPixel_no_room :
    let s := secondPixel 64 ⟨7, 7, 7, 255⟩ 62 ⟨7, 7, 7, 255⟩ 15
    Inv s ∧ s.host = [] ∧ s.phase = .eBody ∧ s.px.toNat ≠ s.pixelCount ∧
    (⟨7, 7, 7, 255⟩ : Pixel) = inputPixel s s.px.toNat ∧
    ¬((⟨7, 7, 7, 255⟩ : Pixel) = s.prev ∧ s.run.toNat < 62) ∧
    (.diff 0 0 0, true) = mux ⟨7, 7, 7, 255⟩ s.prev (s.lookup (hash ⟨7, 7, 7, 255⟩)) (hash ⟨7, 7, 7, 255⟩) ∧
    s.outPos.toNat + (pixelStepBytes s (.diff 0 0 0)).length > s.outCap.toNat := ⟨inv_secondPixel_no_room, by decide⟩
theorem witness_EncoderBodyEnds :
    let s := encodeAtEnd .eBody 0 64
    s.host = [] ∧ s.phase = .eBody ∧ s.px.toNat = s.pixelCount := by decide

/-- The operands of one case of the multiplexer's statement: signed deltas that stand for the wrapped ones. -/
def deltasFor (p prev : Pixel) (dr dg db : Int) : Prop :=
  (-128 ≤ dr ∧ dr ≤ 127 ∧ -128 ≤ dg ∧ dg ≤ 127 ∧ -128 ≤ db ∧ db ≤ 127) ∧
  ((p.r.toNat : Int) - prev.r.toNat - dr) % 256 = 0 ∧ ((p.g.toNat : Int) - prev.g.toNat - dg) % 256 = 0 ∧
  ((p.b.toNat : Int) - prev.b.toNat - db) % 256 = 0

/-- The deltas fit DIFF, or LUMA (R120). -/
def fitDiff (dr dg db : Int) : Prop := (-2 ≤ dr ∧ dr ≤ 1) ∧ (-2 ≤ dg ∧ dg ≤ 1) ∧ -2 ≤ db ∧ db ≤ 1
def fitLuma (dr dg db : Int) : Prop :=
  (-32 ≤ dg ∧ dg ≤ 31) ∧ (-8 ≤ dr - dg ∧ dr - dg ≤ 7) ∧ -8 ≤ db - dg ∧ db - dg ≤ 7

theorem witness_Mux_hit : deltasFor zeroPixel startPixel 0 0 0 ∧ zeroPixel = zeroPixel := by unfold deltasFor; decide
theorem witness_Mux_rgba : deltasFor ⟨128, 0, 0, 0⟩ ⟨0, 0, 0, 255⟩ (-128) 0 0 ∧ zeroPixel ≠ ⟨128, 0, 0, 0⟩ ∧
    (0 : Byte) ≠ 255 := by unfold deltasFor; decide
theorem witness_Mux_diff : deltasFor ⟨0, 254, 1, 255⟩ ⟨255, 0, 1, 255⟩ 1 (-2) 0 ∧ zeroPixel ≠ ⟨0, 254, 1, 255⟩ ∧
    fitDiff 1 (-2) 0 := by unfold deltasFor fitDiff; decide
theorem witness_Mux_luma : deltasFor ⟨23, 31, 38, 255⟩ ⟨0, 0, 0, 255⟩ 23 31 38 ∧ zeroPixel ≠ ⟨23, 31, 38, 255⟩ ∧
    ¬fitDiff 23 31 38 ∧ fitLuma 23 31 38 := by unfold deltasFor fitDiff fitLuma; decide
theorem witness_Mux_rgb : deltasFor ⟨32, 32, 32, 255⟩ ⟨0, 0, 0, 255⟩ 32 32 32 ∧ zeroPixel ≠ ⟨32, 32, 32, 255⟩ ∧
    ¬fitDiff 32 32 32 ∧ ¬fitLuma 32 32 32 := by unfold deltasFor fitDiff fitLuma; decide
theorem witness_WrappedRelativeDeltas :
    (deltaUnit ⟨0, 31, 0, 0⟩ ⟨128, 0, 0, 0⟩).dg = 31 ∧ (deltaUnit ⟨0, 31, 0, 0⟩ ⟨128, 0, 0, 0⟩).drDg = -159 ∧
    (deltaUnit ⟨127, 0, 0, 0⟩ ⟨0, 32, 0, 0⟩).dg = -32 ∧ (deltaUnit ⟨127, 0, 0, 0⟩ ⟨0, 32, 0, 0⟩).drDg = 159 := by decide
theorem witness_ThreeChannelEncode : Inv encodingThree ∧ encodingThree.phase = .eBody ∧ encodingThree.channels = 3 :=
  ⟨inv_encodingThree, rfl, rfl⟩
/-- The premises of the flush's statement. -/
def flushing (s : State) : Prop :=
  s.host = [] ∧ s.phase = .eFlush ∧ s.run.toNat ≤ 62 ∧ s.outBase.toNat + s.outCap.toNat ≤ 2 ^ 32

theorem witness_Flush_writes : flushing (encodeAtEnd .eFlush 62 15) ∧ (encodeAtEnd .eFlush 62 15).run.toNat > 0 ∧
    (encodeAtEnd .eFlush 62 15).outPos.toNat + 1 ≤ (encodeAtEnd .eFlush 62 15).outCap.toNat := by
  unfold flushing; decide
theorem witness_Flush_no_room : flushing (encodeAtEnd .eFlush 1 14) ∧ (encodeAtEnd .eFlush 1 14).run.toNat > 0 ∧
    (encodeAtEnd .eFlush 1 14).outPos.toNat + 1 > (encodeAtEnd .eFlush 1 14).outCap.toNat := by
  unfold flushing; decide
theorem witness_Flush_nothing : flushing (encodeAtEnd .eFlush 0 14) ∧ (encodeAtEnd .eFlush 0 14).run = 0 := by
  unfold flushing; decide
theorem witness_Trailer_writes :
    let s := encodeAtEnd .eTrail 0 22
    s.host = [] ∧ s.phase = .eTrail ∧ s.outBase.toNat + s.outCap.toNat ≤ 2 ^ 32 ∧ s.outPos.toNat + 8 ≤ s.outCap.toNat := by
  decide
theorem witness_Trailer_no_room :
    let s := encodeAtEnd .eTrail 0 21
    s.host = [] ∧ s.phase = .eTrail ∧ s.outBase.toNat + s.outCap.toNat ≤ 2 ^ 32 ∧ s.outPos.toNat + 8 > s.outCap.toNat := by
  decide

/-! Whole-machine rules. -/

theorem witness_PhaseChanges_engine :
    ∃ t, engineStep (decodeStart goodHeader 921600) = .next t ∧ t.phase = .dBody :=
  ⟨_, next_of_completes (by decide), by decide⟩
theorem witness_PhaseChanges_start : HostMove.regWrite 4 0 3 ≠ .letEngineStep ∧ State.reset.phase = .idle ∧
    (3 : Word).getLsbD 0 = true ∧ ∃ t, hostStep (.regWrite 4 0 3) State.reset = .next t ∧ t.phase = .eHdr :=
  ⟨by decide, rfl, by decide, _, next_of_completes (by decide), by decide⟩
theorem witness_PhaseChanges_rst : HostMove.rst ≠ .letEngineStep ∧
    ∃ t, hostStep .rst (decodeStart goodHeader 4) = .next t ∧ t.phase = .idle :=
  ⟨by decide, _, next_of_completes (by decide), by decide⟩
theorem witness_OnlyStartLeavesIdle :
    let s := { State.reset with host := [.regWrite 4 0 1] }
    s.phase = .idle ∧ ∃ t, step s = .next t ∧ t.phase ≠ .idle :=
  ⟨rfl, _, next_of_completes (by decide), by decide⟩
theorem witness_ErrorsEndTheJob : ∃ t, engineStep (decodeStart (goodHeader.take 21) 4) = .next t ∧
    (decodeStart (goodHeader.take 21) 4).err = false ∧ t.err = true :=
  ⟨_, next_of_completes (by decide), by decide⟩
theorem witness_ErrorsEndTheJob_trailing :
    ∃ t, engineStep (beforeMarker [0, 0, 0, 0, 0, 0, 0, 1] 23 true) = .next t ∧
      (beforeMarker [0, 0, 0, 0, 0, 0, 0, 1] 23 true).err = false ∧ t.err = true ∧ t.errcode = 10 :=
  ⟨_, next_of_completes (by decide), by decide⟩
theorem witness_EngineWritesOnly : Inv (encodeStart 1 4 [10, 20, 30, 255] 64) ∧
    (∃ t, engineStep (encodeStart 1 4 [10, 20, 30, 255] 64) = .next t) ∧
    (encodeStart 1 4 [10, 20, 30, 255] 64).inOutputWindow 0x2040 = false :=
  ⟨inv_encodeStart_one, ⟨_, next_of_completes (by decide)⟩, by decide⟩
theorem witness_EngineReadsOnly :
    let s := decodeStart goodHeader 921600
    Inv s ∧ AgreeOnInput s s.mem (s.mem.write 0x0FFF 9) ∧ ∃ t, engineStep s = .next t := by
  refine ⟨inv_decodeStart_good, fun b hb => ?_, _, next_of_completes (by decide)⟩
  rw [Memory.read_write_ne]
  rintro rfl
  exact absurd hb (by decide)
theorem witness_Success_decode : Inv (beforeMarker [0, 0, 0, 0, 0, 0, 0, 1] 22 true) ∧
    ∃ t, engineStep (beforeMarker [0, 0, 0, 0, 0, 0, 0, 1] 22 true) = .next t ∧
      (beforeMarker [0, 0, 0, 0, 0, 0, 0, 1] 22 true).done = false ∧ t.done = true :=
  ⟨inv_beforeMarker, _, next_of_completes (by decide), by decide⟩
theorem witness_Success_encode : Inv (encodeAtEnd .eTrail 0 22) ∧ (encodeAtEnd .eTrail 0 22).mode = .encode ∧
    ∃ t, engineStep (encodeAtEnd .eTrail 0 22) = .next t ∧ (encodeAtEnd .eTrail 0 22).done = false ∧ t.done = true :=
  ⟨inv_encodeAtEnd, rfl, _, next_of_completes (by decide), by decide⟩

/-! Registers. -/

theorem witness_Accesses : ((2 ≠ 4 ∨ 0 % 4 ≠ 0) ∧ (4 ≠ 4 ∨ 61 % 4 ≠ 0)) ∧ (4 = 4 ∧ 60 % 4 = 0 ∧ 60 < 64) := by decide
theorem witness_Reads_busy : 0x2C % 4 = 0 ∧ 0x2C < 64 ∧ (encodeStart 1 4 [] 64).busy = true := by decide
theorem witness_Reads_idle : 0x3C % 4 = 0 ∧ 0x3C < 64 ∧ State.reset.busy = false := by decide
theorem witness_IdleWrites : State.reset.busy = false ∧ 0x08 % 4 = 0 ∧ 8 ≤ 0x08 ∧ 0x3C < 64 := by decide
theorem witness_StatusWrite :
    ({ State.reset with err := true, errcode := 2 } : State).busy = false ∧ (4 : Word).getLsbD 2 = true := by decide
theorem witness_CtrlWrite : State.reset.busy = false ∧ (0xE : Word).getLsbD 0 = false ∧ (0xF : Word).getLsbD 0 = true := by
  decide
theorem witness_BusyWrites : (decodeStart goodHeader 4).busy = true ∧ 0 % 4 = 0 ∧ 60 % 4 = 0 ∧ 60 < 64 := by decide
theorem witness_StartForgets : State.reset.phase = .idle ∧ (1 : Word).getLsbD 0 = true := by decide
theorem witness_Interrupt_idle : State.reset.busy = false ∧ (4 : Word).getLsbD 0 = false ∧ (5 : Word).getLsbD 0 = true := by
  decide
theorem witness_Interrupt_busy : (decodeStart goodHeader 4).busy = true := by decide
theorem witness_HostMemory :
    let s := decodeStart goodHeader 4
    s.busy = true ∧ s.inInputWindow (0x1015 : Word).toNat = true ∧ s.inInputWindow (0x2003 : Word).toNat = false ∧
    s.inOutputWindow (0x2003 : Word).toNat = true ∧ s.inInputWindow (0x1016 : Word).toNat = false ∧
    s.inOutputWindow (0x2004 : Word).toNat = false := by decide

/-! Headlines, on a 1 by 1 image that encodes to 26 bytes. -/

/-- The encode job, its end, and the decode job on its output. -/
def roundEncode : State := encodeStart 1 4 [10, 20, 30, 255] 64
def roundEncoded : State := stateOf (runSteps 5 roundEncode)
def roundDecode : State := decodeStart (output roundEncoded 26) 4

theorem witness_EveryJobEnds : Inv roundEncode ∧ roundEncode.host = [] ∧ roundEncode.phase = .eHdr ∧
    Inv (decodeStart goodHeader 921600) ∧ (decodeStart goodHeader 921600).host = [] ∧
    (decodeStart goodHeader 921600).phase = .dHdr :=
  ⟨inv_encodeStart_one, rfl, rfl, inv_decodeStart_good, rfl, rfl⟩
theorem witness_EncodeOutput : Inv roundEncode ∧ roundEncode.host = [] ∧ roundEncode.phase = .eHdr ∧
    runSteps 5 roundEncode = .next roundEncoded ∧ roundEncoded.succeeded ∧
    22 + roundEncode.pixelCount * (roundEncode.channels.toNat + 1) ≤ roundEncode.outCap.toNat :=
  ⟨inv_encodeStart_one, rfl, rfl, next_of_completes (by decide), by decide, by decide⟩
theorem formatOk_roundEncode : FormatOk roundEncode := by constructor <;> decide
theorem witness_EncodeWithRoom : Inv roundEncode ∧ roundEncode.host = [] ∧ roundEncode.phase = .eHdr ∧
    FormatOk roundEncode ∧ roundEncode.rasterSize ≤ roundEncode.inLen.toNat ∧
    22 + roundEncode.pixelCount * (roundEncode.channels.toNat + 1) ≤ roundEncode.outCap.toNat :=
  ⟨inv_encodeStart_one, rfl, rfl, formatOk_roundEncode, by decide, by decide⟩
theorem witness_DecoderFollows_chunk :
    let s := encoding 1 startPixel 0 ⟨10, 20, 30, 255⟩
    Inv s ∧ s.phase = .eBody ∧ s.px.toNat ≠ s.pixelCount ∧ (⟨10, 20, 30, 255⟩ : Pixel) = inputPixel s s.px.toNat ∧
    (∃ t, engineStep s = .next t ∧ t.phase = .eBody) ∧ ¬((⟨10, 20, 30, 255⟩ : Pixel) = s.prev ∧ s.run.toNat < 62) ∧
    OutPixelFits { s with outBase := 0xFFFFFFFC } :=
  ⟨inv_encoding_first, rfl, by decide, by decide, ⟨_, next_of_completes (by decide), by decide⟩, by decide, by decide⟩
theorem witness_DecoderFollows_run :
    let s := secondPixel 64 ⟨7, 7, 7, 255⟩ 61 ⟨7, 7, 7, 255⟩ 16
    Inv s ∧ s.phase = .eBody ∧ s.px.toNat ≠ s.pixelCount ∧ (⟨7, 7, 7, 255⟩ : Pixel) = inputPixel s s.px.toNat ∧
    (∃ t, engineStep s = .next t ∧ t.phase = .eBody) ∧ (⟨7, 7, 7, 255⟩ : Pixel) = s.prev ∧ s.run.toNat < 62 :=
  ⟨inv_secondPixel_joins, rfl, by decide, by decide, ⟨_, next_of_completes (by decide), by decide⟩, by decide⟩
theorem witness_RoundTrip : Inv roundEncode ∧ roundEncode.host = [] ∧ roundEncode.phase = .eHdr ∧
    runSteps 5 roundEncode = .next roundEncoded ∧ roundEncoded.succeeded ∧ Inv roundDecode ∧
    roundDecode.host = [] ∧ roundDecode.phase = .dHdr ∧ WindowsFit roundDecode ∧ roundDecode.inLen = roundEncoded.outPos ∧
    (∀ j, j < 26 → roundDecode.mem.read (roundDecode.inBase.toNat + j) =
      roundEncoded.mem.read (roundEncode.outBase.toNat + j)) ∧
    roundEncoded.outPos = 26 ∧ roundEncode.rasterSize ≤ roundDecode.outCap.toNat :=
  ⟨inv_encodeStart_one, rfl, rfl, next_of_completes (by decide), by decide,
    inv_of_phase (Memory.wf_writeList _ Memory.wf_empty (by decide)) rfl rfl rfl ⟨rfl, by constructor <;> rfl⟩, rfl, rfl,
    by decide, by decide, by decide, by decide, by decide⟩
theorem witness_Uniform : Inv roundEncode ∧ roundEncode.host = [] ∧ roundEncode.phase = .eHdr ∧ FormatOk roundEncode ∧
    roundEncode.rasterSize ≤ roundEncode.inLen.toNat ∧
    22 + roundEncode.pixelCount * (roundEncode.channels.toNat + 1) ≤ roundEncode.outCap.toNat ∧
    (⟨10, 20, 30, 255⟩ : Pixel) ≠ ⟨0, 0, 0, 255⟩ ∧
    ∀ i, i < roundEncode.pixelCount → inputPixel roundEncode i = ⟨10, 20, 30, 255⟩ :=
  ⟨inv_encodeStart_one, rfl, rfl, formatOk_roundEncode, by decide⟩

end Sys2Proof.Machine.Test
end

section
/-! The statements about reset and the invariant (10_state.md), and which register accesses are answered (R34). The
invariant is kept by an engine step because each case of `Took` keeps it, and by a host move because it changes nothing
the phase's condition reads, starts a job, or resets the machine. -/

namespace Sys2Proof.Machine

variable {s t : State}

/-! What the conditions of a job read. -/

/-- The registers that the conditions of a job read and that no step past the header changes. -/
structure SameJob (s t : State) : Prop where
  mode : t.mode = s.mode
  width : t.width = s.width
  height : t.height = s.height
  channels : t.channels = s.channels
  colorspace : t.colorspace = s.colorspace
  inBase : t.inBase = s.inBase
  inLen : t.inLen = s.inLen
  outBase : t.outBase = s.outBase
  outCap : t.outCap = s.outCap

theorem SameJob.pixelCount (hj : SameJob s t) : t.pixelCount = s.pixelCount := by
  simp only [State.pixelCount, hj.width, hj.height]

theorem SameJob.rasterSize (hj : SameJob s t) : t.rasterSize = s.rasterSize := by
  simp only [State.rasterSize, hj.pixelCount, hj.channels]

theorem SameJob.windowsOk (hj : SameJob s t) : t.windowsOk = s.windowsOk := by
  simp only [State.windowsOk, hj.inBase, hj.inLen, hj.outBase, hj.outCap]

theorem FormatOk.of_sameJob (h : FormatOk s) (hj : SameJob s t) : FormatOk t where
  windows := hj.windowsOk.trans h.windows
  channels := hj.channels ▸ h.channels
  colorspace := hj.colorspace ▸ h.colorspace
  width := hj.width ▸ h.width
  height := hj.height ▸ h.height

/-- A decode job goes on under the same registers where its cursors and its run counter are in range. -/
theorem DecodeOk.of_sameJob (h : DecodeOk s) (hj : SameJob s t)
    (houtPos : t.outPos.toNat = t.px.toNat * s.channels.toNat) (hpx : t.px.toNat ≤ s.pixelCount)
    (hrun : t.run.toNat ≤ 62) (hinput : headerLen ≤ t.inPos.toNat ∧ t.inPos.toNat ≤ s.inLen.toNat) : DecodeOk t where
  toFormatOk := h.toFormatOk.of_sameJob hj
  mode := hj.mode.trans h.mode
  raster := by rw [hj.rasterSize, hj.outCap]; exact h.raster
  outPos := by rw [hj.channels]; exact houtPos
  px := by rw [hj.pixelCount]; exact hpx
  run := hrun
  input := by rw [hj.inLen]; exact hinput

/-- An encode job goes on under the same registers where its cursors, its run counter and `prev` are in range. -/
theorem EncodeOk.of_sameJob (h : EncodeOk s) (hj : SameJob s t)
    (hinPos : t.inPos.toNat = t.px.toNat * s.channels.toNat) (hpx : t.px.toNat ≤ s.pixelCount)
    (hrun : t.run.toNat ≤ 62) (houtput : headerLen ≤ t.outPos.toNat ∧ t.outPos.toNat ≤ s.outCap.toNat)
    (halpha : s.channels = 3 → t.prev.a = 255)
    (hbound : t.outPos.toNat + (if t.run.toNat > 0 then 1 else 0) ≤
      headerLen + t.px.toNat * (s.channels.toNat + 1)) : EncodeOk t where
  toFormatOk := h.toFormatOk.of_sameJob hj
  mode := hj.mode.trans h.mode
  raster := by rw [hj.rasterSize, hj.inLen]; exact h.raster
  inPos := by rw [hj.channels]; exact hinPos
  px := by rw [hj.pixelCount]; exact hpx
  run := hrun
  output := by rw [hj.outCap]; exact houtput
  alpha := by rw [hj.channels]; exact halpha
  bound := by rw [hj.channels]; exact hbound

theorem JobFresh.of_same (h : JobFresh s) (hc : SameCursors s t) (hd : SameDatapath s t) : JobFresh t where
  outPos := hc.outPos.trans h.outPos
  inPos := hc.inPos.trans h.inPos
  px := hc.px.trans h.px
  cache := hd.cache.trans h.cache
  prev := hd.prev.trans h.prev
  run := hd.run.trans h.run

theorem DecodeOk.of_same (h : DecodeOk s) (hj : SameJob s t) (hc : SameCursors s t) (hd : SameDatapath s t) :
    DecodeOk t :=
  h.of_sameJob hj (by rw [hc.outPos, hc.px]; exact h.outPos) (by rw [hc.px]; exact h.px) (by rw [hd.run]; exact h.run)
    (by rw [hc.inPos]; exact h.input)

theorem EncodeOk.of_same (h : EncodeOk s) (hj : SameJob s t) (hc : SameCursors s t) (hd : SameDatapath s t) :
    EncodeOk t :=
  h.of_sameJob hj (by rw [hc.inPos, hc.px]; exact h.inPos) (by rw [hc.px]; exact h.px) (by rw [hd.run]; exact h.run)
    (by rw [hc.outPos]; exact h.output) (by rw [hd.prev]; exact h.alpha)
    (by rw [hc.outPos, hc.px, hd.run]; exact h.bound)

/-! The phase's condition, phase by phase. -/

theorem phaseOk_idle (hp : s.phase = .idle) : PhaseOk s := by simp [PhaseOk, hp]

theorem phaseOk_dHdr (hp : s.phase = .dHdr) : PhaseOk s ↔ s.mode = .decode ∧ JobFresh s := by simp [PhaseOk, hp]

theorem phaseOk_dBody (hp : s.phase = .dBody) : PhaseOk s ↔ DecodeOk s := by simp [PhaseOk, hp]

theorem phaseOk_dTrail (hp : s.phase = .dTrail) :
    PhaseOk s ↔ DecodeOk s ∧ s.px.toNat = s.pixelCount ∧ s.run = 0 := by simp [PhaseOk, hp]

theorem phaseOk_eHdr (hp : s.phase = .eHdr) : PhaseOk s ↔ s.mode = .encode ∧ JobFresh s := by simp [PhaseOk, hp]

theorem phaseOk_eBody (hp : s.phase = .eBody) : PhaseOk s ↔ EncodeOk s := by simp [PhaseOk, hp]

theorem phaseOk_eFlush (hp : s.phase = .eFlush) : PhaseOk s ↔ EncodeOk s ∧ s.px.toNat = s.pixelCount := by
  simp [PhaseOk, hp]

theorem phaseOk_eTrail (hp : s.phase = .eTrail) :
    PhaseOk s ↔ EncodeOk s ∧ s.px.toNat = s.pixelCount ∧ s.run = 0 := by simp [PhaseOk, hp]

/-- A phase's condition reads nothing but the job's registers, the cursors and the datapath. -/
theorem PhaseOk.of_same (h : PhaseOk s) (hp : t.phase = s.phase) (hj : SameJob s t) (hc : SameCursors s t)
    (hd : SameDatapath s t) : PhaseOk t := by
  cases hs : s.phase with
  | idle => exact phaseOk_idle (hp.trans hs)
  | dHdr =>
    obtain ⟨hm, hf⟩ := (phaseOk_dHdr hs).1 h
    exact (phaseOk_dHdr (hp.trans hs)).2 ⟨hj.mode.trans hm, hf.of_same hc hd⟩
  | dBody => exact (phaseOk_dBody (hp.trans hs)).2 (((phaseOk_dBody hs).1 h).of_same hj hc hd)
  | dTrail =>
    obtain ⟨ho, hx, hr⟩ := (phaseOk_dTrail hs).1 h
    exact (phaseOk_dTrail (hp.trans hs)).2
      ⟨ho.of_same hj hc hd, by rw [hc.px, hj.pixelCount]; exact hx, hd.run.trans hr⟩
  | eHdr =>
    obtain ⟨hm, hf⟩ := (phaseOk_eHdr hs).1 h
    exact (phaseOk_eHdr (hp.trans hs)).2 ⟨hj.mode.trans hm, hf.of_same hc hd⟩
  | eBody => exact (phaseOk_eBody (hp.trans hs)).2 (((phaseOk_eBody hs).1 h).of_same hj hc hd)
  | eFlush =>
    obtain ⟨ho, hx⟩ := (phaseOk_eFlush hs).1 h
    exact (phaseOk_eFlush (hp.trans hs)).2 ⟨ho.of_same hj hc hd, by rw [hc.px, hj.pixelCount]; exact hx⟩
  | eTrail =>
    obtain ⟨ho, hx, hr⟩ := (phaseOk_eTrail hs).1 h
    exact (phaseOk_eTrail (hp.trans hs)).2
      ⟨ho.of_same hj hc hd, by rw [hc.px, hj.pixelCount]; exact hx, hd.run.trans hr⟩

/-! The flags. -/

/-- DONE, ERR and ERRCODE are 0 (R87). -/
structure FlagsClear (s : State) : Prop where
  done : s.done = false
  err : s.err = false
  errcode : s.errcode = 0

theorem FlagsClear.flagsOk (h : FlagsClear s) : FlagsOk s where
  notBoth hb := by simp [h.done] at hb
  clearWhileBusy _ := ⟨h.done, h.err⟩
  noCode _ := h.errcode
  someCode he := by simp [h.err] at he

theorem FlagsOk.of_same (h : FlagsOk s) (hd : t.done = s.done) (he : t.err = s.err) (hc : t.errcode = s.errcode)
    (hp : t.phase = s.phase) : FlagsOk t where
  notBoth := by rw [hd, he]; exact h.notBoth
  clearWhileBusy := by rw [hd, he, State.busy, hp]; exact h.clearWhileBusy
  noCode := by rw [he, hc]; exact h.noCode
  someCode := by rw [he, hc]; exact h.someCode

/-- While a job runs the flags are clear (R23, R163). -/
theorem Inv.flagsClear (h : Inv s) (hp : s.phase ≠ .idle) : FlagsClear s := by
  obtain ⟨hd, he⟩ := h.flags.clearWhileBusy (by simpa [State.busy] using hp)
  exact ⟨hd, he, h.flags.noCode he⟩

/-- A job under way: memory canonical, flags clear, the phase's condition. -/
theorem FlagsClear.inv (h : FlagsClear s) (hm : s.mem.wf) (hp : PhaseOk s) : Inv s := ⟨hm, h.flagsOk, hp⟩

/-- Raising an error ends the job inside the invariant (R152). -/
theorem FlagsClear.inv_raiseError (h : FlagsClear s) (hm : s.mem.wf) (e : JobError) : Inv (raiseError e s) where
  memory := raiseError_wf hm e
  flags :=
    { notBoth := by simp [h.done]
      clearWhileBusy := by simp
      noCode := by simp
      someCode := fun _ => e.code_range }
  phase := phaseOk_idle rfl

/-- Finishing ends the job inside the invariant (R95). -/
theorem FlagsClear.inv_finishJob (h : FlagsClear s) (hm : s.mem.wf) : Inv (finishJob s) where
  memory := hm
  flags :=
    { notBoth := by simp [h.err]
      clearWhileBusy := by simp
      noCode := fun _ => h.errcode
      someCode := by simp [h.err] }
  phase := phaseOk_idle rfl

/-! The pixel cursor and the raster cursor. -/

theorem stride_toNat (s : State) : s.stride.toNat = s.channels.toNat := by
  simp only [State.stride, BitVec.toNat_setWidth]; omega

/-- The pixel cursor below `N` moves on as a number: the raster, and with it `N`, is below 2^32. -/
theorem FormatOk.px_succ (h : FormatOk s) {cap : Word} (hr : s.rasterSize ≤ cap.toNat)
    (hpx : s.px.toNat < s.pixelCount) : (s.px + 1).toNat = s.px.toNat + 1 := by
  have hc : 1 ≤ s.channels.toNat := by rcases h.channels with e | e <;> rw [e] <;> decide
  have hn : s.pixelCount ≤ s.rasterSize := Nat.le_mul_of_pos_right _ hc
  exact toNat_add_ofNat (n := 1) (by omega)

/-- A cursor over the raster moves on by one pixel without wrapping. -/
theorem raster_cursor_succ {pos cap : Word} (hpos : pos.toNat = s.px.toNat * s.channels.toNat)
    (hr : s.rasterSize ≤ cap.toNat) (hpx : s.px.toNat < s.pixelCount) :
    (pos + s.stride).toNat = (s.px.toNat + 1) * s.channels.toNat := by
  have hle : (s.px.toNat + 1) * s.channels.toNat ≤ s.rasterSize := Nat.mul_le_mul_right _ hpx
  rw [Nat.add_mul, one_mul] at hle ⊢
  rw [BitVec.toNat_add, stride_toNat, hpos]
  omega

/-! The decoder's steps. -/

theorem DecodeOk.px_lt (h : DecodeOk s) (hpx : s.px.toNat ≠ s.pixelCount) : s.px.toNat < s.pixelCount :=
  lt_of_le_of_ne h.px hpx

theorem DecodeOk.with_run (h : DecodeOk s) {r : BitVec 6} (hr : r.toNat ≤ 62) : DecodeOk { s with run := r } :=
  h.of_sameJob (by constructor <;> rfl) h.outPos h.px hr h.input

theorem DecodeOk.with_phase (h : DecodeOk s) (p : Phase) : DecodeOk { s with phase := p } :=
  h.of_same (by constructor <;> rfl) (by constructor <;> rfl) (by constructor <;> rfl)

/-- The stream cursor moves past bytes that lie in the input. -/
theorem DecodeOk.advanceIn (h : DecodeOk s) {n : Nat} (hn : s.inPos.toNat + n ≤ s.inLen.toNat) :
    DecodeOk (s.advanceIn n) := by
  have hpos : (s.advanceIn n).inPos.toNat = s.inPos.toNat + n := toNat_add_ofNat (by omega)
  obtain ⟨hlo, -⟩ := h.input
  exact h.of_sameJob (by constructor <;> rfl) h.outPos h.px h.run (by omega)

theorem DecodeOk.storePixel (h : DecodeOk s) (p : Pixel) : DecodeOk (s.storePixel p) :=
  h.of_sameJob (by constructor <;> rfl) h.outPos h.px h.run h.input

theorem DecodeOk.pixelPut (h : DecodeOk s) (hpx : s.px.toNat ≠ s.pixelCount) (p : Pixel) : DecodeOk (pixelPut p s) := by
  have hlt := h.px_lt hpx
  have hsucc : (Machine.pixelPut p s).px.toNat = s.px.toNat + 1 := h.px_succ h.raster hlt
  refine h.of_sameJob (by constructor <;> rfl) ?_ ?_ h.run h.input
  · rw [hsucc]; exact raster_cursor_succ h.outPos h.raster hlt
  · rw [hsucc]; exact hlt

/-- A decode body that puts a pixel stays inside the invariant (R133, R50). -/
theorem DecodeOk.inv_pixelPut (h : DecodeOk s) (hm : s.mem.wf) (hf : FlagsClear s) (hp : s.phase = .dBody)
    (hpx : s.px.toNat ≠ s.pixelCount) (p : Pixel) : Inv (Machine.pixelPut p s) :=
  have hfits : s.outPixelAddr + (pixelBytes s.channels p).length ≤ memSize := by
    rw [pixelBytes_length]; exact h.outPixelFits hpx
  FlagsClear.inv ⟨hf.done, hf.err, hf.errcode⟩ (Memory.wf_writeList _ hm hfits)
    ((phaseOk_dBody (s := Machine.pixelPut p s) hp).2 (h.pixelPut hpx p))

/-- The header's checks make a fresh job a decode body (R99, R102). -/
theorem decodeOk_of_header {h : List Byte} (hmode : s.mode = .decode) (hf : JobFresh s) (hw : s.windowsOk = true)
    (hl : 22 ≤ s.inLen.toNat) (he : headerError h (s.withHeader h) = none) :
    DecodeOk { s.withHeader h with inPos := BitVec.ofNat 32 headerLen, phase := .dBody } := by
  unfold headerError at he
  split_ifs at he
  obtain ⟨hch, hcs, hwd, hht, hr⟩ := formatError_none he
  exact
    { windows := hw, channels := hch, colorspace := hcs, width := hwd, height := hht, mode := hmode, raster := hr
      outPos := by simp [hf.outPos, hf.px]
      px := by simp [hf.px]
      run := by simp [hf.run]
      input := ⟨le_rfl, (show headerLen ≤ 22 by decide).trans hl⟩ }

/-! The encoder's steps. -/

theorem EncodeOk.px_lt (h : EncodeOk s) (hpx : s.px.toNat ≠ s.pixelCount) : s.px.toNat < s.pixelCount :=
  lt_of_le_of_ne h.px hpx

/-- With three channels an input pixel has alpha 255 (R115, R128). -/
theorem inputPixel_alpha (hc : s.channels = 3) (i : Nat) : (inputPixel s i).a = 255 := by
  simp [inputPixel, hc]

/-- The configuration checks make a fresh job an encode body once its header is out (R114). -/
theorem encodeOk_of_config (hmode : s.mode = .encode) (hf : JobFresh s) (hc : configError s = none)
    (ho : s.outPos.toNat + 14 ≤ s.outCap.toNat) (m : Memory) :
    EncodeOk { s with mem := m, outPos := BitVec.ofNat 32 headerLen, phase := .eBody } := by
  obtain ⟨hw, hfmt⟩ := configError_none hc
  obtain ⟨hch, hcs, hwd, hht, hr⟩ := formatError_none hfmt
  exact
    { windows := hw, channels := hch, colorspace := hcs, width := hwd, height := hht, mode := hmode, raster := hr
      inPos := by simp [hf.inPos, hf.px]
      px := by simp [hf.px]
      run := by simp [hf.run]
      output := ⟨le_rfl, (Nat.le_add_left headerLen s.outPos.toNat).trans ho⟩
      alpha := fun _ => by simp [hf.prev, startPixel]
      bound := by simp [hf.run, hf.px, headerLen] }

theorem EncodeOk.with_phase (h : EncodeOk s) (p : Phase) : EncodeOk { s with phase := p } :=
  h.of_same (by constructor <;> rfl) (by constructor <;> rfl) (by constructor <;> rfl)

theorem EncodeOk.joinRun (h : EncodeOk s) (hpx : s.px.toNat ≠ s.pixelCount) (hr : s.run.toNat < 62) :
    EncodeOk (joinRun s) := by
  have hlt := h.px_lt hpx
  have hsucc : (Machine.joinRun s).px.toNat = s.px.toNat + 1 := h.px_succ h.raster hlt
  have hrun : (Machine.joinRun s).run.toNat = s.run.toNat + 1 := by
    rw [joinRun_run, BitVec.toNat_add]; simp; omega
  refine h.of_sameJob (by constructor <;> rfl) ?_ ?_ (by omega) h.output h.alpha ?_
  · rw [hsucc]; exact raster_cursor_succ h.inPos h.raster hlt
  · rw [hsucc]; exact hlt
  · have hb := h.bound
    rw [hsucc, joinRun_outPos, if_pos (by omega), Nat.add_mul]
    omega

theorem emitted_outPos {bs : List Byte} (hl : s.outPos.toNat + bs.length ≤ s.outCap.toNat) :
    (emitted bs s).outPos.toNat = s.outPos.toNat + bs.length := toNat_add_ofNat (by omega)

/-- Bytes emitted inside the output window keep the canonical form of memory. -/
theorem emitted_wf {bs : List Byte} (hm : s.mem.wf) (hw : s.windowsOk = true)
    (hl : s.outPos.toNat + bs.length ≤ s.outCap.toNat) : (emitted bs s).mem.wf := by
  obtain ⟨-, hout, -⟩ := (windowsOk_iff s).1 hw
  exact Memory.wf_writeList _ hm (by omega)

/-- A pixel step that writes: the pending run's byte was counted before, and the chunk is at most one byte longer than
the pixel (R130). -/
theorem EncodeOk.afterChunk (h : EncodeOk s) (hpx : s.px.toNat ≠ s.pixelCount) {p : Pixel} {i : Instr} {d : Bool}
    (hp : p = inputPixel s s.px.toNat) (hi : (i, d) = mux p s.prev (s.lookup (hash p)) (hash p))
    (hl : s.outPos.toNat + (runBytes s.run ++ encode i).length ≤ s.outCap.toNat) :
    EncodeOk (afterChunk p d (emitted (runBytes s.run ++ encode i) s)) := by
  have hlt := h.px_lt hpx
  have halpha : s.channels = 3 → p.a = 255 := fun hc => hp ▸ inputPixel_alpha hc _
  have hlen : (encode i).length ≤ s.channels.toNat + 1 := by
    have := (mux_length (c := s.lookup (hash p)) (k := hash p) h.channels
      fun hc => (halpha hc).trans (h.alpha hc).symm).2
    rwa [← hi] at this
  have hpos := emitted_outPos hl
  rw [List.length_append, runBytes_length] at hpos
  have hsucc : (s.px + 1).toNat = s.px.toNat + 1 := h.px_succ h.raster hlt
  refine h.of_sameJob (by constructor <;> cases d <;> rfl) ?_ ?_ (by simp) ?_ (by simpa using halpha) ?_
  · rw [afterChunk_inPos, afterChunk_px]
    exact (raster_cursor_succ h.inPos h.raster hlt).trans (congrArg (· * _) hsucc.symm)
  · rw [afterChunk_px]; exact hsucc.trans_le hlt
  · obtain ⟨hlo, -⟩ := h.output
    have := emitted_outPos hl
    rw [afterChunk_outPos]; omega
  · have hb := h.bound
    rw [afterChunk_outPos, afterChunk_px, afterChunk_run]
    show _ + 0 ≤ headerLen + (s.px + 1).toNat * (s.channels.toNat + 1)
    rw [hsucc, hpos, Nat.add_mul]
    omega

/-- The flush writes the pending run's byte, which was counted before (R127, R130). -/
theorem EncodeOk.flushed (h : EncodeOk s) (hr : s.run.toNat > 0) (hl : s.outPos.toNat + 1 ≤ s.outCap.toNat) :
    EncodeOk { emitted (runBytes s.run) s with run := 0, phase := .eTrail } := by
  have hlen : (runBytes s.run).length = 1 := by rw [runBytes_length, if_pos hr]
  have hpos : (emitted (runBytes s.run) s).outPos.toNat = s.outPos.toNat + 1 := by
    rw [emitted_outPos (by omega), hlen]
  obtain ⟨hlo, -⟩ := h.output
  have hb := h.bound
  rw [if_pos hr] at hb
  refine h.of_sameJob (by constructor <;> rfl) h.inPos h.px (by simp) ⟨?_, ?_⟩ h.alpha ?_
  · show headerLen ≤ (emitted (runBytes s.run) s).outPos.toNat; omega
  · show (emitted (runBytes s.run) s).outPos.toNat ≤ _; omega
  · show (emitted (runBytes s.run) s).outPos.toNat + 0 ≤ _; rw [hpos]; exact hb

theorem writeHeader_length (w h : Word) (c s : Byte) : (writeHeader w h c s).length = 14 := rfl

/-! Every step keeps the invariant. -/

/-- An engine step keeps the invariant, whichever of its cases it is: the flags are clear before it, so it either goes
on with clear flags under the next phase's condition, or ends the job. -/
theorem Took.inv (ht : Took s t) (h : Inv s) (hf : FlagsClear s) : Inv t := by
  have hm := h.memory
  obtain ⟨hd, he, hc⟩ := hf
  have hdec (hp : s.phase = .dBody) : DecodeOk s := (phaseOk_dBody hp).1 h.phase
  have henc (hp : s.phase = .eBody) : EncodeOk s := (phaseOk_eBody hp).1 h.phase
  cases ht with
  | rest => exact h
  | raised e _ => exact FlagsClear.inv_raiseError ⟨hd, he, hc⟩ hm e
  | badHeader e _ => exact FlagsClear.inv_raiseError (s := s.withHeader _) ⟨hd, he, hc⟩ hm e
  | goodHeader hp hw hl hnone =>
    obtain ⟨hmode, hfresh⟩ := (phaseOk_dHdr hp).1 h.phase
    exact FlagsClear.inv ⟨hd, he, hc⟩ hm ((phaseOk_dBody rfl).2 (decodeOk_of_header hmode hfresh hw hl hnone))
  | bodyEnd hp hpx =>
    exact FlagsClear.inv ⟨hd, he, hc⟩ hm
      ((phaseOk_dTrail rfl).2 ⟨((hdec hp).with_run (r := 0) (Nat.zero_le 62)).with_phase .dTrail, hpx, rfl⟩)
  | runPixel hp hpx hr =>
    have hrun : (s.run - 1).toNat ≤ 62 := by have := (hdec hp).run; bv_omega
    exact ((hdec hp).with_run hrun).inv_pixelPut hm ⟨hd, he, hc⟩ hp hpx s.prev
  | runChunk n c hp hpx hr hn hl hc1 hc2 =>
    have hrun : (BitVec.ofNat 6 c).toNat ≤ 62 := by simp; omega
    exact FlagsClear.inv ⟨hd, he, hc⟩ hm ((phaseOk_dBody (by exact hp)).2 (((hdec hp).advanceIn hl).with_run hrun))
  | indexChunk n p hp hpx hr hn hl =>
    exact ((hdec hp).advanceIn hl).inv_pixelPut hm ⟨hd, he, hc⟩ hp hpx p
  | pixelChunk n p hp hpx hr hn hl =>
    exact (((hdec hp).advanceIn hl).storePixel p).inv_pixelPut hm ⟨hd, he, hc⟩ hp hpx p
  | trailing _ => exact FlagsClear.inv_raiseError (s := s.advanceIn 8) ⟨hd, he, hc⟩ hm _
  | decodeDone _ => exact FlagsClear.inv_finishJob (s := s.advanceIn 8) ⟨hd, he, hc⟩ hm
  | wroteHeader hp hcfg ho =>
    obtain ⟨hmode, hfresh⟩ := (phaseOk_eHdr hp).1 h.phase
    obtain ⟨-, hout, -⟩ := (windowsOk_iff s).1 (configError_none hcfg).1
    exact FlagsClear.inv ⟨hd, he, hc⟩ (Memory.wf_writeList _ hm (by rw [writeHeader_length]; omega))
      ((phaseOk_eBody rfl).2 (encodeOk_of_config hmode hfresh hcfg ho _))
  | encodeEnd hp hpx =>
    exact FlagsClear.inv ⟨hd, he, hc⟩ hm ((phaseOk_eFlush rfl).2 ⟨(henc hp).with_phase .eFlush, hpx⟩)
  | joined hp hpx _ hr =>
    exact FlagsClear.inv (s := joinRun s) ⟨hd, he, hc⟩ hm
      ((phaseOk_eBody (s := joinRun s) hp).2 ((henc hp).joinRun hpx hr))
  | wroteChunk p i d hp hpx hpix hmux hl =>
    have hp' : (emitted (runBytes s.run ++ encode i) s).phase = .eBody := hp
    exact FlagsClear.inv
      ⟨(afterChunk_done ..).trans hd, (afterChunk_err ..).trans he, (afterChunk_errcode ..).trans hc⟩
      (by rw [afterChunk_mem]; exact emitted_wf hm (henc hp).windows hl)
      ((phaseOk_eBody ((afterChunk_phase ..).trans hp')).2 ((henc hp).afterChunk hpx hpix hmux hl))
  | flushed hp hr hl =>
    obtain ⟨henc, hpx⟩ := (phaseOk_eFlush hp).1 h.phase
    have hlen : (runBytes s.run).length = 1 := by rw [runBytes_length, if_pos hr]
    exact FlagsClear.inv ⟨hd, he, hc⟩ (emitted_wf hm henc.windows (by omega))
      ((phaseOk_eTrail rfl).2 ⟨henc.flushed hr hl, hpx, rfl⟩)
  | noFlush hp hr =>
    obtain ⟨henc, hpx⟩ := (phaseOk_eFlush hp).1 h.phase
    exact FlagsClear.inv ⟨hd, he, hc⟩ hm ((phaseOk_eTrail rfl).2 ⟨henc.with_phase .eTrail, hpx, hr⟩)
  | encodeDone hp hl =>
    obtain ⟨henc, -, -⟩ := (phaseOk_eTrail hp).1 h.phase
    exact FlagsClear.inv_finishJob (s := emitted endMarker s) ⟨hd, he, hc⟩ (emitted_wf hm henc.windows hl)

theorem engineStep_of_idle (hp : s.phase = .idle) : engineStep s = .next s := by simp [engineStep, hp]

theorem engineStep_inv (h : Inv s) (ht : engineStep s = .next t) : Inv t := by
  by_cases hp : s.phase = .idle
  · rw [engineStep_of_idle hp] at ht
    cases ht
    exact h
  · exact (engineStep_took ht).inv h (h.flagsClear hp)

/-! The world outside. -/

/-- The invariant reads neither IRQ_EN nor the model's own fields, and of memory only its canonical form. -/
theorem Inv.with_outside (h : Inv s) {m : Memory} (hm : m.wf) (b : Bool) (l : List HostMove) (w : Word) (v : Byte)
    (d : Nat) : Inv { s with irqEn := b, mem := m, host := l, hostWord := w, hostByte := v, draws := d } where
  memory := hm
  flags := h.flags.of_same rfl rfl rfl rfl
  phase := h.phase.of_same rfl (by constructor <;> rfl) (by constructor <;> rfl) (by constructor <;> rfl)

/-- Clearing DONE, or ERR with ERRCODE, keeps the flags consistent (R85). -/
theorem FlagsOk.ackFlags (h : FlagsOk s) (v : Word) : FlagsOk (s.ackFlags v) := by
  have hdone : (s.ackFlags v).done = true → s.done = true := by simp [State.ackFlags]
  have hbusy : (s.ackFlags v).busy = true → (s.ackFlags v).done = false := fun hb => by
    simp [State.ackFlags, (h.clearWhileBusy hb).1]
  cases hbit : v.getLsbD 2 with
  | true =>
    have herr : (s.ackFlags v).err = false := by simp only [State.ackFlags, hbit, if_true]
    have hcode : (s.ackFlags v).errcode = 0 := by simp only [State.ackFlags, hbit, if_true]
    exact
      { notBoth := by simp [herr]
        clearWhileBusy := fun hb => ⟨hbusy hb, herr⟩
        noCode := fun _ => hcode
        someCode := by simp [herr] }
  | false =>
    have herr : (s.ackFlags v).err = s.err := by
      simp only [State.ackFlags, hbit, Bool.false_eq_true, if_false]
    have hcode : (s.ackFlags v).errcode = s.errcode := by
      simp only [State.ackFlags, hbit, Bool.false_eq_true, if_false]
    exact
      { notBoth := fun ⟨hd, he⟩ => h.notBoth ⟨hdone hd, herr ▸ he⟩
        clearWhileBusy := fun hb => ⟨hbusy hb, herr.trans (h.clearWhileBusy hb).2⟩
        noCode := fun he => hcode.trans (h.noCode (herr ▸ he))
        someCode := fun he => hcode ▸ h.someCode (herr ▸ he) }

/-- START leaves a fresh job in the header phase of its mode (R87). -/
theorem startJob_inv (hm : s.mem.wf) : Inv (startJob s) := by
  have hfresh : JobFresh (startJob s) := by constructor <;> rfl
  refine FlagsClear.inv ⟨rfl, rfl, rfl⟩ hm ?_
  cases hmode : s.mode with
  | decode => exact (phaseOk_dHdr (by simp [hmode])).2 ⟨hmode, hfresh⟩
  | encode => exact (phaseOk_eHdr (by simp [hmode])).2 ⟨hmode, hfresh⟩

theorem resetEvent_mem_wf (hm : s.mem.wf) : (resetEvent s).mem.wf := by
  show s.forgetIfBusy.mem.wf
  unfold State.forgetIfBusy
  split
  · exact Memory.wf_forget hm (Nat.min_le_right _ _) _
  · exact hm

/-- Reset leaves the engine idle with clear flags (R177). -/
theorem resetEvent_inv (hm : s.mem.wf) : Inv (resetEvent s) :=
  FlagsClear.inv ⟨rfl, rfl, rfl⟩ (resetEvent_mem_wf hm) (phaseOk_idle rfl)

theorem State.busy_eq_false_iff (s : State) : s.busy = false ↔ s.phase = .idle := by simp [State.busy]

/-- A register write while idle starts a job, clears flags, or touches no flag. -/
theorem writeRegIdle_inv (h : Inv s) (hp : s.phase = .idle) (off : Nat) (v : Word) : Inv (writeRegIdle off v s) := by
  have keeps {t : State} (hm : t.mem = s.mem) (hd : t.done = s.done) (he : t.err = s.err)
      (hc : t.errcode = s.errcode) (hph : t.phase = s.phase) : Inv t :=
    ⟨hm ▸ h.memory, h.flags.of_same hd he hc hph, phaseOk_idle (hph.trans hp)⟩
  unfold writeRegIdle
  split
  · unfold writeCtrl
    dsimp only
    split
    · exact startJob_inv h.memory
    · exact keeps rfl rfl rfl rfl rfl
  · exact ⟨h.memory, h.flags.ackFlags v, phaseOk_idle hp⟩
  all_goals exact keeps rfl rfl rfl rfl rfl

/-- A register write while BUSY can change IRQ_EN only (R88). -/
theorem writeRegBusy_inv (h : Inv s) (off : Nat) (v : Word) : Inv (writeRegBusy off v s) := by
  unfold writeRegBusy
  split
  · exact h.with_outside h.memory ..
  · exact h

theorem writeReg_inv (h : Inv s) (off : Nat) (v : Word) : Inv (writeReg off v s) := by
  unfold writeReg
  cases hb : s.busy with
  | true => exact writeRegBusy_inv h off v
  | false => exact writeRegIdle_inv h ((State.busy_eq_false_iff s).1 hb) off v

theorem readReg_inv (h : Inv s) (off : Nat) : Inv (readReg off s) := by
  unfold readReg
  split <;> exact h.with_outside h.memory ..

theorem hostMemRead_inv (h : Inv s) (a : Word) : Inv (hostMemRead a s) := by
  unfold hostMemRead
  split <;> exact h.with_outside h.memory ..

/-- Every move of the world outside keeps the invariant. -/
theorem hostStep_inv {m : HostMove} (h : Inv s) (ht : hostStep m s = .next t) : Inv t := by
  cases m with
  | regWrite size off v =>
    obtain ⟨-, -, -, rfl⟩ := regAccess_next ht
    exact writeReg_inv h off v
  | regRead size off =>
    obtain ⟨-, -, -, rfl⟩ := regAccess_next ht
    exact readReg_inv h off
  | memWrite a v =>
    rw [hostMemWrite_next ht]
    exact h.with_outside (Memory.wf_write h.memory a.isLt v) ..
  | memRead a =>
    cases ht
    exact hostMemRead_inv h a
  | rst =>
    cases ht
    exact resetEvent_inv h.memory
  | letEngineStep => exact engineStep_inv h ht

theorem step_inv (h : Inv s) (ht : step s = .next t) : Inv t := by
  unfold step at ht
  split at ht
  · exact engineStep_inv h ht
  · exact hostStep_inv (h.with_outside h.memory ..) ht

/-- A register access that is not 32 bits wide or not aligned is refused (R34). -/
theorem regAccess_of_not_aligned {size off : Nat} (h : size ≠ 4 ∨ off % 4 ≠ 0) (k : State) :
    regAccess size off k = .refused .undefinedRegisterAccess := by
  unfold regAccess checkRegAccess
  rw [if_pos h]

/-- After reset every register of the block reads 0 (R44). -/
theorem regValue_reset (off : Nat) : regValue off State.reset = 0 := by
  unfold regValue
  split <;> rfl

/-! The statements. -/

/-- Settles O4: an engine step keeps the invariant by the cases of `Took`, a move of the world outside by the cases of
`HostMove`. -/
theorem everyStepKeepsTheInvariant : Obligations.EveryStepKeepsTheInvariant := fun _ _ => step_inv

/-- Settles O1, reading the registers one by one. -/
theorem resetStateReadsZeroAndIdle : Obligations.ResetStateReadsZeroAndIdle :=
  ⟨regValue_reset, rfl, rfl, rfl, rfl, rfl, rfl, rfl, rfl⟩

/-- Settles O3: reset clears the flags and leaves the engine idle with nothing in memory. -/
theorem resetSatisfiesTheInvariant : Obligations.ResetSatisfiesTheInvariant :=
  FlagsClear.inv ⟨rfl, rfl, rfl⟩ reset_wf (phaseOk_idle rfl)

/-- Settles O43: both accesses go through `regAccess`, which checks width and alignment first. -/
theorem onlyAlignedWordAccessesAreAnswered : Obligations.OnlyAlignedWordAccessesAreAnswered := by
  intro s size off v
  refine ⟨fun h => ⟨regAccess_of_not_aligned h _, regAccess_of_not_aligned h _⟩, ?_⟩
  rintro ⟨rfl, halign, hlt⟩
  exact ⟨⟨_, regAccess_of_aligned halign hlt _⟩, _, regAccess_of_aligned halign hlt _⟩

end Sys2Proof.Machine
end

section
/-! The statements about memory (20_memory.md). One fact, `engineStep_answers`, carries the four about engine steps: from
an invariant state the engine answers a next state, the same one, memory aside, for every memory that agrees on the
input window, and what it does to memory is to put fixed bytes inside the output window. -/

namespace Sys2Proof.Machine

variable {s t : State} {m : Memory} {a n : Nat} {o o' : Memory → Outcome State Fault Refusal}

/-! Changes of memory inside the output window. -/

/-- A change of memory that puts a byte of its own at some addresses of the output window of `s` and leaves every other
byte as it was. -/
def EditsOutput (s : State) (f : Memory → Memory) : Prop :=
  ∀ b, (∀ m, (f m).read b = m.read b) ∨ s.inOutputWindow b = true ∧ ∃ v, ∀ m, (f m).read b = v

theorem editsOutput_id (s : State) : EditsOutput s id := fun _ => .inl fun _ => rfl

/-- Bytes stored inside the output window (R48, R59). -/
theorem editsOutput_writeList {bs : List Byte} (hlo : s.outBase.toNat ≤ a)
    (hhi : a + bs.length ≤ s.outBase.toNat + s.outCap.toNat) : EditsOutput s (·.writeList a bs) := by
  intro b
  by_cases hb : a ≤ b ∧ b < a + bs.length
  · obtain ⟨j, rfl⟩ := Nat.exists_eq_add_of_le hb.1
    exact .inr ⟨(inOutputWindow_iff s _).2 (by omega), _, fun m => Memory.read_writeList_inside bs m a j (by omega)⟩
  · exact .inl fun m => Memory.read_writeList_outside bs m a b (by omega)

/-- The output window made unspecified (R165). -/
theorem editsOutput_forget (s : State) (draw : Nat) :
    EditsOutput s (Memory.forget s.outBase.toNat (min (s.outBase.toNat + s.outCap.toNat) memSize) draw) := by
  intro b
  by_cases hb : s.outBase.toNat ≤ b ∧ b < min (s.outBase.toNat + s.outCap.toNat) memSize
  · exact .inr ⟨(inOutputWindow_iff s b).2 (by omega), _, fun m => by rw [Memory.read_forget, if_pos hb]⟩
  · exact .inl fun m => by rw [Memory.read_forget, if_neg hb]

/-! The state on another memory: what the steps branch on is the same. -/

/-- The state on another memory. -/
def State.withMem (m : Memory) (s : State) : State := { s with mem := m }

@[simp] theorem State.withMem_phase (m : Memory) (s : State) : (s.withMem m).phase = s.phase := rfl

@[simp] theorem headerError_withMem (h : List Byte) (m : Memory) (s : State) :
    headerError h ((s.withMem m).withHeader h) = headerError h (s.withHeader h) := rfl

@[simp] theorem configError_withMem (m : Memory) (s : State) : configError (s.withMem m) = configError s := rfl

/-! Outcomes over all memories that agree on the input window. -/

/-- Whatever memory that agrees with that of `s` on the input window it starts from, `o` answers one and the same next
state, memory aside, with memory changed inside the output window. -/
def Answers (s : State) (o : Memory → Outcome State Fault Refusal) : Prop :=
  ∃ (t : State) (f : Memory → Memory), EditsOutput s f ∧
    ∀ m, AgreeOnInput s s.mem m → o m = .next (t.withMem (f m))

/-- An outcome may be replaced by what it equals on the agreeing memories: the branch the step takes, with the bytes it
reads. -/
theorem Answers.congr (h : Answers s o') (he : ∀ m, AgreeOnInput s s.mem m → o m = o' m) : Answers s o := by
  obtain ⟨t, f, hf, ho⟩ := h
  exact ⟨t, f, hf, fun m hm => (he m hm).trans (ho m hm)⟩

/-- Of the state, `Answers` reads the windows and memory only. -/
theorem Answers.of_sameWindows (h : Answers t o) (hin : t.inInputWindow = s.inInputWindow)
    (hout : t.inOutputWindow = s.inOutputWindow) (hmem : t.mem = s.mem) : Answers s o := by
  unfold Answers EditsOutput AgreeOnInput at *
  rwa [hin, hout, hmem] at h

theorem answers_next (t : State) {f : Memory → Memory} (hf : EditsOutput s f) :
    Answers s fun m => .next (t.withMem (f m)) := ⟨t, f, hf, fun _ _ => rfl⟩

theorem answers_raiseError (e : JobError) (s : State) : Answers s fun m => .next (raiseError e (s.withMem m)) :=
  answers_next (raiseError e s) (editsOutput_forget s s.draws)

/-- An engine read inside the input window gives the bytes that all these memories share (R47, R48). -/
theorem fetchBytes_of_agree (hm : AgreeOnInput s s.mem m) (hw : s.windowsOk = true) (hlo : s.inBase.toNat ≤ a)
    (hhi : a + n ≤ s.inBase.toNat + s.inLen.toNat) (k : List Byte → Outcome State Fault Refusal) :
    fetchBytes (s.withMem m) a n k = k (s.mem.readList a n) := by
  obtain ⟨hin, -, -⟩ := (windowsOk_iff s).1 hw
  rw [fetchBytes_of_le (by omega)]
  exact congrArg k (Memory.readList_congr m s.mem n a fun b h1 h2 => (hm b ((inInputWindow_iff s b).2 (by omega))).symm)

/-- The next output pixel lies in the output window. -/
abbrev OutPixelInWindow (s : State) : Prop :=
  s.channels.toNat * s.px.toNat + pixelWidth s.channels ≤ s.outCap.toNat

/-- A pixel put inside the output window (R133). -/
theorem answers_putPixel (p : Pixel) (hw : s.windowsOk = true) (hfit : OutPixelInWindow s) :
    Answers s fun m => putPixel p (s.withMem m) := by
  obtain ⟨-, hout, -⟩ := (windowsOk_iff s).1 hw
  have hedit : EditsOutput s (·.writeList s.outPixelAddr (pixelBytes s.channels p)) :=
    editsOutput_writeList (Nat.le_add_right _ _) (by rw [pixelBytes_length, State.outPixelAddr]; omega)
  exact (answers_next (pixelPut p s) hedit).congr fun m _ => putPixel_of_fits
    (show s.outBase.toNat + s.channels.toNat * s.px.toNat + pixelWidth s.channels ≤ memSize by omega)

/-- A chunk's meaning reads no memory (R136 to R142). -/
theorem answers_exec (i : Instr) (hw : s.windowsOk = true) (hfit : OutPixelInWindow s) :
    Answers s fun m => exec i (s.withMem m) := by
  have hput (p : Pixel) : Answers s fun m => putPixel p (s.withMem m) := answers_putPixel p hw hfit
  have hstore (p : Pixel) : Answers s fun m => putAndStorePixel p (s.withMem m) :=
    (answers_putPixel (s := s.storePixel p) p hw hfit).of_sameWindows rfl rfl rfl
  cases i with
  | run c => exact answers_next { s with run := BitVec.ofNat 6 c } (editsOutput_id s)
  | index idx => exact hput (s.lookup (Fin.ofNat 64 idx))
  | diff dr dg db => exact hstore (diffPixel s.prev dr dg db)
  | luma dg drDg dbDg => exact hstore (lumaPixel s.prev dg drDg dbDg)
  | rgb r g b => exact hstore ⟨r, g, b, s.prev.a⟩
  | rgba r g b a => exact hstore ⟨r, g, b, a⟩

/-- Bytes emitted before a next state that the continuation gives without touching memory (R116). -/
theorem answers_emit (bs : List Byte) {g : State → State} (hw : s.windowsOk = true)
    (hg : ∀ x m, g (x.withMem m) = (g x).withMem m) :
    Answers s fun m => emit bs (s.withMem m) fun x => .next (g x) := by
  obtain ⟨-, hout, -⟩ := (windowsOk_iff s).1 hw
  by_cases hl : s.outPos.toNat + bs.length > s.outCap.toNat
  · exact (answers_raiseError .outputOverflow s).congr fun m _ => (emit_eq ..).trans (if_pos hl)
  · have hedit : EditsOutput s (·.writeList (s.outBase.toNat + s.outPos.toNat) bs) :=
      editsOutput_writeList (Nat.le_add_right _ _) (by omega)
    have hfit : s.outBase.toNat + s.outPos.toNat + bs.length ≤ memSize := by omega
    exact (answers_next (g (emitted bs s)) hedit).congr fun m _ =>
      (emit_eq ..).trans ((if_neg hl).trans ((if_pos hfit).trans (congrArg Host.Outcome.next (hg (emitted bs s) _))))

/-! The engine's steps, phase by phase. -/

theorem parseHeader_answers (h : List Byte) (s : State) : Answers s fun m => .next (parseHeader h (s.withMem m)) := by
  simp only [parseHeader, headerError_withMem]
  cases headerError h (s.withHeader h) with
  | some e => exact (answers_raiseError e (s.withHeader h)).of_sameWindows rfl rfl rfl
  | none =>
    exact answers_next { s.withHeader h with inPos := BitVec.ofNat 32 headerLen, phase := .dBody } (editsOutput_id s)

theorem stepDHdr_answers (s : State) : Answers s fun m => stepDHdr (s.withMem m) := by
  by_cases hw : s.windowsOk = true
  · by_cases hl : s.inLen.toNat < minStreamLen
    · exact (answers_raiseError .truncatedStream s).congr fun m _ => (if_neg (not_not.2 hw)).trans (if_pos hl)
    · have hlen : headerLen ≤ s.inLen.toNat := by unfold minStreamLen at hl; unfold headerLen; omega
      exact (parseHeader_answers (headerBytes s) s).congr fun m hm => (if_neg (not_not.2 hw)).trans
        ((if_neg hl).trans (fetchBytes_of_agree hm hw le_rfl (by omega) _))
  · exact (answers_raiseError .invalidConfig s).congr fun m _ => if_pos hw

theorem DecodeOk.chunkStep_answers (h : DecodeOk s) (hpx : s.px.toNat ≠ s.pixelCount) :
    Answers s fun m => chunkStep (s.withMem m) := by
  by_cases h1 : s.inPos.toNat + 1 > s.inLen.toNat
  · exact (answers_raiseError .truncatedStream s).congr fun m _ => if_pos h1
  have haddr : s.streamAddr = s.inBase.toNat + s.inPos.toNat := rfl
  have hfirst {m : Memory} (hm : AgreeOnInput s s.mem m) (k : List Byte → Outcome State Fault Refusal) :
      fetchBytes (s.withMem m) s.streamAddr 1 k = k (s.mem.readList s.streamAddr 1) :=
    fetchBytes_of_agree hm h.windows (by omega) (by omega) k
  generalize s.mem.readList s.streamAddr 1 = first at hfirst
  have hlen := chunkLen_pos (byteAt first 0)
  by_cases h2 : s.inPos.toNat + chunkLen (byteAt first 0) > s.inLen.toNat
  · exact (answers_raiseError .truncatedStream s).congr fun m hm => (if_neg h1).trans ((hfirst hm _).trans (if_pos h2))
  · let rest := s.mem.readList (s.streamAddr + 1) (chunkLen (byteAt first 0) - 1)
    have hexec : Answers s fun m =>
        exec (decodeChunk (byteAt first 0) rest) ((s.withMem m).advanceIn (chunkLen (byteAt first 0))) :=
      (answers_exec (s := s.advanceIn _) _ h.windows (h.outPixel_fits hpx)).of_sameWindows rfl rfl rfl
    exact hexec.congr fun m hm => (if_neg h1).trans ((hfirst hm _).trans ((if_neg h2).trans
      (fetchBytes_of_agree (a := s.streamAddr + 1) hm h.windows (by omega) (by omega) _)))

theorem DecodeOk.stepDBody_answers (h : DecodeOk s) : Answers s fun m => stepDBody (s.withMem m) := by
  by_cases hpx : s.px.toNat = s.pixelCount
  · exact (answers_next { s with run := 0, phase := .dTrail } (editsOutput_id s)).congr fun m _ => if_pos hpx
  by_cases hr : s.run.toNat > 0
  · have hput : Answers s fun m => runPixelStep (s.withMem m) :=
      (answers_putPixel (s := { s with run := s.run - 1 }) s.prev h.windows (h.outPixel_fits hpx)).of_sameWindows
        rfl rfl rfl
    exact hput.congr fun m _ => (if_neg hpx).trans (if_pos hr)
  · exact (h.chunkStep_answers hpx).congr fun m _ => (if_neg hpx).trans (if_neg hr)

theorem checkEndMarker_answers (e : List Byte) (s : State) :
    Answers s fun m => .next (checkEndMarker e (s.withMem m)) := by
  by_cases he : e ≠ endMarker
  · exact (answers_raiseError .endMarkerMismatch s).congr fun m _ => congrArg _ (if_pos he)
  by_cases ht : s.strictEnd = true ∧ (s.advanceIn 8).inPos.toNat < s.inLen.toNat
  · have hraise : Answers s fun m => .next (raiseError .trailingBytes ((s.withMem m).advanceIn 8)) :=
      (answers_raiseError .trailingBytes (s.advanceIn 8)).of_sameWindows rfl rfl rfl
    exact hraise.congr fun m _ => congrArg _ ((if_neg he).trans (if_pos ht))
  · exact (answers_next (finishJob (s.advanceIn 8)) (editsOutput_id s)).congr fun m _ =>
      congrArg _ ((if_neg he).trans (if_neg ht))

theorem stepDTrail_answers (hw : s.windowsOk = true) : Answers s fun m => stepDTrail (s.withMem m) := by
  by_cases hl : s.inPos.toNat + 8 > s.inLen.toNat
  · exact (answers_raiseError .truncatedStream s).congr fun m _ => if_pos hl
  · have haddr : s.streamAddr = s.inBase.toNat + s.inPos.toNat := rfl
    exact (checkEndMarker_answers (s.mem.readList s.streamAddr 8) s).congr fun m hm =>
      (if_neg hl).trans (fetchBytes_of_agree (a := s.streamAddr) hm hw (by omega) (by omega) _)

theorem headerWrite_answers (hw : s.windowsOk = true) : Answers s fun m => headerWrite (s.withMem m) := by
  obtain ⟨-, hout, -⟩ := (windowsOk_iff s).1 hw
  by_cases hl : s.outPos.toNat + headerLen > s.outCap.toNat
  · exact (answers_raiseError .outputOverflow s).congr fun m _ => if_pos hl
  · have hlen : (writeHeader s.width s.height s.channels s.colorspace).length = headerLen := rfl
    have hedit : EditsOutput s (·.writeList s.outBase.toNat (writeHeader s.width s.height s.channels s.colorspace)) :=
      editsOutput_writeList le_rfl (by omega)
    have hfit : s.outBase.toNat + (writeHeader s.width s.height s.channels s.colorspace).length ≤ memSize := by omega
    exact (answers_next { s with outPos := BitVec.ofNat 32 headerLen, phase := .eBody } hedit).congr fun m _ =>
      (if_neg hl).trans (storeBytes_of_le (s := s.withMem m) hfit _)

theorem stepEHdr_answers (s : State) : Answers s fun m => stepEHdr (s.withMem m) := by
  simp only [stepEHdr, configError_withMem]
  cases hc : configError s with
  | some e => exact answers_raiseError e s
  | none => exact headerWrite_answers (configError_none hc).1

theorem afterChunk_withMem (p : Pixel) (doStore : Bool) (m : Memory) (s : State) :
    afterChunk p doStore (s.withMem m) = (afterChunk p doStore s).withMem m := by cases doStore <;> rfl

theorem writeChunk_answers (p : Pixel) (hw : s.windowsOk = true) : Answers s fun m => writeChunk p (s.withMem m) :=
  let chunk := mux p s.prev (s.lookup (hash p)) (hash p)
  answers_emit (runBytes s.run ++ encode chunk.1) (g := afterChunk p chunk.2) hw fun x m =>
    afterChunk_withMem p chunk.2 m x

theorem encodePixel_answers (p : Pixel) (hw : s.windowsOk = true) : Answers s fun m => encodePixel p (s.withMem m) := by
  by_cases hj : p = s.prev ∧ s.run.toNat < runMax
  · exact (answers_next (joinRun s) (editsOutput_id s)).congr fun m _ => if_pos hj
  · exact (writeChunk_answers p hw).congr fun m _ => if_neg hj

theorem EncodeOk.stepEBody_answers (h : EncodeOk s) : Answers s fun m => stepEBody (s.withMem m) := by
  by_cases hpx : s.px.toNat = s.pixelCount
  · exact (answers_next { s with phase := .eFlush } (editsOutput_id s)).congr fun m _ => if_pos hpx
  · have hfits := h.inPixel_fits hpx
    have haddr : s.inPixelAddr = s.inBase.toNat + s.channels.toNat * s.px.toNat := rfl
    let p := pixelOfBytes (s.mem.readList s.inPixelAddr (pixelWidth s.channels))
    exact (encodePixel_answers p h.windows).congr fun m hm => (if_neg hpx).trans
      (fetchBytes_of_agree (a := s.inPixelAddr) (n := pixelWidth s.channels) hm h.windows (by omega) (by omega) _)

theorem stepEFlush_answers (hw : s.windowsOk = true) : Answers s fun m => stepEFlush (s.withMem m) := by
  by_cases hr : s.run.toNat > 0
  · exact (answers_emit (runBytes s.run) (g := fun x => { x with run := 0, phase := .eTrail }) hw fun _ _ => rfl).congr
      fun m _ => if_pos hr
  · exact (answers_next { s with phase := .eTrail } (editsOutput_id s)).congr fun m _ => if_neg hr

theorem stepETrail_answers (hw : s.windowsOk = true) : Answers s fun m => stepETrail (s.withMem m) :=
  answers_emit endMarker hw fun _ _ => rfl

/-- From an invariant state the engine answers a next state; it reads memory inside the input window only and changes it
inside the output window only (R47, R48, R50). -/
theorem engineStep_answers (h : Inv s) : Answers s fun m => engineStep (s.withMem m) := by
  have hphase := h.phase
  simp only [engineStep, State.withMem_phase]
  cases hp : s.phase with
  | idle => exact answers_next s (editsOutput_id s)
  | dHdr => exact stepDHdr_answers s
  | dBody => exact ((phaseOk_dBody hp).1 hphase).stepDBody_answers
  | dTrail => exact stepDTrail_answers ((phaseOk_dTrail hp).1 hphase).1.windows
  | eHdr => exact stepEHdr_answers s
  | eBody => exact ((phaseOk_eBody hp).1 hphase).stepEBody_answers
  | eFlush => exact stepEFlush_answers ((phaseOk_eFlush hp).1 hphase).1.windows
  | eTrail => exact stepETrail_answers ((phaseOk_eTrail hp).1 hphase).1.windows

/-- The same on the step actually taken: what it answers on any other memory that agrees on the input window. -/
theorem engineStep_on_agreeing (h : Inv s) (ht : engineStep s = .next t) :
    ∃ f, EditsOutput s f ∧ t.mem = f s.mem ∧
      ∀ m, AgreeOnInput s s.mem m → engineStep (s.withMem m) = .next (t.withMem (f m)) := by
  obtain ⟨u, f, hf, hu⟩ := engineStep_answers h
  have htu : t = u.withMem (f s.mem) := Host.Outcome.next.inj (ht.symm.trans (hu s.mem fun _ _ => rfl))
  exact ⟨f, hf, congrArg State.mem htu, fun m hm => (hu m hm).trans (htu ▸ rfl)⟩

theorem engineStep_completes (h : Inv s) : ∃ t, engineStep s = .next t := by
  obtain ⟨t, f, -, ht⟩ := engineStep_answers h
  exact ⟨_, ht s.mem fun _ _ => rfl⟩

/-- No move of the world outside faults: the only one that makes an engine access leaves the engine its turn, and an
engine step from an invariant state completes. -/
theorem hostStep_ne_fault (h : Inv s) (mv : HostMove) (f : Fault) : hostStep mv s ≠ .fault f := by
  have hreg (size off : Nat) (k : State) : regAccess size off k ≠ .fault f := by
    unfold regAccess; split <;> simp
  cases mv with
  | regWrite size off v => exact hreg size off _
  | regRead size off => exact hreg size off _
  | memWrite a v => show hostMemWrite a v s ≠ _; unfold hostMemWrite; split_ifs <;> simp
  | memRead a => simp [hostStep]
  | rst => simp [hostStep]
  | letEngineStep =>
    obtain ⟨t, ht⟩ := engineStep_completes h
    show engineStep s ≠ _
    simp [ht]

/-! Memories in canonical form. -/

/-- A canonical list holds just the bytes that do not read as unwritten. -/
theorem mem_cells_iff {cells : List Host.Cell} (h : cellsWf cells) {v : Byte} :
    (a, v) ∈ cells ↔ cellRead cells a = v ∧ v ≠ unwrittenByte := by
  induction cells with
  | nil => simpa [cellRead] using fun h => h.symm
  | cons c rest ih =>
    obtain ⟨k, w⟩ := c
    obtain ⟨hlt, hsorted⟩ := List.pairwise_cons.1 h.1
    have ih := ih ⟨hsorted, fun c hc => h.2 c (by simp [hc])⟩
    have hw : w ≠ unwrittenByte := (h.2 (k, w) (by simp)).2
    by_cases hk : k = a
    · subst hk
      have hrest : (k, v) ∉ rest := fun hc => (hlt _ hc).false
      simp only [List.mem_cons, hrest, or_false, Prod.mk.injEq, true_and, cellRead, if_true]
      exact ⟨fun e => ⟨e.symm, e ▸ hw⟩, fun e => e.1.symm⟩
    · simp [cellRead, hk, Ne.symm hk, ih]

/-- Canonical lists that read the same are the same list. -/
theorem cells_eq_of_read_eq {cells cells' : List Host.Cell} (h : cellsWf cells) (h' : cellsWf cells')
    (hread : ∀ a, cellRead cells a = cellRead cells' a) : cells = cells' := by
  have : Std.Irrefl fun x y : Host.Cell => x.1 < y.1 := ⟨fun x => lt_irrefl x.1⟩
  have : Std.Antisymm fun x y : Host.Cell => x.1 < y.1 := ⟨fun _ _ h1 h2 => (lt_asymm h1 h2).elim⟩
  exact h.1.eq_of_mem_iff h'.1 fun ⟨a, v⟩ => by rw [mem_cells_iff h, mem_cells_iff h', hread]

theorem Memory.read_of_no_spans (h : m.spans = []) (a : Nat) : m.read a = cellRead m.cells a := by
  simp [Memory.read, h, spanDraw]

/-! The host's accesses to memory. -/

theorem hostMemWrite_of_free {a : Word} (h : s.busy = false ∨ s.inInputWindow a.toNat = false ∧
    s.inOutputWindow a.toNat = false) (v : Byte) :
    hostMemWrite a v s = .next { s with mem := s.mem.write a.toNat v } := by
  unfold hostMemWrite
  obtain hb | ⟨hi, ho⟩ := h
  · simp [hb]
  · simp [hi, ho]

/-- A host read changes nothing but what it returns and, where the byte is hidden from the host, the count of draws. -/
theorem hostMemRead_eq (a : Word) (s : State) :
    hostMemRead a s =
      { s with
        hostByte := if s.busy = true ∧ s.inOutputWindow a.toNat = true then Config.freeByte s.draws a.toNat
          else s.mem.read a.toNat
        draws := if s.busy = true ∧ s.inOutputWindow a.toNat = true then s.draws + 1 else s.draws } := by
  by_cases h : s.busy = true ∧ s.inOutputWindow a.toNat = true
  · simp [hostMemRead, h]
  · rw [hostMemRead, if_neg (by simpa using h), if_neg h, if_neg h]

/-! The statements. -/

/-- Settles O41: the engine's answer on the other memory comes from the same change of memory, which puts its own byte
at an address or leaves it alone. -/
theorem engineReadsOnlyTheInputWindow : Obligations.EngineReadsOnlyTheInputWindow := by
  intro s t m h hm ht
  obtain ⟨f, hf, hmem, hall⟩ := engineStep_on_agreeing h ht
  refine ⟨t.withMem (f m), hall m hm, rfl, fun b => ?_⟩
  obtain hkeep | ⟨-, v, hput⟩ := hf b
  · exact .inl ⟨hmem ▸ hkeep s.mem, hkeep m⟩
  · exact .inr ((hmem ▸ hput s.mem).trans (hput m).symm)

/-- Settles O40: the step's change of memory stays inside the output window. -/
theorem engineWritesOnlyTheOutputWindow : Obligations.EngineWritesOnlyTheOutputWindow := by
  intro s t b h ht hb
  obtain ⟨f, hf, hmem, -⟩ := engineStep_on_agreeing h ht
  obtain hkeep | ⟨hin, -⟩ := hf b
  · exact hmem ▸ hkeep s.mem
  · exact absurd (hb.symm.trans hin) Bool.false_ne_true

/-- Settles O6: the answer on all agreeing memories is one on the state's own. -/
theorem engineStepsAlwaysComplete : Obligations.EngineStepsAlwaysComplete := fun _ => engineStep_completes

/-- Settles O5: the engine's steps complete, and the other moves access no memory as the engine. -/
theorem invariantStatesNeverFault : Obligations.InvariantStatesNeverFault := by
  intro s f h
  unfold step
  split
  · exact hostStep_ne_fault h .letEngineStep f
  · exact hostStep_ne_fault (h.with_outside h.memory ..) _ f

/-- Settles O7: without spans a memory is its list, and a canonical list is determined by what it reads. -/
theorem equalMemoriesAreEqualData : Obligations.EqualMemoriesAreEqualData := by
  rintro ⟨cells, spans⟩ ⟨cells', spans'⟩ ⟨h, -⟩ ⟨h', -⟩ rfl rfl hread
  have hcells : cells = cells' := cells_eq_of_read_eq h h' fun a => by
    simpa [Memory.read_of_no_spans] using hread a
  rw [hcells]

/-- Settles O51: the branches of a host write and of a host read. -/
theorem hostMemoryAccessesRespectTheWindows : Obligations.HostMemoryAccessesRespectTheWindows := by
  intro s a v
  refine ⟨fun hb hi => ?_, fun hb hi ho => ?_, fun hfree => ?_, ?_⟩
  · simp [hostStep, hostMemWrite, hb, hi]
  · simp [hostStep, hostMemWrite, hb, hi, ho]
  · exact ⟨_, hostMemWrite_of_free hfree v, storesAt_writeList (bs := [v]) rfl, rfl⟩
  · exact ⟨_, congrArg Host.Outcome.next (hostMemRead_eq a s), rfl, by constructor <;> rfl, by constructor <;> rfl,
      by constructor <;> rfl, rfl, fun h => ⟨if_pos h, if_pos h⟩, fun h => ⟨if_neg h, if_neg h⟩⟩

end Sys2Proof.Machine
end

section
/-! The statements about encoding (30_encoding.md). The decoder is described once, by the range of the first byte
(R74, R75, R77); that encoding and decoding undo each other follows from this description. -/

namespace Sys2Proof

variable {b0 : Byte} {rest : List Byte}

/-! The fields of a byte. -/

theorem bits_7_6 (v : Byte) : bits v 7 6 = v.toNat / 64 := by have := v.isLt; simp [bits]; omega
theorem bits_5_0 (v : Byte) : bits v 5 0 = v.toNat % 64 := by simp [bits]
theorem bits_5_4 (v : Byte) : bits v 5 4 = v.toNat / 16 % 4 := rfl
theorem bits_3_2 (v : Byte) : bits v 3 2 = v.toNat / 4 % 4 := rfl
theorem bits_1_0 (v : Byte) : bits v 1 0 = v.toNat % 4 := by simp [bits]
theorem bits_7_4 (v : Byte) : bits v 7 4 = v.toNat / 16 := by have := v.isLt; simp [bits]; omega
theorem bits_3_0 (v : Byte) : bits v 3 0 = v.toNat % 16 := by simp [bits]

/-- A byte is its 2-bit tag and its 6-bit field. -/
theorem taggedByte_eq {tag field : Nat} (h : b0.toNat = tag * 64 + field) : taggedByte tag field = b0 := by
  rw [taggedByte, ← h, BitVec.ofNat_toNat, BitVec.setWidth_eq]

/-- The bytes after the first, read one by one. -/
theorem take_eq_map_byteAt {n : Nat} (h : n ≤ rest.length) : rest.take n = (List.range n).map (byteAt rest) := by
  refine List.ext_getElem (by simpa using h) fun k hk _ => ?_
  have hk : k < rest.length := by simp at hk; omega
  simp [byteAt, hk]

/-! The decoder by the range of the first byte (R74, R75, R77). -/

/-- The opcode map (R74): the four ranges of the 2-bit tags, and the two 8-bit tags. -/
theorem firstByte_cases (b0 : Byte) :
    b0.toNat ≤ 0x3F ∨ (0x40 ≤ b0.toNat ∧ b0.toNat ≤ 0x7F) ∨ (0x80 ≤ b0.toNat ∧ b0.toNat ≤ 0xBF) ∨
    (0xC0 ≤ b0.toNat ∧ b0.toNat ≤ 0xFD) ∨ b0 = tagRgb ∨ b0 = tagRgba := by
  have hlt := b0.isLt
  have hrgb : b0 = tagRgb ↔ b0.toNat = 0xFE := BitVec.toNat_inj.symm
  have hrgba : b0 = tagRgba ↔ b0.toNat = 0xFF := BitVec.toNat_inj.symm
  rw [hrgb, hrgba]
  omega

/-- A first byte up to 0xFD has no 8-bit tag. -/
theorem no_eightBitTag (h : b0.toNat ≤ 0xFD) : b0 ≠ tagRgb ∧ b0 ≠ tagRgba := by
  constructor <;> rintro rfl <;> simp [tagRgb, tagRgba] at h

theorem chunkLen_of_twoBitTag (h : b0.toNat ≤ 0xFD) : chunkLen b0 = if b0.toNat / 64 = tagLuma then 2 else 1 := by
  obtain ⟨hrgb, hrgba⟩ := no_eightBitTag h
  rw [chunkLen, if_neg hrgb, if_neg hrgba, bits_7_6]

theorem decodeChunk_of_twoBitTag (h : b0.toNat ≤ 0xFD) (rest : List Byte) :
    decodeChunk b0 rest =
      if b0.toNat / 64 = tagIndex then .index (b0.toNat % 64)
      else if b0.toNat / 64 = tagDiff then
        .diff ((b0.toNat / 16 % 4 : Nat) - 2) ((b0.toNat / 4 % 4 : Nat) - 2) ((b0.toNat % 4 : Nat) - 2)
      else if b0.toNat / 64 = tagLuma then
        .luma ((b0.toNat % 64 : Nat) - 32) (((byteAt rest 0).toNat / 16 : Nat) - 8)
          (((byteAt rest 0).toNat % 16 : Nat) - 8)
      else .run (b0.toNat % 64 + 1) := by
  obtain ⟨hrgb, hrgba⟩ := no_eightBitTag h
  rw [decodeChunk, if_neg hrgb, if_neg hrgba, bits_7_6, bits_5_0, bits_5_4, bits_3_2, bits_1_0, bits_7_4, bits_3_0]

theorem decodeChunk_index (h : b0.toNat ≤ 0x3F) (rest : List Byte) : decodeChunk b0 rest = .index b0.toNat := by
  rw [decodeChunk_of_twoBitTag (by omega), if_pos (by unfold tagIndex; omega), Nat.mod_eq_of_lt (by omega)]

theorem decodeChunk_diff (h : 0x40 ≤ b0.toNat ∧ b0.toNat ≤ 0x7F) (rest : List Byte) :
    decodeChunk b0 rest =
      .diff ((b0.toNat / 16 % 4 : Nat) - 2) ((b0.toNat / 4 % 4 : Nat) - 2) ((b0.toNat % 4 : Nat) - 2) := by
  rw [decodeChunk_of_twoBitTag (by omega), if_neg (by unfold tagIndex; omega), if_pos (by unfold tagDiff; omega)]

theorem decodeChunk_luma (h : 0x80 ≤ b0.toNat ∧ b0.toNat ≤ 0xBF) (rest : List Byte) :
    decodeChunk b0 rest = .luma ((b0.toNat % 64 : Nat) - 32) (((byteAt rest 0).toNat / 16 : Nat) - 8)
      (((byteAt rest 0).toNat % 16 : Nat) - 8) := by
  rw [decodeChunk_of_twoBitTag (by omega), if_neg (by unfold tagIndex; omega), if_neg (by unfold tagDiff; omega),
    if_pos (by unfold tagLuma; omega)]

theorem decodeChunk_run_of_range (h : 0xC0 ≤ b0.toNat ∧ b0.toNat ≤ 0xFD) (rest : List Byte) :
    decodeChunk b0 rest = .run (b0.toNat % 64 + 1) := by
  rw [decodeChunk_of_twoBitTag (by omega), if_neg (by unfold tagIndex; omega), if_neg (by unfold tagDiff; omega),
    if_neg (by unfold tagLuma; omega)]

/-- A first byte of INDEX, DIFF or RUN is a whole chunk. -/
theorem chunkLen_one (h : b0.toNat ≤ 0xFD) (hl : b0.toNat ≤ 0x7F ∨ 0xC0 ≤ b0.toNat) : chunkLen b0 = 1 := by
  rw [chunkLen_of_twoBitTag h, if_neg (by unfold tagLuma; omega)]

theorem chunkLen_luma (h : 0x80 ≤ b0.toNat ∧ b0.toNat ≤ 0xBF) : chunkLen b0 = 2 := by
  rw [chunkLen_of_twoBitTag (by omega), if_pos (by unfold tagLuma; omega)]

/-- A chunk of known length in front of any bytes is read off them. -/
theorem decode_append {chunk : List Byte} (h : chunkLen b0 = chunk.length + 1) (rest : List Byte) :
    decode (b0 :: (chunk ++ rest)) = .ok (decodeChunk b0 (chunk ++ rest), rest) := by
  rw [decode_of_le (by simp [h]), h]
  simp

/-- A first byte of INDEX, DIFF or RUN is read off as its chunk. -/
theorem decode_oneByte (h : b0.toNat ≤ 0xFD) (hl : b0.toNat ≤ 0x7F ∨ 0xC0 ≤ b0.toNat) (rest : List Byte) :
    decode (b0 :: rest) = .ok (decodeChunk b0 rest, rest) :=
  decode_append (chunk := []) (chunkLen_one h hl) rest

theorem decode_index (h : b0.toNat ≤ 0x3F) (rest : List Byte) : decode (b0 :: rest) = .ok (.index b0.toNat, rest) := by
  rw [← decodeChunk_index h rest]
  exact decode_oneByte (by omega) (by omega) rest

theorem decode_diff (h : 0x40 ≤ b0.toNat ∧ b0.toNat ≤ 0x7F) (rest : List Byte) :
    decode (b0 :: rest) = .ok
      (.diff ((b0.toNat / 16 % 4 : Nat) - 2) ((b0.toNat / 4 % 4 : Nat) - 2) ((b0.toNat % 4 : Nat) - 2), rest) := by
  rw [← decodeChunk_diff h rest]
  exact decode_oneByte (by omega) (by omega) rest

theorem decode_luma (h : 0x80 ≤ b0.toNat ∧ b0.toNat ≤ 0xBF) (b1 : Byte) (rest : List Byte) :
    decode (b0 :: b1 :: rest) = .ok
      (.luma ((b0.toNat % 64 : Nat) - 32) ((b1.toNat / 16 : Nat) - 8) ((b1.toNat % 16 : Nat) - 8), rest) := by
  have hc := decodeChunk_luma h (b1 :: rest)
  exact hc ▸ decode_append (chunk := [b1]) (chunkLen_luma h) rest

theorem decode_run (h : 0xC0 ≤ b0.toNat ∧ b0.toNat ≤ 0xFD) (rest : List Byte) :
    decode (b0 :: rest) = .ok (.run (b0.toNat % 64 + 1), rest) := by
  rw [← decodeChunk_run_of_range h rest]
  exact decode_oneByte (by omega) (by omega) rest

theorem decode_rgb (r g b : Byte) (rest : List Byte) :
    decode (tagRgb :: r :: g :: b :: rest) = .ok (.rgb r g b, rest) :=
  decode_append (chunk := [r, g, b]) rfl rest

theorem decode_rgba (r g b a : Byte) (rest : List Byte) :
    decode (tagRgba :: r :: g :: b :: a :: rest) = .ok (.rgba r g b a, rest) :=
  decode_append (chunk := [r, g, b, a]) rfl rest

/-! Which operands are in range (R81). -/

@[simp] theorem inRange_iff (lo hi x : Int) : inRange lo hi x = true ↔ lo ≤ x ∧ x ≤ hi := by simp [inRange]

@[simp] theorem wellFormed_index (idx : Nat) : (Instr.index idx).wellFormed = true ↔ idx ≤ 63 := decide_eq_true_iff

@[simp] theorem wellFormed_diff (dr dg db : Int) : (Instr.diff dr dg db).wellFormed = true ↔
    (-2 ≤ dr ∧ dr ≤ 1) ∧ (-2 ≤ dg ∧ dg ≤ 1) ∧ (-2 ≤ db ∧ db ≤ 1) := by
  simp [Instr.wellFormed, and_assoc]

@[simp] theorem wellFormed_luma (dg drDg dbDg : Int) : (Instr.luma dg drDg dbDg).wellFormed = true ↔
    (-32 ≤ dg ∧ dg ≤ 31) ∧ (-8 ≤ drDg ∧ drDg ≤ 7) ∧ (-8 ≤ dbDg ∧ dbDg ≤ 7) := by
  simp [Instr.wellFormed, and_assoc]

@[simp] theorem wellFormed_run (count : Nat) : (Instr.run count).wellFormed = true ↔ 1 ≤ count ∧ count ≤ 62 := by
  simp [Instr.wellFormed]

/-! Encoding and decoding undo each other. -/

/-- The biased field of an operand in range, as an integer (R78). -/
theorem biased_cast {x bias : Int} (h : -bias ≤ x) : (biased x bias : Int) = x + bias := by
  unfold biased; omega

theorem decode_encode_index {idx : Nat} (h : idx ≤ 63) (rest : List Byte) :
    decode (encode (.index idx) ++ rest) = .ok (.index idx, rest) := by
  have hb : (taggedByte tagIndex idx).toNat = idx := by
    rw [taggedByte_toNat (by decide) (by omega), tagIndex, Nat.zero_mul, Nat.zero_add]
  refine (decode_index (hb.trans_le h) rest).trans ?_
  rw [hb]

theorem decode_encode_diff {dr dg db : Int} (hr : -2 ≤ dr ∧ dr ≤ 1) (hg : -2 ≤ dg ∧ dg ≤ 1) (hb : -2 ≤ db ∧ db ≤ 1)
    (rest : List Byte) : decode (encode (.diff dr dg db) ++ rest) = .ok (.diff dr dg db, rest) := by
  have er := biased_cast hr.1
  have eg := biased_cast hg.1
  have eb := biased_cast hb.1
  have h0 : (taggedByte tagDiff (biased dr 2 * 16 + biased dg 2 * 4 + biased db 2)).toNat =
      64 + (biased dr 2 * 16 + biased dg 2 * 4 + biased db 2) := taggedByte_toNat (by decide) (by omega)
  refine (decode_diff (by omega) rest).trans ?_
  rw [h0]
  congr 3 <;> omega

theorem decode_encode_luma {dg drDg dbDg : Int} (hg : -32 ≤ dg ∧ dg ≤ 31) (hr : -8 ≤ drDg ∧ drDg ≤ 7)
    (hb : -8 ≤ dbDg ∧ dbDg ≤ 7) (rest : List Byte) :
    decode (encode (.luma dg drDg dbDg) ++ rest) = .ok (.luma dg drDg dbDg, rest) := by
  have eg := biased_cast hg.1
  have er := biased_cast hr.1
  have eb := biased_cast hb.1
  have h0 : (taggedByte tagLuma (biased dg 32)).toNat = 128 + biased dg 32 := taggedByte_toNat (by decide) (by omega)
  have h1 : (BitVec.ofNat 8 (biased drDg 8 * 16 + biased dbDg 8)).toNat = biased drDg 8 * 16 + biased dbDg 8 :=
    Nat.mod_eq_of_lt (by omega)
  refine (decode_luma (by omega) _ rest).trans ?_
  rw [h0, h1]
  congr 3 <;> omega

theorem decode_encode_run {count : Nat} (h : 1 ≤ count ∧ count ≤ 62) (rest : List Byte) :
    decode (encode (.run count) ++ rest) = .ok (.run count, rest) := by
  have hb : (taggedByte tagRun (count - 1)).toNat = 192 + (count - 1) := taggedByte_toNat (by decide) (by omega)
  refine (decode_run (by omega) rest).trans ?_
  rw [hb]
  congr 3
  omega

/-- What the decoder makes of a first byte and the bytes that follow is well-formed, and its encoding is the bytes of
the chunk (R74, R79). -/
theorem encode_decodeChunk (h : chunkLen b0 ≤ rest.length + 1) :
    (decodeChunk b0 rest).wellFormed = true ∧ encode (decodeChunk b0 rest) = b0 :: rest.take (chunkLen b0 - 1) := by
  rcases firstByte_cases b0 with hb | hb | hb | hb | rfl | rfl
  · rw [decodeChunk_index hb, chunkLen_one (by omega) (by omega)]
    exact ⟨(wellFormed_index _).2 hb, congrArg (· :: []) (taggedByte_eq (by simp [tagIndex]))⟩
  · rw [decodeChunk_diff hb, chunkLen_one (by omega) (by omega), wellFormed_diff]
    refine ⟨by omega, congrArg (· :: []) (taggedByte_eq ?_)⟩
    unfold biased tagDiff; omega
  · have hl := chunkLen_luma hb
    have h1 := (byteAt rest 0).isLt
    have ht : rest.take 1 = [byteAt rest 0] := take_eq_map_byteAt (by omega)
    rw [decodeChunk_luma hb, hl, ht, wellFormed_luma]
    refine ⟨by omega, congrArg₂ (fun x y => [x, y]) (taggedByte_eq ?_) (BitVec.eq_of_toNat_eq ?_)⟩
    · unfold biased tagLuma; omega
    · rw [BitVec.toNat_ofNat]; unfold biased; omega
  · rw [decodeChunk_run_of_range hb, chunkLen_one (by omega) (by omega), wellFormed_run]
    refine ⟨by omega, congrArg (· :: []) (taggedByte_eq ?_)⟩
    unfold tagRun; omega
  · exact ⟨rfl, congrArg (tagRgb :: ·) (take_eq_map_byteAt (n := 3) (Nat.le_of_succ_le_succ h)).symm⟩
  · exact ⟨rfl, congrArg (tagRgba :: ·) (take_eq_map_byteAt (n := 4) (Nat.le_of_succ_le_succ h)).symm⟩

end Sys2Proof

namespace Sys2Proof.Machine

/-! Listings (R81, R82). -/

/-- A listing of one line is that line. -/
theorem assemble_singleton (l : Line) : assemble [l] = l.bytes? := by
  cases h : l.bytes? <;> simp [assemble, h]

theorem assemble_chunk (i : Instr) : assemble [.chunk i] = if i.wellFormed = true then some (encode i) else none :=
  assemble_singleton _

/-- A listing of one chunk line gives the chunk's bytes exactly when the operands are in range: to write them out, say
when they are and what the bytes then are. -/
theorem assemble_chunk_eq {i : Instr} {c : Prop} [Decidable c] {bs : List Byte} (hc : i.wellFormed = true ↔ c)
    (he : c → encode i = bs) : assemble [.chunk i] = if c then some bs else none := by
  rw [assemble_chunk]
  by_cases h : c
  · rw [if_pos (hc.2 h), if_pos h, he h]
  · rw [if_neg (mt hc.1 h), if_neg h]

/-- A byte given by a number and by an integer of the same value. -/
theorem ofNat_eq_ofInt {n : Nat} {z : Int} (h : (n : Int) = z) : BitVec.ofNat 8 n = BitVec.ofInt 8 z := by
  rw [← h, BitVec.ofInt_natCast]

/-- The bytes of `n` equal chunks of one byte each. -/
theorem flatMap_encode_replicate {i : Instr} {b : Byte} (h : encode i = [b]) (n : Nat) :
    (List.replicate n i).flatMap encode = List.replicate n b := by
  rw [List.flatMap_replicate, h, List.flatten_replicate_singleton]

/-! The statements. -/

/-- Settles O8: each kind's first byte lies in the kind's range, and the biases cancel. -/
theorem decodeOfEncodeIsTheInstruction : Obligations.DecodeOfEncodeIsTheInstruction := by
  intro i rest h
  cases i with
  | index idx => exact decode_encode_index ((wellFormed_index _).1 h) rest
  | diff dr dg db =>
    obtain ⟨hr, hg, hb⟩ := (wellFormed_diff ..).1 h
    exact decode_encode_diff hr hg hb rest
  | luma dg drDg dbDg =>
    obtain ⟨hg, hr, hb⟩ := (wellFormed_luma ..).1 h
    exact decode_encode_luma hg hr hb rest
  | run count => exact decode_encode_run ((wellFormed_run _).1 h) rest
  | rgb r g b => exact decode_rgb r g b rest
  | rgba r g b a => exact decode_rgba r g b a rest

/-- Settles O9: the bytes of a decoded chunk are its encoding, and the decoder leaves the others. -/
theorem encodeOfDecodeIsTheBytes : Obligations.EncodeOfDecodeIsTheBytes := by
  intro bs rest i h
  obtain ⟨b0, more, rfl, hl, rfl, rfl⟩ := decode_ok h
  obtain ⟨hwf, he⟩ := encode_decodeChunk hl
  exact ⟨hwf, by rw [he, List.cons_append, List.take_append_drop]⟩

/-- Settles O10: the decoder's rule for each range of the first byte. -/
theorem firstByteDecidesKindAndOperands : Obligations.FirstByteDecidesKindAndOperands := by
  intro b0 b1 b2 b3 b4 rest
  refine ⟨fun h => decode_index h rest, fun h => decode_diff h rest, fun h => decode_luma h b1 rest,
    fun h => decode_run h rest, fun h => ?_, fun h => ?_⟩
  · rw [show b0 = tagRgb from BitVec.eq_of_toNat_eq h]
    exact decode_rgb b1 b2 b3 rest
  · rw [show b0 = tagRgba from BitVec.eq_of_toNat_eq h]
    exact decode_rgba b1 b2 b3 b4 rest

/-- Settles O13: `RUN 62` is the one byte FD, and the rest of the count fits one RUN. -/
theorem fillIsRunsOfSixtyTwo : Obligations.FillIsRunsOfSixtyTwo := by
  intro n hn
  rw [assemble_singleton, Line.bytes?, if_pos hn, fillChunks, List.flatMap_append,
    flatMap_encode_replicate (b := 0xFD) rfl]
  split_ifs <;> rfl

/-- Settles O11 by running the decoder on the six words. -/
theorem tableWordsDecodeAsTheirRows : Obligations.TableWordsDecodeAsTheirRows := by
  refine ⟨?_, ?_, ?_, ?_, ?_, ?_⟩ <;> decide

/-- Settles O12: for each kind, when a chunk is well-formed and what its bytes are. -/
theorem assemblerRefusesOperandsOutOfRange : Obligations.AssemblerRefusesOperandsOutOfRange := by
  refine ⟨fun idx => ?_, fun dr dg db => ?_, fun dg drDg dbDg => ?_, fun n => ?_, fun _ _ _ => rfl, fun _ _ _ _ => rfl⟩
  · refine assemble_chunk_eq (wellFormed_index idx) fun _ => ?_
    simp [encode, taggedByte, tagIndex]
  · refine assemble_chunk_eq (wellFormed_diff dr dg db) fun ⟨hr, hg, hb⟩ => ?_
    refine congrArg (· :: []) (ofNat_eq_ofInt ?_)
    push_cast [biased_cast hr.1, biased_cast hg.1, biased_cast hb.1, tagDiff]
    ring
  · refine assemble_chunk_eq (wellFormed_luma dg drDg dbDg) fun ⟨hg, hr, hb⟩ => ?_
    refine congrArg₂ (fun x y => [x, y]) (ofNat_eq_ofInt ?_) (ofNat_eq_ofInt ?_)
    · push_cast [biased_cast hg.1, tagLuma]
      ring
    · push_cast [biased_cast hr.1, biased_cast hb.1]
      ring
  · exact assemble_chunk_eq (wellFormed_run n) fun _ => rfl

end Sys2Proof.Machine
end

section
/-! The statements about control (40_control.md): the phases, how a job ends and within how many steps, and the host's
register reads and writes. What an engine step does comes from the cases of `Took`; that a job ends, from
`State.stepsLeft`, which every step of a job past its decode header lowers. -/

namespace Sys2Proof.Machine

variable {s t u : State} {off b n : Nat} {v : Word}

/-! Which phase a step leaves. -/

theorem transition_of_phases {p q : Phase} (hs : s.phase = p) (ht : t.phase = q) (h : engineTransition p q = true) :
    engineTransition s.phase t.phase = true := by
  rw [hs, ht]; exact h

theorem engineTransition_to_idle (p : Phase) : engineTransition p .idle = true := by cases p <;> rfl

/-- An engine step takes a transition of R91. -/
theorem Took.transition (ht : Took s t) : engineTransition s.phase t.phase = true := by
  cases ht with
  | raised | badHeader | trailing | decodeDone | encodeDone => exact engineTransition_to_idle _
  | goodHeader hp | bodyEnd hp | wroteHeader hp | encodeEnd hp | flushed hp | noFlush hp =>
    exact transition_of_phases hp rfl rfl
  | rest hp | runPixel hp | joined hp | runChunk _ _ hp | indexChunk _ _ hp | pixelChunk _ _ hp =>
    exact transition_of_phases hp hp rfl
  | wroteChunk _ _ _ hp => exact transition_of_phases hp ((afterChunk_phase ..).trans hp) rfl

/-- No engine step leads into the decode header (R91). -/
theorem Took.phase_ne_dHdr (ht : Took s t) : t.phase ≠ .dHdr := fun e => by
  have htr := ht.transition
  rw [e] at htr
  cases hp : s.phase <;> rw [hp] at htr <;> contradiction

/-! How a step ends a job (R95, R96, R152). -/

/-- The step from `s` ended a job with success: the last step of a decode or of an encode. -/
inductive Finished (s : State) : State → Prop
  | decode : s.phase = .dTrail → s.inPos.toNat + 8 ≤ s.inLen.toNat → Finished s (finishJob (s.advanceIn 8))
  | encode : s.phase = .eTrail → s.outPos.toNat + 8 ≤ s.outCap.toNat → Finished s (finishJob (emitted endMarker s))

/-- A step of a job raises an error, finishes the job, or goes on with it; only the second touches DONE. -/
theorem Took.ends_or_goes_on (ht : Took s t) (hp : s.phase ≠ .idle) :
    (∃ e u, u.done = s.done ∧ t = raiseError e u) ∨ Finished s t ∨ (t.phase ≠ .idle ∧ t.done = s.done) := by
  cases ht with
  | rest h => exact absurd h hp
  | raised e => exact .inl ⟨e, s, rfl, rfl⟩
  | badHeader e => exact .inl ⟨e, s.withHeader _, rfl, rfl⟩
  | trailing => exact .inl ⟨_, s.advanceIn 8, rfl, rfl⟩
  | decodeDone hp hl => exact .inr (.inl (.decode hp hl))
  | encodeDone hp hl => exact .inr (.inl (.encode hp hl))
  | goodHeader | bodyEnd | wroteHeader | encodeEnd | flushed | noFlush => exact .inr (.inr ⟨Phase.noConfusion, rfl⟩)
  | runPixel | runChunk | indexChunk | pixelChunk | joined => exact .inr (.inr ⟨hp, rfl⟩)
  | wroteChunk => exact .inr (.inr ⟨by rw [afterChunk_phase]; exact hp, afterChunk_done ..⟩)

/-- A step that goes back to IDLE raised an error or finished the job. -/
theorem Took.back_to_idle (ht : Took s t) (hp : s.phase ≠ .idle) (hi : t.phase = .idle) :
    (t.err = true ∧ ∃ e : JobError, t.errcode = e.code) ∨
      ((s.phase = .dTrail ∨ s.phase = .eTrail) ∧ t.done = true) := by
  obtain ⟨e, u, -, rfl⟩ | hf | ⟨hgo, -⟩ := ht.ends_or_goes_on hp
  · exact .inl ⟨rfl, e, rfl⟩
  · cases hf with
    | decode hp => exact .inr ⟨.inl hp, rfl⟩
    | encode hp => exact .inr ⟨.inr hp, rfl⟩
  · exact absurd hi hgo

/-- Only finishing sets DONE. -/
theorem engineStep_finished (ht : engineStep s = .next t) (hs : s.done = false) (hd : t.done = true) :
    Finished s t := by
  by_cases hp : s.phase = .idle
  · rw [engineStep_of_idle hp] at ht
    cases ht
    simp [hs] at hd
  · obtain ⟨e, u, hu, rfl⟩ | hf | ⟨-, hgo⟩ := (engineStep_took ht).ends_or_goes_on hp
    · simp [hu, hs] at hd
    · exact hf
    · simp [hgo, hs] at hd

/-! The bound on a job's steps (R92). -/

/-- A bound on the steps a job still takes, from any of its states but the decode header, where `N` is not known yet:
each step of a decode body consumes an input byte or writes a pixel, each of an encode body consumes a pixel. -/
def State.stepsLeft (s : State) : Nat :=
  match s.phase with
  | .idle | .dHdr => 0
  | .dBody => s.inLen.toNat - s.inPos.toNat + (s.pixelCount - s.px.toNat) + 1 + 1
  | .dTrail => 1
  | .eHdr => 1 + s.pixelCount + 1 + 1 + 1
  | .eBody => s.pixelCount - s.px.toNat + 1 + 1 + 1
  | .eFlush => 1 + 1
  | .eTrail => 1

theorem stepsLeft_dBody (hp : s.phase = .dBody) :
    s.stepsLeft = s.inLen.toNat - s.inPos.toNat + (s.pixelCount - s.px.toNat) + 1 + 1 := by
  simp [State.stepsLeft, hp]

theorem stepsLeft_eHdr (hp : s.phase = .eHdr) : s.stepsLeft = 1 + s.pixelCount + 1 + 1 + 1 := by
  simp [State.stepsLeft, hp]

theorem stepsLeft_eBody (hp : s.phase = .eBody) : s.stepsLeft = s.pixelCount - s.px.toNat + 1 + 1 + 1 := by
  simp [State.stepsLeft, hp]

@[simp] theorem storePixel_stepsLeft (p : Pixel) (s : State) : (s.storePixel p).stepsLeft = s.stepsLeft := rfl

theorem stepsLeft_dTrail (hp : s.phase = .dTrail) : s.stepsLeft = 1 := by simp [State.stepsLeft, hp]

theorem stepsLeft_eFlush (hp : s.phase = .eFlush) : s.stepsLeft = 1 + 1 := by simp [State.stepsLeft, hp]

theorem stepsLeft_eTrail (hp : s.phase = .eTrail) : s.stepsLeft = 1 := by simp [State.stepsLeft, hp]

theorem stepsLeft_idle (hp : s.phase = .idle) : s.stepsLeft = 0 := by simp [State.stepsLeft, hp]

theorem stepsLeft_pos (hp : s.phase ≠ .idle) (hd : s.phase ≠ .dHdr) : 0 < s.stepsLeft := by
  unfold State.stepsLeft
  split
  · contradiction
  · contradiction
  all_goals omega

@[simp] theorem afterChunk_pixelCount (p : Pixel) (d : Bool) (s : State) :
    (afterChunk p d s).pixelCount = s.pixelCount := by cases d <;> rfl

/-- A pixel put in a decode body is one step less. -/
theorem DecodeOk.stepsLeft_pixelPut (h : DecodeOk s) (hp : s.phase = .dBody) (hpx : s.px.toNat ≠ s.pixelCount)
    (p : Pixel) : (Machine.pixelPut p s).stepsLeft < s.stepsLeft := by
  have hlt := h.px_lt hpx
  have hsucc : (s.px + 1).toNat = s.px.toNat + 1 := h.px_succ h.raster hlt
  rw [stepsLeft_dBody hp, stepsLeft_dBody (s := Machine.pixelPut p s) hp]
  show s.inLen.toNat - s.inPos.toNat + (s.pixelCount - (s.px + 1).toNat) + 1 + 1 < _
  omega

/-- Input bytes consumed in a decode body are at least one step less. -/
theorem stepsLeft_advanceIn (hp : s.phase = .dBody) (hn : 1 ≤ n)
    (hl : s.inPos.toNat + n ≤ s.inLen.toNat) : (s.advanceIn n).stepsLeft < s.stepsLeft := by
  have hpos : (s.inPos + BitVec.ofNat 32 n).toNat = s.inPos.toNat + n := toNat_add_ofNat (by omega)
  rw [stepsLeft_dBody hp, stepsLeft_dBody (s := s.advanceIn n) hp]
  show s.inLen.toNat - (s.inPos + BitVec.ofNat 32 n).toNat + (s.pixelCount - s.px.toNat) + 1 + 1 < _
  omega

/-- A pixel consumed in an encode body is one step less, whatever else the step does. -/
theorem EncodeOk.stepsLeft_next (h : EncodeOk s) (hp : s.phase = .eBody) (hpx : s.px.toNat ≠ s.pixelCount)
    (htp : t.phase = .eBody) (hn : t.pixelCount = s.pixelCount) (ht : t.px = s.px + 1) :
    t.stepsLeft < s.stepsLeft := by
  have hlt := h.px_lt hpx
  have hsucc : (s.px + 1).toNat = s.px.toNat + 1 := h.px_succ h.raster hlt
  rw [stepsLeft_eBody hp, stepsLeft_eBody htp, hn, ht]
  omega

/-- Every step of a job past its decode header is one step less. -/
theorem Took.stepsLeft_lt (ht : Took s t) (h : Inv s) (hi : s.phase ≠ .idle) (hd : s.phase ≠ .dHdr) :
    t.stepsLeft < s.stepsLeft := by
  have hdec (hp : s.phase = .dBody) : DecodeOk s := (phaseOk_dBody hp).1 h.phase
  have henc (hp : s.phase = .eBody) : EncodeOk s := (phaseOk_eBody hp).1 h.phase
  have hpos := stepsLeft_pos hi hd
  cases ht with
  | rest hp => exact absurd hp hi
  | badHeader _ hp | goodHeader hp => exact absurd hp hd
  | raised | trailing | decodeDone | encodeDone => exact hpos
  | bodyEnd hp => rw [stepsLeft_dBody hp, stepsLeft_dTrail rfl]; omega
  | runPixel hp hpx =>
    have hrun : (s.run - 1).toNat ≤ 62 := by have := (hdec hp).run; bv_omega
    exact ((hdec hp).with_run hrun).stepsLeft_pixelPut hp hpx s.prev
  | runChunk n c hp _ _ hn hl =>
    show (s.advanceIn n).stepsLeft < _
    exact stepsLeft_advanceIn hp hn hl
  | indexChunk n p hp hpx _ hn hl =>
    exact (((hdec hp).advanceIn hl).stepsLeft_pixelPut hp hpx p).trans (stepsLeft_advanceIn hp hn hl)
  | pixelChunk n p hp hpx _ hn hl =>
    have hput := (((hdec hp).advanceIn hl).storePixel p).stepsLeft_pixelPut hp hpx p
    rw [storePixel_stepsLeft] at hput
    exact hput.trans (stepsLeft_advanceIn hp hn hl)
  | wroteHeader hp =>
    rw [stepsLeft_eHdr hp, stepsLeft_eBody rfl]
    show s.pixelCount - s.px.toNat + 1 + 1 + 1 < _
    omega
  | encodeEnd hp => rw [stepsLeft_eBody hp, stepsLeft_eFlush rfl]; omega
  | joined hp hpx => exact (henc hp).stepsLeft_next hp hpx hp rfl rfl
  | wroteChunk p i d hp hpx =>
    exact (henc hp).stepsLeft_next hp hpx ((afterChunk_phase ..).trans hp)
      (by rw [afterChunk_pixelCount]; rfl) (afterChunk_px ..)
  | flushed hp | noFlush hp => rw [stepsLeft_eFlush hp, stepsLeft_eTrail rfl]; omega

/-- Only the decode header's step changes the image's size. -/
theorem Took.pixelCount (ht : Took s t) (hd : s.phase ≠ .dHdr) : t.pixelCount = s.pixelCount := by
  cases ht with
  | badHeader _ hp | goodHeader hp => exact absurd hp hd
  | wroteChunk => exact afterChunk_pixelCount ..
  | _ => rfl

/-- An engine step leaves the pending moves of the world outside alone. -/
theorem Took.host (ht : Took s t) : t.host = s.host := by
  cases ht with
  | wroteChunk => exact afterChunk_host ..
  | _ => rfl

/-- From `s` the engine reaches, within `b` steps, the end of a job for an image of `n` pixels (R92). -/
def EndsWithin (b n : Nat) (s : State) : Prop :=
  ∃ k t, runSteps k s = .next t ∧ t.phase = .idle ∧ (t.done = true ∨ t.err = true) ∧ t.pixelCount = n ∧ k ≤ b

theorem endsWithin_of_ended (hi : s.phase = .idle) (hf : s.done = true ∨ s.err = true) :
    EndsWithin b s.pixelCount s := ⟨0, s, rfl, hi, hf, rfl, Nat.zero_le b⟩

theorem EndsWithin.step (h : EndsWithin b n u) (hu : step s = .next u) : EndsWithin (b + 1) n s := by
  obtain ⟨k, t, hrun, hi, hf, hn, hk⟩ := h
  exact ⟨k + 1, t, by simpa [runSteps, hu] using hrun, hi, hf, hn, Nat.succ_le_succ hk⟩

/-- The two ways back to IDLE both leave a flag set (R96). -/
theorem Took.flagged (ht : Took s t) (hp : s.phase ≠ .idle) (hi : t.phase = .idle) : t.done = true ∨ t.err = true :=
  (ht.back_to_idle hp hi).elim (fun h => .inr h.1) fun h => .inl h.2

/-- A job past its decode header ends within the steps left: each step lowers them, and only an ended job has none. -/
theorem endsWithin_stepsLeft (b : Nat) : ∀ {s : State}, Inv s → s.host = [] → s.phase ≠ .dHdr →
    (s.phase = .idle → s.done = true ∨ s.err = true) → s.stepsLeft ≤ b → EndsWithin b s.pixelCount s := by
  induction b with
  | zero =>
    intro s _ _ hd hf hb
    have hi : s.phase = .idle := by_contra fun hi => absurd (stepsLeft_pos hi hd) (by omega)
    exact endsWithin_of_ended hi (hf hi)
  | succ b ih =>
    intro s h hh hd hf hb
    by_cases hi : s.phase = .idle
    · exact endsWithin_of_ended hi (hf hi)
    obtain ⟨u, hu⟩ := engineStep_completes h
    have ht := engineStep_took hu
    have hlt := ht.stepsLeft_lt h hi hd
    have hrest := ih (engineStep_inv h hu) (ht.host.trans hh) ht.phase_ne_dHdr (ht.flagged hi) (by omega)
    rw [ht.pixelCount hd] at hrest
    exact hrest.step ((step_of_no_host hh).trans hu)

theorem Took.inLen (ht : Took s t) : t.inLen = s.inLen := by
  cases ht with
  | wroteChunk => exact afterChunk_inLen ..
  | _ => rfl

/-- After its header a decode job has at most a step for each input byte and each pixel, and two more. -/
theorem Took.stepsLeft_of_header (ht : Took s t) (hp : s.phase = .dHdr) :
    t.stepsLeft ≤ s.inLen.toNat + t.pixelCount + 1 + 1 := by
  have htr := ht.transition
  rw [hp] at htr
  cases hq : t.phase with
  | idle => rw [stepsLeft_idle hq]; omega
  | dBody => rw [stepsLeft_dBody hq, ht.inLen]; omega
  | _ => rw [hq] at htr; contradiction

/-! The end of a successful job (R95). -/

theorem statusWord_finishJob (he : s.err = false) (hc : s.errcode = 0) : (finishJob s).statusWord = 2 := by
  simp [State.statusWord, flagAt, he, hc]

theorem irq_finishJob (s : State) : (finishJob s).irq = s.irqEn := by simp [State.irq]

/-! The host's register writes (R83, R85 to R88). -/

theorem hostStep_regWrite (ha : off % 4 = 0) (hlt : off < 64) (hw : writeReg off v s = t) :
    hostStep (.regWrite 4 off v) s = .next t := hw ▸ regAccess_of_aligned ha hlt _

theorem writeReg_of_busy (hb : s.busy = true) (off : Nat) (v : Word) :
    writeReg off v s = { s with irqEn := if off = 0 then v.getLsbD 2 else s.irqEn } := by
  rw [writeReg, if_pos hb, writeRegBusy]
  split <;> rfl

theorem writeReg_of_idle (hb : s.busy = false) (off : Nat) (v : Word) : writeReg off v s = writeRegIdle off v s := by
  simp [writeReg, hb]

/-- Past CTRL and STATUS an idle write touches only the seven RW registers there, each at its own offset. -/
theorem writeRegIdle_eq (h : 8 ≤ off) (v : Word) (s : State) :
    writeRegIdle off v s =
      { s with
        width := if off = 0x08 then v else s.width
        height := if off = 0x0C then v else s.height
        channels := if off = 0x10 then BitVec.ofNat 8 v.toNat else s.channels
        colorspace := if off = 0x10 then BitVec.ofNat 8 (v.toNat / 256) else s.colorspace
        inBase := if off = 0x14 then v else s.inBase
        inLen := if off = 0x18 then v else s.inLen
        outBase := if off = 0x1C then v else s.outBase
        outCap := if off = 0x20 then v else s.outCap } := by
  unfold writeRegIdle
  split
  · exact absurd h (by decide)
  · exact absurd h (by decide)
  iterate 7 · rfl
  · simp_all

/-- CTRL's fields as a write sets them, before START acts on them (R86). -/
def State.setCtrl (v : Word) (s : State) : State :=
  { s with mode := Mode.ofBit (v.getLsbD 1), irqEn := v.getLsbD 2, strictEnd := v.getLsbD 3 }

theorem writeCtrl_eq (v : Word) (s : State) :
    writeCtrl v s = if v.getLsbD 0 = true then startJob (s.setCtrl v) else s.setCtrl v := rfl

theorem Mode.ofBit_eq (b : Bool) : Mode.ofBit b = if b = true then .encode else .decode := by cases b <;> rfl

/-- START enters the first phase of the mode (R87). -/
theorem startJob_phase_eq (s : State) : (startJob s).phase = if s.mode = .encode then .eHdr else .dHdr := by
  cases h : s.mode <;> simp [h]

/-- A register write keeps the phase, or is a START while idle. -/
theorem writeReg_phase (off : Nat) (v : Word) (s : State) :
    (writeReg off v s).phase = s.phase ∨
    (s.phase = .idle ∧ off = 0 ∧ v.getLsbD 0 = true ∧
      (writeReg off v s).phase = if (writeReg off v s).mode = .encode then .eHdr else .dHdr) := by
  cases hb : s.busy with
  | true => exact .inl (by rw [writeReg_of_busy hb])
  | false =>
    rw [writeReg_of_idle hb]
    unfold writeRegIdle
    split
    · by_cases hv : v.getLsbD 0 = true
      · rw [writeCtrl_eq, if_pos hv]
        exact .inr ⟨s.busy_eq_false_iff.1 hb, rfl, hv, startJob_phase_eq _⟩
      · rw [writeCtrl_eq, if_neg hv]
        exact .inl rfl
    all_goals exact .inl rfl

theorem ackFlags_done (v : Word) (s : State) : (s.ackFlags v).done = (s.done && !v.getLsbD 1) := by
  rw [State.ackFlags]
  cases v.getLsbD 1 <;> simp

theorem ackFlags_err (v : Word) (s : State) : (s.ackFlags v).err = (s.err && !v.getLsbD 2) := by
  rw [State.ackFlags]
  cases v.getLsbD 2 <;> simp

/-! The host's register reads (R84, R45). -/

theorem hostStep_regRead (ha : off % 4 = 0) (hlt : off < 64) (hr : readReg off s = t) :
    hostStep (.regRead 4 off) s = .next t := hr ▸ regAccess_of_aligned ha hlt _

/-- A read whose value is hidden from the host: a register of R45, while BUSY. -/
abbrev ReadHidden (s : State) (off : Nat) : Prop :=
  s.busy = true ∧ (off = 0x08 ∨ off = 0x0C ∨ off = 0x10 ∨ off = 0x24 ∨ off = 0x28 ∨ off = 0x2C)

/-- A read changes nothing but what it returns and, where the value is hidden, the count of draws. -/
theorem readReg_eq (off : Nat) (s : State) :
    readReg off s =
      { s with
        hostWord := if ReadHidden s off then Config.freeWord s.draws else regValue off s
        draws := if ReadHidden s off then s.draws + 1 else s.draws } := by
  have hiff : (s.busy && unspecifiedWhileBusy off) = true ↔ ReadHidden s off := by simp [unspecifiedWhileBusy]
  by_cases h : ReadHidden s off
  · rw [readReg, if_pos (hiff.2 h), if_pos h, if_pos h]
  · rw [readReg, if_neg (mt hiff.1 h), if_neg h, if_neg h]

theorem ctrlWord_toNat (s : State) : s.ctrlWord.toNat =
    (if s.mode = .encode then 2 else 0) + (if s.irqEn then 4 else 0) + (if s.strictEnd then 8 else 0) := by
  have hmode : flagAt 1 s.mode.bit = if s.mode = .encode then 2 else 0 := by cases hm : s.mode <;> rfl
  rw [State.ctrlWord, BitVec.toNat_ofNat, hmode, flagAt, flagAt]
  split_ifs <;> omega

theorem statusWord_toNat (s : State) : s.statusWord.toNat =
    (if s.phase = .idle then 0 else 1) + (if s.done then 2 else 0) + (if s.err then 4 else 0) +
      16 * s.errcode.toNat := by
  have hcode := s.errcode.isLt
  have hbusy : flagAt 0 s.busy = if s.phase = .idle then 0 else 1 := by
    by_cases hp : s.phase = .idle <;> simp [flagAt, State.busy, hp]
  rw [State.statusWord, BitVec.toNat_ofNat, hbusy, flagAt, flagAt]
  split_ifs <;> omega

theorem formatWord_toNat (s : State) : s.formatWord.toNat = s.channels.toNat + 256 * s.colorspace.toNat := by
  have := s.channels.isLt
  have := s.colorspace.isLt
  rw [State.formatWord, BitVec.toNat_ofNat]
  omega

/-! The statements. -/

/-- Settles O52: the steps left of a job past its decode header bound it, and the decode header leaves at most a step for
each input byte and each pixel. -/
theorem everyJobEndsWithinItsBound : Obligations.EveryJobEndsWithinItsBound := by
  intro s h hh
  refine ⟨fun hp => ?_, fun hp => ?_⟩
  · have hi : s.phase ≠ .idle := by simp [hp]
    obtain ⟨u, hu⟩ := engineStep_completes h
    have ht := engineStep_took hu
    have hends := (endsWithin_stepsLeft u.stepsLeft (engineStep_inv h hu) (ht.host.trans hh) ht.phase_ne_dHdr
      (ht.flagged hi) le_rfl).step ((step_of_no_host hh).trans hu)
    obtain ⟨k, t, hrun, hti, htf, hn, hk⟩ := hends
    have hleft := ht.stepsLeft_of_header hp
    exact ⟨k, t, hrun, hti, htf, by omega⟩
  · obtain ⟨k, t, hrun, hti, htf, hn, hk⟩ :=
      endsWithin_stepsLeft s.stepsLeft h hh (by simp [hp]) (by simp [hp]) le_rfl
    rw [stepsLeft_eHdr hp] at hk
    exact ⟨k, t, hrun, hti, htf, by omega⟩

/-- Settles O36: the engine's transitions by the cases of `Took`; of the other moves only a START write and reset touch
the phase. -/
theorem phaseChangesOnlyAsListed : Obligations.PhaseChangesOnlyAsListed := by
  refine ⟨fun s t ht => (engineStep_took ht).transition, fun s t m hm ht => ?_,
    fun s t ht hp hi => (engineStep_took ht).back_to_idle hp hi⟩
  cases m with
  | regWrite size off v =>
    obtain ⟨rfl, -, -, rfl⟩ := regAccess_next ht
    obtain hsame | ⟨hp, rfl, hv, hstart⟩ := writeReg_phase off v s
    · exact .inl hsame
    · exact .inr (.inr ⟨hp, ⟨v, rfl, hv⟩, hstart⟩)
  | regRead size off =>
    obtain ⟨-, -, -, rfl⟩ := regAccess_next ht
    exact .inl (by rw [readReg_eq])
  | memWrite a v => exact .inl (by rw [hostMemWrite_next ht])
  | memRead a =>
    cases ht
    exact .inl (by rw [hostMemRead_eq])
  | rst =>
    cases ht
    exact .inr (.inl ⟨rfl, rfl⟩)
  | letEngineStep => exact absurd rfl hm

/-- Settles O42: a job finishes in one of two steps, where the invariant ties the cursors to `N`. -/
theorem successLeavesExactRegisters : Obligations.SuccessLeavesExactRegisters := by
  intro s t h ht hs hd
  cases engineStep_finished ht hs hd with
  | decode hp hl =>
    have hf := h.flagsClear (by simp [hp])
    obtain ⟨hok, hpx, -⟩ := (phaseOk_dTrail hp).1 h.phase
    have hpos : (s.inPos + BitVec.ofNat 32 8).toNat = s.inPos.toNat + 8 := toNat_add_ofNat (by omega)
    refine ⟨rfl, statusWord_finishJob hf.err hf.errcode, irq_finishJob _, rfl, rfl, rfl, rfl, hpx,
      fun _ => ⟨hpx ▸ hok.outPos, hpos, hpos.trans_le hl⟩, fun hm => ?_⟩
    simp [hok.mode] at hm
  | encode hp hl =>
    have hf := h.flagsClear (by simp [hp])
    obtain ⟨hok, hpx, -⟩ := (phaseOk_eTrail hp).1 h.phase
    have hpos : (emitted endMarker s).outPos.toNat = s.outPos.toNat + 8 := emitted_outPos hl
    refine ⟨rfl, statusWord_finishJob hf.err hf.errcode, irq_finishJob _, rfl, rfl, rfl, rfl, hpx, fun hm => ?_,
      fun _ => ⟨hpx ▸ hok.inPos, hpos, hpos.trans_le hl⟩⟩
    simp [hok.mode] at hm

/-- Settles O44: a read's value is a free draw or the register's, whose fields are read off offset by offset. -/
theorem readsGiveTheStoredFields : Obligations.ReadsGiveTheStoredFields := by
  intro s off ha hlt
  refine ⟨_, hostStep_regRead ha hlt (readReg_eq off s), fun hb => ⟨if_pos hb, if_pos hb⟩,
    fun hb => ⟨if_neg hb, ?_⟩, by constructor <;> rfl, by constructor <;> rfl, by constructor <;> rfl, rfl, rfl, rfl⟩
  dsimp only
  rw [if_neg hb]
  unfold regValue
  split
  · exact ctrlWord_toNat s
  · exact statusWord_toNat s
  · rfl
  · rfl
  · exact formatWord_toNat s
  iterate 7 · rfl
  · simp_all

/-- Settles O45: an idle write past STATUS sets the register at its offset. -/
theorem idleWritesSetTheirRegister : Obligations.IdleWritesSetTheirRegister := by
  intro s off v hb ha h8 hlt
  refine ⟨_, hostStep_regWrite ha hlt ((writeReg_of_idle hb off v).trans (writeRegIdle_eq h8 v s)), rfl, rfl, ?_, ?_,
    rfl, rfl, rfl, rfl, rfl, rfl, rfl, rfl, rfl, rfl, rfl, by constructor <;> rfl, by constructor <;> rfl, rfl,
    by constructor <;> rfl⟩
  · exact (apply_ite BitVec.toNat ..).trans (by rw [BitVec.toNat_ofNat])
  · exact (apply_ite BitVec.toNat ..).trans (by rw [BitVec.toNat_ofNat])

/-- Settles O47: CTRL's fields are set first, and START acts on them. -/
theorem ctrlWriteStartsAJob : Obligations.CtrlWriteStartsAJob := by
  intro s v hb
  have hw : hostStep (.regWrite 4 0 v) s = .next (writeCtrl v s) :=
    hostStep_regWrite rfl (by decide) (writeReg_of_idle hb 0 v)
  refine ⟨_, hw, ?_⟩
  rw [writeCtrl_eq]
  cases hv : v.getLsbD 0 with
  | false =>
    exact ⟨Mode.ofBit_eq _, rfl, rfl,
      fun _ => ⟨rfl, rfl, rfl, by constructor <;> rfl, by constructor <;> rfl, rfl⟩, fun h => by simp at h,
      rfl, rfl, rfl, rfl, rfl, rfl, rfl, rfl, rfl, by constructor <;> rfl⟩
  | true =>
    have hphase : (startJob (s.setCtrl v)).phase = if v.getLsbD 1 = true then .eHdr else .dHdr := by
      rw [startJob_phase_eq]
      show (if Mode.ofBit (v.getLsbD 1) = .encode then Phase.eHdr else .dHdr) = _
      cases v.getLsbD 1 <;> rfl
    refine ⟨Mode.ofBit_eq _, rfl, rfl, fun h => by simp at h, fun _ => ⟨rfl, rfl, rfl, rfl, rfl, rfl,
      fun k h => Vector.getElem_replicate h, rfl, rfl, hphase, ?_⟩,
      rfl, rfl, rfl, rfl, rfl, rfl, rfl, rfl, rfl, by constructor <;> rfl⟩
    rw [if_pos rfl, State.busy, hphase]
    cases v.getLsbD 1 <;> rfl

/-- Settles O46 from the definition of the acknowledging write. -/
theorem statusWritesClearFlags : Obligations.StatusWritesClearFlags := by
  intro s v hb
  refine ⟨_, hostStep_regWrite rfl (by decide) (writeReg_of_idle hb 4 v), ackFlags_done v s, ackFlags_err v s,
    rfl, ?_, ?_, ?_, rfl, rfl, ?_⟩ <;> constructor <;> rfl

/-- Settles O48: the busy write is one update of IRQ_EN. -/
theorem busyWritesChangeOnlyTheIrqEnable : Obligations.BusyWritesChangeOnlyTheIrqEnable := fun _ off v hb ha hlt =>
  hostStep_regWrite ha hlt (writeReg_of_busy hb off v)

end Sys2Proof.Machine
end

section
/-! The statements about the header (41_header.md). Each header step is described once, by the number of the check that
fails: the model's checks run through the same conditions as the statements' numbering, read off the registers that hold
the header. -/

namespace Sys2Proof.Machine

variable {s : State}

/-! The header's fields. -/

theorem toNat_append_byte {w : Nat} (x : BitVec w) (b : Byte) : (x ++ b).toNat = x.toNat * 2 ^ 8 + b.toNat := by
  rw [BitVec.toNat_append, ← Nat.shiftLeft_add_eq_or_of_lt b.isLt, Nat.shiftLeft_eq]

/-- The concatenation of four bytes is their big-endian value (R15). -/
theorem be32_toNat (b0 b1 b2 b3 : Byte) : (be32 b0 b1 b2 b3).toNat = bigEndian b0 b1 b2 b3 := by
  simp only [be32, bigEndian, toNat_append_byte]
  ring

theorem be32Bytes_eq (w : Word) : be32Bytes w = bigEndianBytes w := by
  simp [be32Bytes, byteOf, bigEndianBytes]

theorem headerBytes_getD {k : Nat} (hk : k < headerLen) (s : State) :
    (headerBytes s).getD k 0 = s.mem.read (s.inBase.toNat + k) := by
  have hlen : k < (headerBytes s).length := by rwa [headerBytes, Memory.readList_length]
  rw [List.getD_eq_getElem _ _ hlen]
  exact Memory.readList_getElem ..

theorem headerBytes_take_eq_magic_iff (s : State) : (headerBytes s).take 4 = magic ↔
    s.mem.read (s.inBase.toNat + 0) = 0x71 ∧ s.mem.read (s.inBase.toNat + 1) = 0x6F ∧
      s.mem.read (s.inBase.toNat + 2) = 0x69 ∧ s.mem.read (s.inBase.toNat + 3) = 0x66 := by
  simp [headerBytes, headerLen, Memory.readList, magic]

/-- The header step loads the raw fields (R97, R101). -/
theorem withHeader_holdsRawHeader (s : State) : HoldsRawHeader s (s.withHeader (headerBytes s)) := by
  simp (disch := decide) only [HoldsRawHeader, State.withHeader_width, State.withHeader_height,
    State.withHeader_channels, State.withHeader_colorspace, be32_toNat, headerBytes_getD, and_self]

/-! The checks by number. -/

/-- The shared checks, with the conditions as the statements write them. -/
theorem formatError_eq (cap : Word) (s : State) : formatError cap s =
    if s.channels ≠ 3 ∧ s.channels ≠ 4 then some .unsupportedChannels
    else if s.colorspace ≠ 0 ∧ s.colorspace ≠ 1 then some .unsupportedColorspace
    else if s.width.toNat = 0 ∨ s.height.toNat = 0 then some .invalidDimensions
    else if s.width.toNat * s.height.toNat * s.channels.toNat > cap.toNat then some .dimensionOverflow
    else none := by
  have hzero (w : Word) : w = 0 ↔ w.toNat = 0 := BitVec.toNat_eq
  unfold formatError State.rasterSize State.pixelCount
  simp only [not_or, hzero, ne_eq]

/-- The error of a failing header check, by the check's number (R99). -/
def headerErrorAt : Nat → JobError
  | 1 => .badMagic
  | 2 => .unsupportedChannels
  | 3 => .unsupportedColorspace
  | 4 => .invalidDimensions
  | _ => .dimensionOverflow

/-- The error of a failing configuration check, by the check's number (R114). -/
def configErrorAt : Nat → JobError
  | 2 => .unsupportedChannels
  | 3 => .unsupportedColorspace
  | 4 => .invalidDimensions
  | 5 => .dimensionOverflow
  | _ => .outputOverflow

/-- The error a check's number stands for under a table of errors: none for 0. -/
def errorOfCheck (errorAt : Nat → JobError) (n : Nat) : Option JobError := if n = 0 then none else some (errorAt n)

/-- The header's first failing check is the numbered one. -/
theorem headerError_eq (s : State) : headerError (headerBytes s) (s.withHeader (headerBytes s)) =
    errorOfCheck headerErrorAt (headerCheckFailed s) := by
  obtain ⟨hwidth, hheight, hchannels, hcolorspace⟩ := withHeader_holdsRawHeader s
  unfold headerError headerCheckFailed
  rw [State.withHeader_outCap, formatError_eq, hwidth, hheight, hchannels, hcolorspace]
  simp only [ne_eq, headerBytes_take_eq_magic_iff]
  split_ifs <;> rfl

/-! The steps. -/

/-- The state after a header that passes every check (R99). -/
def headerRead (s : State) : State :=
  { s.withHeader (headerBytes s) with inPos := BitVec.ofNat 32 headerLen, phase := .dBody }

theorem parseHeader_eq (s : State) : parseHeader (headerBytes s) s =
    if headerCheckFailed s = 0 then headerRead s
    else raiseError (headerErrorAt (headerCheckFailed s)) (s.withHeader (headerBytes s)) := by
  rw [parseHeader, headerError_eq, errorOfCheck]
  split_ifs <;> rfl

theorem stepDHdr_of_not_fit (hw : ¬WindowsFit s) : stepDHdr s = .next (raiseError .invalidConfig s) :=
  if_pos (mt (windowsOk_iff_fit s).1 hw)

theorem stepDHdr_of_short (hw : WindowsFit s) (hl : s.inLen.toNat < 22) :
    stepDHdr s = .next (raiseError .truncatedStream s) :=
  (if_neg (not_not.2 ((windowsOk_iff_fit s).2 hw))).trans (if_pos hl)

theorem stepDHdr_of_fits (hw : WindowsFit s) (hl : 22 ≤ s.inLen.toNat) :
    stepDHdr s = .next (parseHeader (headerBytes s) s) := by
  have hin : s.inBase.toNat + s.inLen.toNat ≤ 2 ^ 32 := hw.1
  have hfit : s.inBase.toNat + headerLen ≤ memSize := by unfold headerLen memSize; omega
  exact (if_neg (not_not.2 ((windowsOk_iff_fit s).2 hw))).trans
    ((if_neg (not_lt.2 hl)).trans (fetchBytes_of_le hfit _))

/-- The state after the header is written (R114). -/
def headerWritten (s : State) : State :=
  { s with
    mem := s.mem.writeList s.outBase.toNat (writeHeader s.width s.height s.channels s.colorspace)
    outPos := BitVec.ofNat 32 headerLen
    phase := .eBody }

theorem headerWrite_of_room (hw : WindowsFit s) (hroom : s.outPos.toNat + 14 ≤ s.outCap.toNat) :
    headerWrite s = .next (headerWritten s) := by
  obtain ⟨-, hout, -⟩ := hw
  have hfit : s.outBase.toNat + (writeHeader s.width s.height s.channels s.colorspace).length ≤ memSize := by
    rw [writeHeader_length]; unfold memSize; omega
  exact (if_neg (not_lt.2 hroom)).trans (storeBytes_of_le hfit _)

theorem stepEHdr_of_not_fit (hw : ¬WindowsFit s) : stepEHdr s = .next (raiseError .invalidConfig s) := by
  have hcfg : configError s = some .invalidConfig := if_pos (mt (windowsOk_iff_fit s).1 hw)
  rw [stepEHdr, hcfg]

/-- The encoder's first step runs through the numbered checks and then writes (R114). -/
theorem stepEHdr_of_fits (hw : WindowsFit s) : stepEHdr s = .next
    ((errorOfCheck configErrorAt (configCheckFailed s)).elim (headerWritten s) (raiseError · s)) := by
  have hcfg : configError s = formatError s.inLen s := if_neg (not_not.2 ((windowsOk_iff_fit s).2 hw))
  have hzero (w : Word) : w = 0 ↔ w.toNat = 0 := BitVec.toNat_eq
  rw [stepEHdr, hcfg, formatError_eq]
  simp only [configCheckFailed, hzero]
  split_ifs with hchannels hcolorspace hsize hraster hroom
  iterate 4 · rfl
  · exact if_pos hroom
  · exact headerWrite_of_room hw (not_lt.1 hroom)

theorem headerWritten_storesAt (s : State) : StoresAt s (headerWritten s) s.outBase.toNat
    ([0x71, 0x6F, 0x69, 0x66] ++ bigEndianBytes s.width ++ bigEndianBytes s.height ++ [s.channels, s.colorspace]) :=
  storesAt_writeList (by rw [← be32Bytes_eq, ← be32Bytes_eq]; rfl)

/-! The statements. -/

/-- Settles O25: the windows and the length are checked on the state as it was, the header's fields once they are
loaded; that the cursors and the flags are 0 is the invariant's. -/
theorem headerStepReportsTheFirstFailingCheck : Obligations.HeaderStepReportsTheFirstFailingCheck := by
  intro s h hhost hp
  have hstep : step s = stepDHdr s := by rw [step_of_no_host hhost, engineStep, hp]
  rw [hstep]
  by_cases hw : WindowsFit s
  case neg =>
    exact ⟨_, stepDHdr_of_not_fit hw, fun _ => raiseError_spec _ s, fun hw' => absurd hw' hw, fun hw' => absurd hw' hw⟩
  by_cases hl : s.inLen.toNat < 22
  case pos =>
    exact ⟨_, stepDHdr_of_short hw hl, fun hw' => absurd hw hw', fun _ _ => raiseError_spec _ s,
      fun _ hl' => absurd hl (not_lt.2 hl')⟩
  obtain ⟨-, hfresh⟩ := (phaseOk_dHdr hp).1 h.phase
  have hflags := h.flagsClear (by simp [hp])
  have hraw := withHeader_holdsRawHeader s
  refine ⟨_, stepDHdr_of_fits hw (not_lt.1 hl), fun hw' => absurd hw hw', fun _ hl' => absurd hl' hl, fun _ _ => ?_⟩
  rw [parseHeader_eq]
  split_ifs with hcheck
  · exact ⟨hraw, by constructor <;> rfl, fun hne => absurd hcheck hne, fun _ => ⟨rfl, rfl, hfresh.outPos, hfresh.px,
      hflags.done, hflags.err, hflags.errcode, by constructor <;> rfl, fun _ => rfl, by constructor <;> rfl⟩⟩
  · exact ⟨hraw, by constructor <;> rfl, fun _ => ⟨⟨rfl, hflags.done, rfl, rfl⟩, hfresh.inPos, hfresh.outPos, hfresh.px,
      raiseError_read _ (s.withHeader (headerBytes s))⟩, fun h0 => absurd h0 hcheck⟩

/-- Settles O26: the windows first, then the numbered checks, then the header at OUT_BASE. -/
theorem encoderHeaderStepChecksThenWrites : Obligations.EncoderHeaderStepChecksThenWrites := by
  intro s hhost hp
  have hstep : step s = stepEHdr s := by rw [step_of_no_host hhost, engineStep, hp]
  rw [hstep]
  by_cases hw : WindowsFit s
  case neg =>
    exact ⟨_, stepEHdr_of_not_fit hw, fun _ => raiseError_spec _ s, fun hw' => absurd hw' hw, fun hw' => absurd hw' hw⟩
  refine ⟨_, stepEHdr_of_fits hw, fun hw' => absurd hw hw', ?_⟩
  unfold errorOfCheck
  split_ifs with hcheck
  · exact ⟨fun _ hne => absurd hcheck hne, fun _ _ => ⟨headerWritten_storesAt s, rfl, rfl, rfl, rfl,
      by constructor <;> rfl, by constructor <;> rfl, by constructor <;> rfl⟩⟩
  · exact ⟨fun _ _ => raiseError_spec _ s, fun _ h0 => absurd h0 hcheck⟩

end Sys2Proof.Machine
end

section
/-! The statements about the cache (42_cache.md). The chunk the multiplexer picks gives its pixel back to a decoder with
the same cache and `prev`: the delta chunks because a delta undoes the difference it was taken from, INDEX because the
encoder looked the entry up. The multiplexer's store bit says whether both sides store that pixel (R111). -/

namespace Sys2Proof.Machine

variable {s t : State} {p prev : Pixel}

/-! The deltas give the pixel back (R119, R139, R140). -/

/-- A channel plus its delta, wrapped, is the new channel. -/
theorem wrap8_add_channelDelta (new old : Byte) : wrap8 (chan old + channelDelta new old) = new := by
  obtain ⟨-, -, hmod⟩ := channelDelta_spec new old
  have hwrap := wrap8_toNat (chan old + channelDelta new old)
  have hnew := new.isLt
  unfold chan at hwrap ⊢
  exact BitVec.eq_of_toNat_eq (by omega)

theorem diffPixel_deltaUnit (ha : p.a = prev.a) :
    diffPixel prev (deltaUnit p prev).dr (deltaUnit p prev).dg (deltaUnit p prev).db = p := by
  simp only [diffPixel, deltaUnit, wrap8_add_channelDelta, ← ha]

/-- The relative deltas name the same pixel as the plain ones. -/
theorem lumaPixel_eq_diffPixel (prev : Pixel) (dr dg db : Int) :
    lumaPixel prev dg (dr - dg) (db - dg) = diffPixel prev dr dg db := by
  simp only [lumaPixel, diffPixel, add_assoc, add_sub_cancel]

theorem lumaPixel_deltaUnit (ha : p.a = prev.a) :
    lumaPixel prev (deltaUnit p prev).dg (deltaUnit p prev).drDg (deltaUnit p prev).dbDg = p :=
  (lumaPixel_eq_diffPixel prev _ _ _).trans (diffPixel_deltaUnit ha)

theorem deltaUnit_aeq : (deltaUnit p prev).aeq = true ↔ p.a = prev.a := decide_eq_true_iff

theorem Deltas.aeq_of_fitsDiff {d : Deltas} (h : d.fitsDiff = true) : d.aeq = true := by
  simp only [Deltas.fitsDiff, Bool.and_eq_true] at h
  obtain ⟨⟨⟨haeq, -⟩, -⟩, -⟩ := h
  exact haeq

theorem Deltas.aeq_of_fitsLuma {d : Deltas} (h : d.fitsLuma = true) : d.aeq = true := by
  simp only [Deltas.fitsLuma, Bool.and_eq_true] at h
  obtain ⟨⟨⟨haeq, -⟩, -⟩, -⟩ := h
  exact haeq

/-! What the multiplexer's chunk means (R111). -/

theorem mux_of_hit {c : Pixel} (h : c = p) (i : Fin 64) : mux p prev c i = (.index i.val, false) := if_pos h

theorem mux_of_miss {c : Pixel} (h : c ≠ p) (i : Fin 64) : mux p prev c i = (missChunk p prev, true) := if_neg h

/-- The chunk of a pixel the cache misses puts and stores that pixel. -/
theorem exec_missChunk (p : Pixel) (s : State) : exec (missChunk p s.prev) s = putAndStorePixel p s := by
  unfold missChunk
  split_ifs with hdiff hluma haeq
  · exact congrArg (putAndStorePixel · s) (diffPixel_deltaUnit (deltaUnit_aeq.1 (Deltas.aeq_of_fitsDiff hdiff)))
  · exact congrArg (putAndStorePixel · s) (lumaPixel_deltaUnit (deltaUnit_aeq.1 (Deltas.aeq_of_fitsLuma hluma)))
  · show putAndStorePixel ⟨p.r, p.g, p.b, s.prev.a⟩ s = _
    rw [← deltaUnit_aeq.1 haeq]
  · rfl

/-- The INDEX chunk of an entry puts that entry's pixel. -/
theorem exec_index_val (i : Fin 64) (s : State) : exec (.index i.val) s = putPixel (s.lookup i) s := by
  show putPixel (s.lookup (Fin.ofNat 64 i.val)) s = _
  rw [Fin.ofNat_val_eq_self]

/-- The chunk the multiplexer picks puts its pixel, after a store where the multiplexer says so. -/
theorem exec_mux (p : Pixel) (i : Fin 64) (s : State) :
    exec (mux p s.prev (s.lookup i) i).1 s =
      putPixel p (if (mux p s.prev (s.lookup i) i).2 then s.storePixel p else s) := by
  by_cases hhit : s.lookup i = p
  · rw [mux_of_hit hhit, exec_index_val, hhit]; rfl
  · rw [mux_of_miss hhit]; exact exec_missChunk p s

/-- A pixel put after an optional store has been written like any other; the cache has the store. -/
theorem putPixel_storeIf (h : OutPixelFits s) (p : Pixel) (doStore : Bool) :
    ∃ t, putPixel p (if doStore then s.storePixel p else s) = .next t ∧ WritesPixel s t p ∧
      t.cache = if doStore then s.cache.set (hash p).val p else s.cache := by
  cases doStore
  · exact ⟨_, putPixel_of_fits h, pixelPut_writes p s, rfl⟩
  · exact ⟨_, putAndStorePixel_of_fits h, pixelPut_storePixel_writes p s, rfl⟩

/-! The encoder's pixel step. -/

/-- What a pixel step that does not end the job leaves (R117). -/
theorem encodePixel_goes_on (h : encodePixel p s = .next t) (ht : t.phase ≠ .idle) :
    if p = s.prev ∧ s.run.toNat < 62 then t = joinRun s
    else t.prev = p ∧
      t.cache = if (mux p s.prev (s.lookup (hash p)) (hash p)).2 then s.cache.set (hash p).val p else s.cache := by
  unfold encodePixel runMax at h
  by_cases hjoin : p = s.prev ∧ s.run.toNat < 62
  · rw [if_pos hjoin] at h ⊢
    cases h; rfl
  · rw [if_neg hjoin] at h ⊢
    obtain ⟨-, rfl⟩ | ⟨-, -, h⟩ := emit_next h
    · exact absurd rfl ht
    · cases h
      exact ⟨afterChunk_prev _ _ _, afterChunk_cache _ _ _⟩

/-- In an encode body with pixels left an engine step is the pixel step of the next input pixel (R117). -/
theorem encodePixel_of_engineStep (hp : s.phase = .eBody) (hpx : s.px.toNat ≠ s.pixelCount)
    (h : engineStep s = .next t) : encodePixel (inputPixel s s.px.toNat) s = .next t := by
  rw [engineStep, hp] at h
  exact (readPixel_next ((if_neg hpx).symm.trans h)).2

/-! The statements. -/

/-- Settles O32: the sum is at most 26 times 255, and reducing each part modulo 64 changes no sum modulo 64. -/
theorem hashNeedsOnlySixBits : Obligations.HashNeedsOnlySixBits := by
  intro p
  have hr := p.r.isLt
  have hg := p.g.isLt
  have hb := p.b.isLt
  have ha := p.a.isLt
  have hval := hash_val p
  exact ⟨by omega, by omega, by omega⟩

/-- Settles O55: both sides put the pixel the multiplexer was given and store it exactly when its store bit is set. -/
theorem decoderFollowsTheEncoder : Obligations.DecoderFollowsTheEncoder := by
  intro s t p _ hp hpx hin hstep ht
  have hgoes := encodePixel_goes_on (encodePixel_of_engineStep hp hpx hstep) (by simp [ht])
  rw [← hin] at hgoes
  refine ⟨fun hjoin => ?_, fun hjoin d hcache hprev hfits => ?_⟩
  · rw [if_pos hjoin] at hgoes
    subst hgoes
    exact ⟨rfl, rfl⟩
  · rw [if_neg hjoin] at hgoes
    obtain ⟨htprev, htcache⟩ := hgoes
    have hlookup : d.lookup (hash p) = s.lookup (hash p) := by rw [State.lookup, State.lookup, hcache]
    obtain ⟨d', hput, hwrites, hdcache⟩ := putPixel_storeIf hfits p (mux p s.prev (s.lookup (hash p)) (hash p)).2
    refine ⟨d', ?_, hwrites, ?_, hwrites.prev.trans htprev.symm⟩
    · rw [← hprev, ← hlookup] at hput ⊢
      exact (exec_mux p (hash p) d).trans hput
    · rw [hdcache, hcache, htcache]

end Sys2Proof.Machine
end

section
/-! The statements about the encoder (43_encoder.md). Each encoder step is described once, by the state it answers where
its bytes fit in OUT_CAP. In a job with room for the largest output (R130) they always fit, so these states are all that
such a job goes through; what holds along it is an invariant of its run (`runSteps_keeps`). -/

namespace Sys2Proof.Machine

variable {s : State} {p prev : Pixel} {i : Instr} {d : Bool} {bs : List Byte} {new old : Byte}

/-! The delta unit (R119). -/

/-- A wrapped integer read as signed is its signed representative modulo 256 (R15). -/
theorem sext8_wrap8_spec (x : Int) :
    -128 ≤ sext8 (wrap8 x) ∧ sext8 (wrap8 x) ≤ 127 ∧ (x - sext8 (wrap8 x)) % 256 = 0 := by
  have hwrap := wrap8_toNat x
  unfold sext8
  split_ifs <;> omega

/-- A plain relative delta is too small for its wrapped value to come back into [-8,7] from outside. -/
theorem inRange_sext8_wrap8 {x : Int} (hlo : -159 ≤ x) (hhi : x ≤ 159) :
    inRange (-8) 7 (sext8 (wrap8 x)) = inRange (-8) 7 x := by
  have hspec := sext8_wrap8_spec x
  rw [Bool.eq_iff_iff, inRange_iff, inRange_iff]
  omega

/-- Beside a green delta in [-32,31] a relative delta survives wrapping. -/
theorem inRange_relativeDelta {dg : Int} (hg : -32 ≤ dg ∧ dg ≤ 31) (new old : Byte) :
    inRange (-8) 7 (sext8 (wrap8 (channelDelta new old - dg))) = inRange (-8) 7 (channelDelta new old - dg) := by
  have hdelta := channelDelta_spec new old
  exact inRange_sext8_wrap8 (by omega) (by omega)

/-- The signed representative of a difference modulo 256 is unique. -/
theorem channelDelta_eq {x : Int} (hlo : -128 ≤ x) (hhi : x ≤ 127)
    (hmod : ((new.toNat : Int) - old.toNat - x) % 256 = 0) : channelDelta new old = x := by
  have hdelta := channelDelta_spec new old
  omega

/-! The multiplexer (R120). -/

theorem Deltas.fitsDiff_iff (d : Deltas) : d.fitsDiff = true ↔
    d.aeq = true ∧ (-2 ≤ d.dr ∧ d.dr ≤ 1) ∧ (-2 ≤ d.dg ∧ d.dg ≤ 1) ∧ -2 ≤ d.db ∧ d.db ≤ 1 := by
  simp [Deltas.fitsDiff, and_assoc]

theorem Deltas.fitsLuma_iff (d : Deltas) : d.fitsLuma = true ↔
    d.aeq = true ∧ (-32 ≤ d.dg ∧ d.dg ≤ 31) ∧ (-8 ≤ d.drDg ∧ d.drDg ≤ 7) ∧ -8 ≤ d.dbDg ∧ d.dbDg ≤ 7 := by
  simp [Deltas.fitsLuma, and_assoc]

theorem missChunk_of_diff (h : (deltaUnit p prev).fitsDiff = true) :
    missChunk p prev = .diff (deltaUnit p prev).dr (deltaUnit p prev).dg (deltaUnit p prev).db := if_pos h

theorem missChunk_of_luma (hd : ¬(deltaUnit p prev).fitsDiff = true) (h : (deltaUnit p prev).fitsLuma = true) :
    missChunk p prev = .luma (deltaUnit p prev).dg (deltaUnit p prev).drDg (deltaUnit p prev).dbDg :=
  (if_neg hd).trans (if_pos h)

theorem missChunk_of_rgb (hd : ¬(deltaUnit p prev).fitsDiff = true) (hl : ¬(deltaUnit p prev).fitsLuma = true)
    (ha : p.a = prev.a) : missChunk p prev = .rgb p.r p.g p.b :=
  (if_neg hd).trans ((if_neg hl).trans (if_pos (deltaUnit_aeq.2 ha)))

theorem missChunk_of_rgba (ha : p.a ≠ prev.a) : missChunk p prev = .rgba p.r p.g p.b p.a := by
  have haeq : ¬(deltaUnit p prev).aeq = true := mt deltaUnit_aeq.1 ha
  exact (if_neg (mt Deltas.aeq_of_fitsDiff haeq)).trans ((if_neg (mt Deltas.aeq_of_fitsLuma haeq)).trans (if_neg haeq))

/-- RGBA is for pixels that change alpha (R120). -/
theorem mux_ne_rgba (ha : p.a = prev.a) (c : Pixel) (k : Fin 64) (r g b a : Byte) :
    (mux p prev c k).1 ≠ .rgba r g b a := by
  unfold mux missChunk
  split_ifs with hhit hdiff hluma haeq
  iterate 4 · exact Instr.noConfusion
  · exact absurd (deltaUnit_aeq.2 ha) haeq

/-! The bytes of a pixel step (R117, R121). -/

theorem runBytes_of_pos {r : BitVec 6} (h : r.toNat > 0) :
    runBytes r = [BitVec.ofNat 8 (0xC0 + (r.toNat - 1))] := if_pos h

theorem pixelStepBytes_eq (s : State) (i : Instr) : pixelStepBytes s i = runBytes s.run ++ encode i := rfl

/-- With three channels `prev` and the input pixels have the same alpha (R128). -/
theorem EncodeOk.alpha_eq (h : EncodeOk s) (hc : s.channels = 3) (k : Nat) : (inputPixel s k).a = s.prev.a :=
  (inputPixel_alpha hc k).trans (h.alpha hc).symm

/-! Bytes emitted (R116). -/

theorem emit_of_overflow (h : s.outPos.toNat + bs.length > s.outCap.toNat) (k : State → Outcome State Fault Refusal) :
    emit bs s k = .next (raiseError .outputOverflow s) := (emit_eq ..).trans (if_pos h)

theorem emit_of_room (hw : s.outBase.toNat + s.outCap.toNat ≤ memSize)
    (h : s.outPos.toNat + bs.length ≤ s.outCap.toNat) (k : State → Outcome State Fault Refusal) :
    emit bs s k = k (emitted bs s) := by
  have hfit : s.outBase.toNat + s.outPos.toNat + bs.length ≤ memSize := by omega
  exact (emit_eq ..).trans ((if_neg (not_lt.2 h)).trans (if_pos hfit))

theorem FormatOk.outWindow (h : FormatOk s) : s.outBase.toNat + s.outCap.toNat ≤ memSize :=
  ((windowsOk_iff s).1 h.windows).2.1

/-! The encoder's steps. -/

/-- After the last pixel the body ends (R117). -/
theorem engineStep_eBody_end (hp : s.phase = .eBody) (hpx : s.px.toNat = s.pixelCount) :
    engineStep s = .next { s with phase := .eFlush } := by
  rw [engineStep, hp]
  exact if_pos hpx

/-- With pixels left the body takes the pixel step of the next input pixel (R117). -/
theorem engineStep_eBody_pixel (hp : s.phase = .eBody) (hpx : s.px.toNat ≠ s.pixelCount) (hfits : InPixelFits s) :
    engineStep s = encodePixel (inputPixel s s.px.toNat) s := by
  rw [engineStep, hp]
  exact (if_neg hpx).trans (readPixel_of_le hfits _)

theorem encodePixel_of_joins (h : p = s.prev ∧ s.run.toNat < 62) : encodePixel p s = .next (joinRun s) := if_pos h

theorem encodePixel_of_not_joins (h : ¬(p = s.prev ∧ s.run.toNat < 62)) : encodePixel p s = writeChunk p s := if_neg h

theorem writeChunk_of_overflow (hi : (i, d) = mux p s.prev (s.lookup (hash p)) (hash p))
    (h : s.outPos.toNat + (runBytes s.run ++ encode i).length > s.outCap.toNat) :
    writeChunk p s = .next (raiseError .outputOverflow s) := by
  rw [writeChunk, ← hi]
  exact emit_of_overflow h _

theorem writeChunk_of_room (hw : s.outBase.toNat + s.outCap.toNat ≤ memSize)
    (hi : (i, d) = mux p s.prev (s.lookup (hash p)) (hash p))
    (h : s.outPos.toNat + (runBytes s.run ++ encode i).length ≤ s.outCap.toNat) :
    writeChunk p s = .next (afterChunk p d (emitted (runBytes s.run ++ encode i) s)) := by
  rw [writeChunk, ← hi]
  exact emit_of_room hw h _

/-- With a pending run the flush emits its byte (R127). -/
theorem engineStep_eFlush_run (hp : s.phase = .eFlush) (hr : s.run.toNat > 0) :
    engineStep s = emit (runBytes s.run) s fun t => .next { t with run := 0, phase := .eTrail } := by
  rw [engineStep, hp]
  exact if_pos hr

/-- Without one it only moves on (R127). -/
theorem engineStep_eFlush_no_run (hp : s.phase = .eFlush) (hr : s.run = 0) :
    engineStep s = .next { s with phase := .eTrail } := by
  rw [engineStep, hp]
  exact if_neg (by simp [hr])

/-- The trailer emits the end marker (R129). -/
theorem engineStep_eTrail (hp : s.phase = .eTrail) :
    engineStep s = emit endMarker s fun t => .next (finishJob t) := by
  rw [engineStep, hp]
  rfl

/-! What a pixel step that writes leaves (R117 steps 5 and 6). -/

theorem joinRun_run_toNat (hr : s.run.toNat < 62) : (joinRun s).run.toNat = s.run.toNat + 1 := by
  rw [joinRun_run]
  bv_omega

theorem afterChunk_cacheStores (p : Pixel) (d : Bool) (bs : List Byte) (s : State) :
    if d then CacheStores s (afterChunk p d (emitted bs s)) p else (afterChunk p d (emitted bs s)).cache = s.cache := by
  cases d
  · rfl
  · exact storePixel_cacheStores p s

theorem afterChunk_sameControl (p : Pixel) (d : Bool) (bs : List Byte) (s : State) :
    SameControl s (afterChunk p d (emitted bs s)) := by
  cases d <;> constructor <;> rfl

theorem afterChunk_sameWorld (p : Pixel) (d : Bool) (bs : List Byte) (s : State) :
    SameWorld s (afterChunk p d (emitted bs s)) := by
  cases d <;> constructor <;> rfl

/-! The statements about single steps. -/

/-- Settles O31: the delta unit's own facts, and the bound on a relative delta. -/
theorem wrappedRelativeDeltasTestTheSame : Obligations.WrappedRelativeDeltasTestTheSame := by
  intro p prev
  exact ⟨channelDelta_spec .., channelDelta_spec .., channelDelta_spec .., rfl, rfl, deltaUnit_aeq,
    fun hg => ⟨inRange_relativeDelta hg _ _, inRange_relativeDelta hg _ _⟩⟩

/-- Settles O30: the given deltas are those of the delta unit, so each case is the row of the multiplexer it names. -/
theorem multiplexerPicksTheFirstFittingKind : Obligations.MultiplexerPicksTheFirstFittingKind := by
  rintro p prev c i dr dg db ⟨hr1, hr2, hg1, hg2, hb1, hb2⟩ hr hg hb fitsDiff fitsLuma
  obtain rfl := channelDelta_eq hr1 hr2 hr
  obtain rfl := channelDelta_eq hg1 hg2 hg
  obtain rfl := channelDelta_eq hb1 hb2 hb
  have hdiff (ha : p.a = prev.a) : (deltaUnit p prev).fitsDiff = true ↔ fitsDiff :=
    (Deltas.fitsDiff_iff _).trans (and_iff_right (deltaUnit_aeq.2 ha))
  have hluma (ha : p.a = prev.a) : (deltaUnit p prev).fitsLuma = true ↔ fitsLuma :=
    (Deltas.fitsLuma_iff _).trans (and_iff_right (deltaUnit_aeq.2 ha))
  have hmiss (h : c ≠ p) {i' : Instr} (hi : missChunk p prev = i') : mux p prev c i = (i', true) := by
    rw [mux_of_miss h, hi]
  exact ⟨fun h => mux_of_hit h i, fun h ha => hmiss h (missChunk_of_rgba ha),
    fun h ha hd => hmiss h (missChunk_of_diff ((hdiff ha).2 hd)),
    fun h ha hd hl => hmiss h (missChunk_of_luma (mt (hdiff ha).1 hd) ((hluma ha).2 hl)),
    fun h ha hd hl => hmiss h (missChunk_of_rgb (mt (hdiff ha).1 hd) (mt (hluma ha).1 hl) ha)⟩

/-- Settles O33: the invariant keeps `prev.a` at 255, the alpha of every three-channel input pixel. -/
theorem threeChannelEncodeNeverPicksRgba : Obligations.ThreeChannelEncodeNeverPicksRgba := by
  intro s c k r g b a h hp hc
  exact mux_ne_rgba (((phaseOk_eBody hp).1 h.phase).alpha_eq hc _) c k r g b a

/-- Settles O27: the pixel step's first branch. -/
theorem equalPixelJoinsTheRun : Obligations.EqualPixelJoinsTheRun := by
  intro s hhost hp hpx hfits hpix hr
  refine ⟨joinRun s, ?_, joinRun_run_toNat hr, rfl, rfl, rfl, rfl, rfl, rfl, fun _ => rfl, by constructor <;> rfl,
    by constructor <;> rfl⟩
  rw [step_of_no_host hhost, engineStep_eBody_pixel hp hpx hfits, encodePixel_of_joins ⟨hpix, hr⟩]

/-- Settles O28: the pixel step's second branch, with and without room for its bytes. -/
theorem otherPixelWritesItsChunk : Obligations.OtherPixelWritesItsChunk := by
  intro s p i store h hhost hp hpx hpix hjoin hmux
  have hok := (phaseOk_eBody hp).1 h.phase
  have hstep : step s = writeChunk p s := by
    rw [step_of_no_host hhost, engineStep_eBody_pixel hp hpx (hok.inPixelFits hpx), ← hpix,
      encodePixel_of_not_joins hjoin]
  rw [hstep, pixelStepBytes_eq]
  by_cases hl : s.outPos.toNat + (runBytes s.run ++ encode i).length ≤ s.outCap.toNat
  · exact ⟨_, writeChunk_of_room hok.outWindow hmux hl, fun hgt => absurd hl (not_le.2 hgt), fun _ =>
      ⟨storesAt_writeList (afterChunk_mem ..), afterChunk_outPos .., afterChunk_run .., afterChunk_prev ..,
        afterChunk_cacheStores .., afterChunk_px .., afterChunk_inPos .., afterChunk_phase ..,
        afterChunk_sameControl .., afterChunk_sameWorld ..⟩⟩
  · exact ⟨_, writeChunk_of_overflow hmux (not_le.1 hl), fun _ => raiseError_spec _ s, fun hle => absurd hle hl⟩

/-- Settles O29: the branch of the body that ends it. -/
theorem encoderBodyEndsAfterTheLastPixel : Obligations.EncoderBodyEndsAfterTheLastPixel := by
  intro s hhost hp hpx
  exact ⟨_, (step_of_no_host hhost).trans (engineStep_eBody_end hp hpx), rfl, fun _ => rfl, by constructor <;> rfl,
    by constructor <;> rfl, by constructor <;> rfl, by constructor <;> rfl⟩

/-- Settles O34: with a pending run the flush emits one byte, which fits or not; without one it moves on. -/
theorem flushWritesThePendingRun : Obligations.FlushWritesThePendingRun := by
  intro s hhost hp _ hw
  rw [step_of_no_host hhost]
  by_cases hr : s.run.toNat > 0
  · have hne : s.run ≠ 0 := fun e => by simp [e] at hr
    rw [engineStep_eFlush_run hp hr, runBytes_of_pos hr]
    by_cases hl : s.outPos.toNat + 1 ≤ s.outCap.toNat
    · exact ⟨_, emit_of_room (bs := [_]) hw hl _, fun hgt => absurd hl (not_le.2 hgt.2), fun _ =>
        ⟨storesAt_writeList rfl, rfl, rfl, rfl, rfl, rfl, rfl, rfl, by constructor <;> rfl, by constructor <;> rfl⟩,
        fun e => absurd e hne⟩
    · exact ⟨_, emit_of_overflow (bs := [_]) (not_le.1 hl) _, fun _ => raiseError_spec _ s, fun hle => absurd hle.2 hl,
        fun e => absurd e hne⟩
  · exact ⟨_, engineStep_eFlush_no_run hp (run_eq_zero hr), fun h => absurd h.1 hr, fun h => absurd h.1 hr,
      fun _ => ⟨rfl, fun _ => rfl, by constructor <;> rfl, by constructor <;> rfl, by constructor <;> rfl,
        by constructor <;> rfl⟩⟩

/-- Settles O35: the end marker is emitted and the job finished, or the marker does not fit. -/
theorem trailerWritesTheEndMarker : Obligations.TrailerWritesTheEndMarker := by
  intro s hhost hp hw
  rw [step_of_no_host hhost, engineStep_eTrail hp]
  by_cases hl : s.outPos.toNat + 8 ≤ s.outCap.toNat
  · exact ⟨_, emit_of_room (bs := endMarker) hw hl _, fun hgt => absurd hl (not_le.2 hgt), fun _ =>
      ⟨storesAt_writeList rfl, rfl, rfl, rfl, rfl, rfl, rfl, by constructor <;> rfl, by constructor <;> rfl,
        by constructor <;> rfl⟩⟩
  · exact ⟨_, emit_of_overflow (bs := endMarker) (not_le.1 hl) _, fun _ => raiseError_spec _ s,
      fun hle => absurd hle hl⟩

end Sys2Proof.Machine
end

section
/-! The statements about whole encode jobs (R130, R131). With room for the largest output every step past the header is
known exactly; what the bytes of a job add up to is an invariant of its run. -/

namespace Sys2Proof.Machine

variable {s t u s₀ : State}

/-! Runs. -/

/-- What every step keeps holds along a run. -/
theorem runSteps_keeps {P : State → Prop} (hP : ∀ s t, P s → step s = .next t → P t) :
    ∀ (k : Nat) {s t : State}, P s → runSteps k s = .next t → P t
  | 0, s, t, hs, hrun => by cases hrun; exact hs
  | k + 1, s, t, hs, hrun => by
    unfold runSteps at hrun
    split at hrun
    · exact runSteps_keeps hP k (hP _ _ hs ‹_›) hrun
    · cases hrun
    · cases hrun

theorem SameJob.trans (h : SameJob s t) (h' : SameJob t u) : SameJob s u where
  mode := h'.mode.trans h.mode
  width := h'.width.trans h.width
  height := h'.height.trans h.height
  channels := h'.channels.trans h.channels
  colorspace := h'.colorspace.trans h.colorspace
  inBase := h'.inBase.trans h.inBase
  inLen := h'.inLen.trans h.inLen
  outBase := h'.outBase.trans h.outBase
  outCap := h'.outCap.trans h.outCap

theorem SameControl.sameJob (h : SameControl s t) : SameJob s t :=
  ⟨h.mode, h.width, h.height, h.channels, h.colorspace, h.inBase, h.inLen, h.outBase, h.outCap⟩

/-- Only the decode header's step changes a register of the job. -/
theorem Took.sameJob (ht : Took s t) (hd : s.phase ≠ .dHdr) : SameJob s t := by
  cases ht with
  | badHeader _ hp | goodHeader hp => exact absurd hp hd
  | wroteChunk => exact (afterChunk_sameControl ..).sameJob
  | trailing => constructor <;> simp
  | _ => constructor <;> rfl

/-- A state in the run of the encode job that started in `s₀`, with no host move pending. -/
structure EncodeRun (s₀ s : State) : Prop where
  inv : Inv s
  host : s.host = []
  mode : s.mode = .encode
  job : SameJob s₀ s

theorem EncodeRun.start (h : Inv s) (hh : s.host = []) (hp : s.phase = .eHdr) : EncodeRun s s :=
  ⟨h, hh, ((phaseOk_eHdr hp).1 h.phase).1, by constructor <;> rfl⟩

theorem EncodeRun.phase_ne_dHdr (h : EncodeRun s₀ s) : s.phase ≠ .dHdr := fun hp => by
  have hmode := ((phaseOk_dHdr hp).1 h.inv.phase).1
  simp [h.mode] at hmode

theorem EncodeRun.next (h : EncodeRun s₀ s) (ht : engineStep s = .next t) : EncodeRun s₀ t :=
  have took := engineStep_took ht
  have hj := took.sameJob h.phase_ne_dHdr
  ⟨engineStep_inv h.inv ht, took.host.trans h.host, hj.mode.trans h.mode, h.job.trans hj⟩

/-- An encode job is in a phase of the encoder. -/
theorem EncodeRun.phase_cases (h : EncodeRun s₀ s) : s.phase = .idle ∨ s.phase = .eHdr ∨
    (EncodeOk s ∧ (s.phase = .eBody ∨ (s.phase = .eFlush ∨ s.phase = .eTrail) ∧ s.px.toNat = s.pixelCount)) := by
  have hphase := h.inv.phase
  have hdec (hd : DecodeOk s) : False := by simpa [h.mode] using hd.mode
  cases hp : s.phase with
  | idle => exact .inl rfl
  | dHdr => exact absurd hp h.phase_ne_dHdr
  | dBody => exact (hdec ((phaseOk_dBody hp).1 hphase)).elim
  | dTrail => exact (hdec ((phaseOk_dTrail hp).1 hphase).1).elim
  | eHdr => exact .inr (.inl rfl)
  | eBody => exact .inr (.inr ⟨(phaseOk_eBody hp).1 hphase, .inl rfl⟩)
  | eFlush =>
    obtain ⟨hok, hpx⟩ := (phaseOk_eFlush hp).1 hphase
    exact .inr (.inr ⟨hok, .inr ⟨.inl rfl, hpx⟩⟩)
  | eTrail =>
    obtain ⟨hok, hpx, -⟩ := (phaseOk_eTrail hp).1 hphase
    exact .inr (.inr ⟨hok, .inr ⟨.inr rfl, hpx⟩⟩)

/-! The encoder's steps where there is room for the largest output (R130). -/

/-- `22 + N * (CHANNELS + 1)`, the largest output of an encode job (R130). -/
def State.outputLimit (s : State) : Nat := 22 + s.pixelCount * (s.channels.toNat + 1)

theorem SameJob.outputLimit (hj : SameJob s t) : t.outputLimit = s.outputLimit := by
  rw [State.outputLimit, State.outputLimit, hj.pixelCount, hj.channels]

/-- OUT_CAP is at least the largest output (R130). -/
abbrev HasRoom (s : State) : Prop := s.outputLimit ≤ s.outCap.toNat

theorem HasRoom.of_sameJob (h : HasRoom s) (hj : SameJob s t) : HasRoom t := by
  rw [HasRoom, hj.outputLimit, hj.outCap]; exact h

/-- The output and the pending run's byte take at most `CHANNELS + 1` bytes for each pixel (R130). -/
theorem EncodeOk.output_le (h : EncodeOk s) :
    s.outPos.toNat + (runBytes s.run).length ≤ 14 + s.px.toNat * (s.channels.toNat + 1) := by
  rw [runBytes_length]
  exact h.bound

/-- Up to the flush there is room left for the end marker. -/
theorem EncodeOk.output_le_limit (h : EncodeOk s) :
    s.outPos.toNat + (runBytes s.run).length + 8 ≤ s.outputLimit := by
  have hle := h.output_le
  have hpx : s.px.toNat * (s.channels.toNat + 1) ≤ s.pixelCount * (s.channels.toNat + 1) :=
    Nat.mul_le_mul_right _ h.px
  unfold State.outputLimit
  omega

/-- The chunk of an input pixel is at most `CHANNELS + 1` bytes long (R130). -/
theorem EncodeOk.chunk_length_le (h : EncodeOk s) (k : Nat) (c : Pixel) (e : Fin 64) :
    (encode (mux (inputPixel s k) s.prev c e).1).length ≤ s.channels.toNat + 1 :=
  (mux_length h.channels fun hc => h.alpha_eq hc k).2

/-- With pixels left and room, the bytes of a pixel step fit. -/
theorem EncodeOk.pixelStep_fits (h : EncodeOk s) (hroom : HasRoom s) (hpx : s.px.toNat ≠ s.pixelCount) (c : Pixel)
    (e : Fin 64) : s.outPos.toNat +
      (runBytes s.run ++ encode (mux (inputPixel s s.px.toNat) s.prev c e).1).length ≤ s.outCap.toNat := by
  have hle := h.output_le
  have hchunk := h.chunk_length_le s.px.toNat c e
  have hpx : (s.px.toNat + 1) * (s.channels.toNat + 1) ≤ s.pixelCount * (s.channels.toNat + 1) :=
    Nat.mul_le_mul_right _ (h.px_lt hpx)
  have hcap : 22 + s.pixelCount * (s.channels.toNat + 1) ≤ s.outCap.toNat := hroom
  rw [Nat.add_mul, one_mul] at hpx
  rw [List.length_append]
  omega

/-- The state after pixel `p` has closed the run and its chunk is out (R117). -/
def chunkWritten (p : Pixel) (s : State) : State :=
  afterChunk p (mux p s.prev (s.lookup (hash p)) (hash p)).2
    (emitted (runBytes s.run ++ encode (mux p s.prev (s.lookup (hash p)) (hash p)).1) s)

theorem EncodeOk.engineStep_joins (h : EncodeOk s) (hp : s.phase = .eBody) (hpx : s.px.toNat ≠ s.pixelCount)
    (hjoin : inputPixel s s.px.toNat = s.prev ∧ s.run.toNat < 62) : engineStep s = .next (Machine.joinRun s) := by
  rw [engineStep_eBody_pixel hp hpx (h.inPixelFits hpx), encodePixel_of_joins hjoin]

theorem EncodeOk.engineStep_writes (h : EncodeOk s) (hroom : HasRoom s) (hp : s.phase = .eBody)
    (hpx : s.px.toNat ≠ s.pixelCount) (hjoin : ¬(inputPixel s s.px.toNat = s.prev ∧ s.run.toNat < 62)) :
    engineStep s = .next (chunkWritten (inputPixel s s.px.toNat) s) := by
  rw [engineStep_eBody_pixel hp hpx (h.inPixelFits hpx), encodePixel_of_not_joins hjoin]
  exact writeChunk_of_room h.outWindow rfl (h.pixelStep_fits hroom hpx _ _)

/-- The state after the flush: with no run pending `runBytes` is empty (R127). -/
def runFlushed (s : State) : State := { emitted (runBytes s.run) s with run := 0, phase := .eTrail }

theorem runFlushed_of_no_run (hr : s.run = 0) : runFlushed s = { s with phase := .eTrail } := by
  have hbytes : runBytes s.run = [] := by rw [hr]; rfl
  have hpos : (emitted [] s).outPos = s.outPos := BitVec.add_zero _
  rw [runFlushed, hbytes, ← hr, show emitted [] s = { s with outPos := (emitted [] s).outPos } from rfl, hpos]

theorem EncodeOk.engineStep_flushes (h : EncodeOk s) (hroom : HasRoom s) (hp : s.phase = .eFlush) :
    engineStep s = .next (runFlushed s) := by
  by_cases hr : s.run.toNat > 0
  · have hle := h.output_le_limit
    have hfits : s.outPos.toNat + (runBytes s.run).length ≤ s.outCap.toNat := by omega
    rw [engineStep_eFlush_run hp hr]
    exact emit_of_room h.outWindow hfits _
  · rw [engineStep_eFlush_no_run hp (run_eq_zero hr), runFlushed_of_no_run (run_eq_zero hr)]

theorem EncodeOk.engineStep_finishes (h : EncodeOk s) (hroom : HasRoom s) (hp : s.phase = .eTrail) :
    engineStep s = .next (finishJob (emitted endMarker s)) := by
  have hle := h.output_le_limit
  have hfits : s.outPos.toNat + endMarker.length ≤ s.outCap.toNat := by
    show s.outPos.toNat + 8 ≤ _
    omega
  rw [engineStep_eTrail hp]
  exact emit_of_room h.outWindow hfits _

/-- With room no step past the header raises an error. -/
theorem EncodeOk.err_of_room (h : EncodeOk s) (hroom : HasRoom s)
    (hp : s.phase = .eBody ∨ s.phase = .eFlush ∨ s.phase = .eTrail) (ht : engineStep s = .next t) :
    t.err = s.err := by
  obtain hp | hp | hp := hp
  · by_cases hpx : s.px.toNat = s.pixelCount
    · rw [engineStep_eBody_end hp hpx] at ht
      cases ht; rfl
    by_cases hjoin : inputPixel s s.px.toNat = s.prev ∧ s.run.toNat < 62
    · rw [h.engineStep_joins hp hpx hjoin] at ht
      cases ht; rfl
    · rw [h.engineStep_writes hroom hp hpx hjoin] at ht
      cases ht
      exact afterChunk_err ..
  · rw [h.engineStep_flushes hroom hp] at ht
    cases ht; rfl
  · rw [h.engineStep_finishes hroom hp] at ht
    cases ht; rfl

/-! The header step. -/

theorem configError_ne_outputOverflow (s : State) : configError s ≠ some .outputOverflow := by
  unfold configError formatError
  split_ifs <;> simp

theorem configError_of_formatOk (h : FormatOk s) (hr : s.rasterSize ≤ s.inLen.toNat) : configError s = none := by
  have hsize : ¬(s.width = 0 ∨ s.height = 0) := not_or.2 ⟨h.width, h.height⟩
  have hfmt : formatError s.inLen s = none :=
    (if_neg (not_not.2 h.channels)).trans ((if_neg (not_not.2 h.colorspace)).trans
      ((if_neg hsize).trans (if_neg (not_lt.2 hr))))
  exact (if_neg (not_not.2 h.windows)).trans hfmt

/-- The header step raises what the configuration checks find, or writes the header (R114). -/
theorem engineStep_eHdr (hp : s.phase = .eHdr) : engineStep s =
    (configError s).elim (headerWrite s) fun e => .next (raiseError e s) := by
  rw [engineStep, hp]
  show stepEHdr s = _
  unfold stepEHdr
  cases configError s <;> rfl

/-- A fresh job with room has room for the header. -/
theorem JobFresh.header_fits (h : JobFresh s) (hroom : HasRoom s) : s.outPos.toNat + 14 ≤ s.outCap.toNat := by
  have hpos : s.outPos.toNat = 0 := by rw [h.outPos]; rfl
  have hcap : 22 + s.pixelCount * (s.channels.toNat + 1) ≤ s.outCap.toNat := hroom
  omega

/-- With legal registers and room the header is written (R114). -/
theorem JobFresh.engineStep_header (h : JobFresh s) (hroom : HasRoom s) (hf : FormatOk s)
    (hr : s.rasterSize ≤ s.inLen.toNat) (hp : s.phase = .eHdr) : engineStep s = .next (headerWritten s) := by
  rw [engineStep_eHdr hp, configError_of_formatOk hf hr]
  exact headerWrite_of_room ((windowsOk_iff_fit s).1 hf.windows) (h.header_fits hroom)

theorem JobError.eq_outputOverflow_of_code {e : JobError} (h : e.code = JobError.outputOverflow.code) :
    e = .outputOverflow := by
  revert h
  cases e <;> decide

/-- With room the header step does not raise OUTPUT_OVERFLOW. -/
theorem JobFresh.header_no_overflow (h : JobFresh s) (hroom : HasRoom s) (hp : s.phase = .eHdr)
    (hc : s.errcode = 0) (ht : engineStep s = .next t) : t.errcode ≠ JobError.outputOverflow.code := by
  rw [engineStep_eHdr hp] at ht
  cases hcfg : configError s with
  | some e =>
    rw [hcfg] at ht
    cases ht
    exact fun he => configError_ne_outputOverflow s (hcfg.trans (congrArg some (JobError.eq_outputOverflow_of_code he)))
  | none =>
    obtain ⟨hw, -⟩ := configError_none hcfg
    rw [hcfg, Option.elim_none, headerWrite_of_room ((windowsOk_iff_fit s).1 hw) (h.header_fits hroom)] at ht
    cases ht
    show s.errcode ≠ _
    rw [hc]
    decide

/-! The bound on the output (R130). -/

/-- A job that has ended kept to its bound: a success wrote at most the largest output, and with room for that there
was no overflow. -/
structure EndedWithinLimit (s : State) : Prop where
  success : s.succeeded → s.outPos.toNat ≤ s.outputLimit
  noOverflow : HasRoom s → ¬s.failedWith .outputOverflow

/-- A job that finishes has written at most the largest output. -/
theorem EncodeRun.finished_le (h : EncodeRun s₀ s) (hf : Finished s t) : t.outPos.toNat ≤ t.outputLimit := by
  cases hf with
  | decode hp =>
    obtain ⟨hok, -⟩ := (phaseOk_dTrail hp).1 h.inv.phase
    exact absurd (hok.mode.symm.trans h.mode) (by decide)
  | encode hp hl =>
    obtain ⟨hok, -⟩ := (phaseOk_eTrail hp).1 h.inv.phase
    have hle := hok.output_le_limit
    have hpos : (emitted endMarker s).outPos.toNat = s.outPos.toNat + 8 := emitted_outPos hl
    show (emitted endMarker s).outPos.toNat ≤ s.outputLimit
    omega

/-- With room no step of a running encode job raises OUTPUT_OVERFLOW. -/
theorem EncodeRun.no_overflow (h : EncodeRun s₀ s) (hi : s.phase ≠ .idle) (hroom : HasRoom s)
    (ht : engineStep s = .next t) : ¬t.failedWith .outputOverflow := by
  rintro ⟨-, -, herr, hcode⟩
  have hflags := h.inv.flagsClear hi
  obtain hp | hp | ⟨hok, hp⟩ := h.phase_cases
  · exact hi hp
  · exact ((phaseOk_eHdr hp).1 h.inv.phase).2.header_no_overflow hroom hp hflags.errcode ht hcode
  · have hkeep := hok.err_of_room hroom (hp.imp_right And.left) ht
    simp [hkeep, hflags.err] at herr

/-- What the bound of R130 says of a run: an invariant of its steps. -/
theorem EncodeRun.endedWithinLimit (h : EncodeRun s₀ s) (hs : s.phase = .idle → EndedWithinLimit s)
    (ht : engineStep s = .next t) : t.phase = .idle → EndedWithinLimit t := by
  intro _
  by_cases hi : s.phase = .idle
  · rw [engineStep_of_idle hi] at ht
    cases ht
    exact hs hi
  have hflags := h.inv.flagsClear hi
  have hj := (engineStep_took ht).sameJob h.phase_ne_dHdr
  have hroom (hr : HasRoom t) : HasRoom s := by rwa [HasRoom, hj.outputLimit, hj.outCap] at hr
  exact ⟨fun ⟨_, hd, _⟩ => h.finished_le (engineStep_finished ht hflags.done hd),
    fun hr => h.no_overflow hi (hroom hr) ht⟩

/-- Settles O53: along the run of an encode job the invariant counts the output, so that where the job ends it has kept
to its bound. -/
theorem encodeOutputIsBounded : Obligations.EncodeOutputIsBounded := by
  intro s t k h hh hp hrun
  obtain ⟨ht, hend⟩ : EncodeRun s t ∧ (t.phase = .idle → EndedWithinLimit t) := by
    refine runSteps_keeps (P := fun u => EncodeRun s u ∧ (u.phase = .idle → EndedWithinLimit u)) ?_ k
      ⟨.start h hh hp, fun hi => by simp [hp] at hi⟩ hrun
    rintro u v ⟨hu, hend⟩ hstep
    rw [step_of_no_host hu.host] at hstep
    exact ⟨hu.next hstep, hu.endedWithinLimit hend hstep⟩
  have hlimit : t.outputLimit = s.outputLimit := ht.job.outputLimit
  refine ⟨fun hs => ?_, fun hroom hf => ?_⟩
  · exact ((hend hs.1).success hs).trans_eq hlimit
  · exact (hend hf.1).noOverflow (HasRoom.of_sameJob hroom ht.job) hf

end Sys2Proof.Machine
end

section
/-! The statement about uniform images (R131): along the run of an encode job on pixels all equal to `c`, the cursors
and the run counter are functions of how many pixels have been taken. -/

namespace Sys2Proof.Machine

variable {s t s₀ : State} {c : Pixel} {i n : Nat}

/-! The input stays (R48). -/

theorem not_inOutputWindow_of_inInputWindow (hw : s.windowsOk = true) (hb : s.inInputWindow b = true) :
    s.inOutputWindow b = false := by
  obtain ⟨-, -, hdisjoint⟩ := (windowsOk_iff s).1 hw
  rw [inInputWindow_iff] at hb
  rw [Bool.eq_false_iff, ne_eq, inOutputWindow_iff]
  omega

/-- A pixel of the raster reads the same where its bytes do. -/
theorem inputPixel_congr (hj : SameJob s t) (hc : s.channels = 3 ∨ s.channels = 4)
    (hm : ∀ j, j < s.channels.toNat →
      t.mem.read (s.inBase.toNat + s.channels.toNat * i + j) = s.mem.read (s.inBase.toNat + s.channels.toNat * i + j)) :
    inputPixel t i = inputPixel s i := by
  have h3 : 3 ≤ s.channels.toNat := by rcases hc with e | e <;> rw [e] <;> decide
  have h0 := hm 0 (by omega)
  have h1 := hm 1 (by omega)
  have h2 := hm 2 (by omega)
  rw [Nat.add_zero] at h0
  simp only [inputPixel, hj.inBase, hj.channels, h0, h1, h2, Pixel.mk.injEq, true_and]
  split_ifs with h4
  · exact hm 3 (by rw [h4]; decide)
  · rfl

/-- An engine step leaves the raster of an encode job as it is: it writes the output window only. -/
theorem inputPixel_of_engineStep (h : Inv s) (hf : FormatOk s) (hr : s.rasterSize ≤ s.inLen.toNat) (hj : SameJob s t)
    (ht : engineStep s = .next t) (hi : i < s.pixelCount) : inputPixel t i = inputPixel s i := by
  refine inputPixel_congr hj hf.channels fun k hk => ?_
  have hfits : s.channels.toNat * i + s.channels.toNat ≤ s.inLen.toNat := pixel_fits hi hr
  have hin : s.inInputWindow (s.inBase.toNat + s.channels.toNat * i + k) = true :=
    (inInputWindow_iff s _).2 (by omega)
  exact engineWritesOnlyTheOutputWindow s t _ h ht (not_inOutputWindow_of_inInputWindow hf.windows hin)

/-! The bytes of a uniform image. -/

/-- The length of the first pixel's chunk, against the `prev` and the cache of a fresh job (R87). -/
def firstChunkLen (c : Pixel) : Nat := (encode (mux c startPixel zeroPixel (hash c)).1).length

theorem firstChunkLen_range (c : Pixel) : 1 ≤ firstChunkLen c ∧ firstChunkLen c ≤ 5 :=
  mux_length (ch := 4) (.inr rfl) fun h => absurd h (by decide)

/-- The bytes of the first `n` pixels, a pending run not counted: each 63 pixels after the first are a RUN of 62 and an
INDEX. -/
def uniformLen (c : Pixel) : Nat → Nat
  | 0 => 0
  | n + 1 => firstChunkLen c + 2 * (n / 63)

/-- The bytes of all chunks of a uniform image of `n` pixels, with the RUN that the flush writes. -/
def uniformTotal (c : Pixel) (n : Nat) : Nat := uniformLen c n + if (n - 1) % 63 > 0 then 1 else 0

/-- A body that has taken `n` of the pixels, all equal to `c`. -/
structure UniformBody (c : Pixel) (n : Nat) (s : State) : Prop where
  outPos : s.outPos.toNat = 14 + uniformLen c n
  run : s.run.toNat = (n - 1) % 63
  prev : s.prev = if n = 0 then startPixel else c
  entry : s.lookup (hash c) = if n = 0 then zeroPixel else c

theorem UniformBody.with_phase (h : UniformBody c n s) (q : Phase) : UniformBody c n { s with phase := q } :=
  ⟨h.outPos, h.run, h.prev, h.entry⟩

theorem lookup_clearedCache (k : Fin 64) (h : s.cache = clearedCache) : s.lookup k = zeroPixel := by
  rw [State.lookup]
  simp [h, clearedCache]

/-- Past its header a fresh job has taken no pixel. -/
theorem JobFresh.uniformBody (h : JobFresh s) (c : Pixel) : UniformBody c 0 (headerWritten s) where
  outPos := rfl
  run := by show s.run.toNat = 0; rw [h.run]; rfl
  prev := h.prev
  entry := lookup_clearedCache _ h.cache

/-- A pixel of the image joins the run: it is not the first, and the run is shorter than 62. -/
theorem UniformBody.joinRun (h : UniformBody c n s) (hc : c ≠ startPixel) (hjoin : c = s.prev ∧ s.run.toNat < 62) :
    UniformBody c (n + 1) (joinRun s) := by
  obtain ⟨hprev, hlt⟩ := hjoin
  have hrun := h.run
  rcases n with _ | n
  · exact absurd (hprev.trans h.prev) hc
  · have hdiv : (n + 1) / 63 = n / 63 := by omega
    exact
      { outPos := by rw [joinRun_outPos, h.outPos, uniformLen, uniformLen, hdiv]
        run := by rw [joinRun_run_toNat hlt]; omega
        prev := h.prev
        entry := h.entry }

/-- After a pixel step that writes, the cache holds the pixel: it did, or it was stored (R111). -/
theorem chunkWritten_lookup (p : Pixel) (s : State) : (chunkWritten p s).lookup (hash p) = p := by
  by_cases hhit : s.lookup (hash p) = p
  · have hcache : (chunkWritten p s).cache = s.cache := by rw [chunkWritten, mux_of_hit hhit]; rfl
    rw [State.lookup, hcache]
    exact hhit
  · have hcache : (chunkWritten p s).cache = s.cache.set (hash p).val p := by
      rw [chunkWritten, mux_of_miss hhit]; rfl
    rw [State.lookup, hcache]
    exact Vector.getElem_set_self _

/-- The bytes of a pixel step that writes: the first pixel's chunk, later a RUN of 62 and an INDEX. -/
theorem UniformBody.written_length (h : UniformBody c n s) (hjoin : ¬(c = s.prev ∧ s.run.toNat < 62)) :
    uniformLen c n + (runBytes s.run ++ encode (mux c s.prev (s.lookup (hash c)) (hash c)).1).length =
      uniformLen c (n + 1) := by
  have hrun := h.run
  rw [List.length_append, runBytes_length, h.entry, h.prev]
  rcases n with _ | n
  · rw [if_neg (by omega)]
    show 0 + (0 + firstChunkLen c) = firstChunkLen c + 0
    omega
  · have hfull : ¬s.run.toNat < 62 := fun hlt => hjoin ⟨h.prev.symm, hlt⟩
    have hdiv : (n + 1) / 63 = n / 63 + 1 := by omega
    rw [if_pos (by omega), if_neg n.succ_ne_zero, if_neg n.succ_ne_zero, mux_of_hit rfl, uniformLen, uniformLen, hdiv]
    show _ + (1 + 1) = _
    omega

/-- A pixel of the image that does not join the run is written. -/
theorem UniformBody.chunkWritten (h : UniformBody c n s) (hjoin : ¬(c = s.prev ∧ s.run.toNat < 62))
    (hl : s.outPos.toNat + (runBytes s.run ++ encode (mux c s.prev (s.lookup (hash c)) (hash c)).1).length ≤
      s.outCap.toNat) : UniformBody c (n + 1) (chunkWritten c s) where
  outPos := by
    rw [Machine.chunkWritten, afterChunk_outPos, emitted_outPos hl, h.outPos, Nat.add_assoc, h.written_length hjoin]
  run := by
    have hrun := h.run
    have hfull : n ≠ 0 → ¬s.run.toNat < 62 := fun hn hlt => hjoin ⟨(h.prev.trans (if_neg hn)).symm, hlt⟩
    rw [Machine.chunkWritten, afterChunk_run]
    show 0 = _
    omega
  prev := afterChunk_prev ..
  entry := chunkWritten_lookup c s

/-! The run of the job. -/

/-- How far the job on a uniform image has come, phase by phase. -/
def UniformPhase (c : Pixel) (s : State) : Prop :=
  match s.phase with
  | .eHdr => True
  | .eBody | .eFlush => UniformBody c s.px.toNat s
  | .eTrail => s.outPos.toNat = 14 + uniformTotal c s.pixelCount
  | .idle => s.err = false ∧ s.outPos.toNat = 14 + uniformTotal c s.pixelCount + 8
  | .dHdr | .dBody | .dTrail => False

/-- A state in the run of an encode job with legal registers and room, on an image of pixels all equal to `c`. -/
structure UniformRun (c : Pixel) (s₀ s : State) : Prop extends EncodeRun s₀ s where
  format : FormatOk s
  raster : s.rasterSize ≤ s.inLen.toNat
  room : HasRoom s
  pixels : ∀ i, i < s.pixelCount → inputPixel s i = c
  progress : UniformPhase c s

theorem UniformPhase.body (h : UniformPhase c s) (hp : s.phase = .eBody ∨ s.phase = .eFlush) :
    UniformBody c s.px.toNat s := by
  unfold UniformPhase at h
  rcases hp with hp | hp <;> rw [hp] at h <;> exact h

theorem uniformPhase_of_body (hp : s.phase = .eBody) (h : UniformBody c s.px.toNat s) : UniformPhase c s := by
  unfold UniformPhase
  rw [hp]
  exact h

/-- A body step of the job takes a pixel or ends the body. -/
theorem UniformRun.progress_of_body (h : UniformRun c s₀ s) (hok : EncodeOk s) (hc : c ≠ startPixel)
    (hp : s.phase = .eBody) (ht : engineStep s = .next t) : UniformPhase c t := by
  have hbody := h.progress.body (.inl hp)
  by_cases hpx : s.px.toNat = s.pixelCount
  · rw [engineStep_eBody_end hp hpx] at ht
    cases ht
    exact hbody.with_phase .eFlush
  have hlt := hok.px_lt hpx
  have hsucc : (s.px + 1).toNat = s.px.toNat + 1 := hok.px_succ hok.raster hlt
  have hpix : inputPixel s s.px.toNat = c := h.pixels _ hlt
  by_cases hjoin : inputPixel s s.px.toNat = s.prev ∧ s.run.toNat < 62
  · rw [hok.engineStep_joins hp hpx hjoin] at ht
    cases ht
    refine uniformPhase_of_body hp ?_
    rw [joinRun_px, hsucc]
    exact hbody.joinRun hc (hpix ▸ hjoin)
  · have hfits := hok.pixelStep_fits h.room hpx (s.lookup (hash c)) (hash c)
    rw [hok.engineStep_writes h.room hp hpx hjoin] at ht
    cases ht
    rw [hpix] at hjoin hfits ⊢
    refine uniformPhase_of_body ((afterChunk_phase ..).trans hp) ?_
    rw [show (chunkWritten c s).px = s.px + 1 from afterChunk_px .., hsucc]
    exact hbody.chunkWritten hjoin hfits

/-- The flush writes the run of the last pixels, if they did not fill a whole 63. -/
theorem UniformRun.progress_of_flush (h : UniformRun c s₀ s) (hok : EncodeOk s) (hp : s.phase = .eFlush)
    (hpx : s.px.toNat = s.pixelCount) (ht : engineStep s = .next t) : UniformPhase c t := by
  have hbody := h.progress.body (.inr hp)
  have hle := hok.output_le_limit
  have hroom : s.outputLimit ≤ s.outCap.toNat := h.room
  rw [hok.engineStep_flushes h.room hp] at ht
  cases ht
  show (emitted (runBytes s.run) s).outPos.toNat = 14 + uniformTotal c s.pixelCount
  rw [emitted_outPos (by omega), runBytes_length, hbody.outPos, hbody.run, hpx, uniformTotal, Nat.add_assoc]

/-- The trailer writes the 8 bytes of the end marker. -/
theorem UniformRun.progress_of_trail (h : UniformRun c s₀ s) (hok : EncodeOk s) (hp : s.phase = .eTrail)
    (ht : engineStep s = .next t) : UniformPhase c t := by
  have hend : s.outPos.toNat = 14 + uniformTotal c s.pixelCount := by
    have hprogress := h.progress
    unfold UniformPhase at hprogress
    rwa [hp] at hprogress
  have hle := hok.output_le_limit
  have hroom : s.outputLimit ≤ s.outCap.toNat := h.room
  have hfits : s.outPos.toNat + endMarker.length ≤ s.outCap.toNat := by
    show s.outPos.toNat + 8 ≤ _
    omega
  have hflags := h.inv.flagsClear (by simp [hp])
  rw [hok.engineStep_finishes h.room hp] at ht
  cases ht
  exact ⟨hflags.err, (emitted_outPos hfits).trans (congrArg (· + 8) hend)⟩

theorem UniformRun.next_progress (h : UniformRun c s₀ s) (hc : c ≠ startPixel) (ht : engineStep s = .next t) :
    UniformPhase c t := by
  obtain hp | hp | ⟨hok, hp | ⟨hp | hp, hpx⟩⟩ := h.phase_cases
  · rw [engineStep_of_idle hp] at ht
    cases ht
    exact h.progress
  · obtain ⟨-, hfresh⟩ := (phaseOk_eHdr hp).1 h.inv.phase
    rw [hfresh.engineStep_header h.room h.format h.raster hp] at ht
    cases ht
    refine uniformPhase_of_body rfl ?_
    rw [show (headerWritten s).px = 0 from hfresh.px]
    exact hfresh.uniformBody c
  · exact h.progress_of_body hok hc hp ht
  · exact h.progress_of_flush hok hp hpx ht
  · exact h.progress_of_trail hok hp ht

theorem UniformRun.next (h : UniformRun c s₀ s) (hc : c ≠ startPixel) (ht : engineStep s = .next t) :
    UniformRun c s₀ t := by
  have hj := (engineStep_took ht).sameJob h.phase_ne_dHdr
  exact
    { toEncodeRun := h.toEncodeRun.next ht
      format := h.format.of_sameJob hj
      raster := by rw [hj.rasterSize, hj.inLen]; exact h.raster
      room := h.room.of_sameJob hj
      pixels := fun i hi => by
        rw [hj.pixelCount] at hi
        rw [inputPixel_of_engineStep h.inv h.format h.raster hj ht hi, h.pixels i hi]
      progress := h.next_progress hc ht }

theorem FormatOk.pixelCount_pos (h : FormatOk s) : 0 < s.pixelCount := by
  have hpos {w : Word} (hw : w ≠ 0) : 0 < w.toNat := Nat.pos_of_ne_zero fun e => hw (BitVec.eq_of_toNat_eq e)
  exact Nat.mul_pos (hpos h.width) (hpos h.height)

theorem uniformTotal_eq (hn : 0 < n) (c : Pixel) : uniformTotal c n =
    firstChunkLen c + 2 * ((n - 1) / 63) + if (n - 1) % 63 > 0 then 1 else 0 := by
  obtain ⟨m, rfl⟩ := Nat.exists_eq_add_of_lt hn
  rw [Nat.zero_add]
  rfl

/-- Settles O57: the job ends within its bound on steps, and the invariant of its run says how: with no error, and with
the bytes counted. -/
theorem uniformImagesCompressToRuns : Obligations.UniformImagesCompressToRuns := by
  intro s c h hh hp hf hr hroom hc hpix
  have hstart : UniformRun c s s :=
    { toEncodeRun := .start h hh hp
      format := hf
      raster := hr
      room := hroom
      pixels := hpix
      progress := by unfold UniformPhase; rw [hp]; trivial }
  obtain ⟨k, t, hrun, hi, hflag, -⟩ := (everyJobEndsWithinItsBound s h hh).2 hp
  have ht : UniformRun c s t := by
    refine runSteps_keeps (fun u v hu hstep => ?_) k hstart hrun
    rw [step_of_no_host hu.host] at hstep
    exact hu.next hc hstep
  have hend := ht.progress
  unfold UniformPhase at hend
  rw [hi] at hend
  obtain ⟨herr, hpos⟩ := hend
  have hdone : t.done = true := hflag.resolve_right (by simp [herr])
  obtain ⟨h1, h5⟩ := firstChunkLen_range c
  refine ⟨k, t, firstChunkLen c, hrun, ⟨hi, hdone, herr⟩, h1, h5, ?_⟩
  rw [hpos, ht.job.pixelCount, uniformTotal_eq hf.pixelCount_pos]
  omega

end Sys2Proof.Machine
end

section
/-! The statements about the decoder (44_decoder.md). A chunk puts a pixel or loads the run counter; a chunk step is
described by the bytes the stream cursor has not passed yet, in which the decoder's own `decode` finds the chunk. -/

namespace Sys2Proof.Machine

variable {s : State} {b0 : Byte} {more rest : List Byte} {i : Instr} {e : DecodeError}

/-! What the chunks do (R136 to R142). -/

theorem exec_run (count : Nat) (s : State) : exec (.run count) s = .next { s with run := BitVec.ofNat 6 count } := rfl

/-- What a chunk that does not store its pixel leaves (R138). -/
theorem putPixel_writes (h : OutPixelFits s) (p : Pixel) :
    ∃ t, putPixel p s = .next t ∧ WritesPixel s t p ∧ t.cache = s.cache ∧ t.run = s.run :=
  ⟨_, putPixel_of_fits h, pixelPut_writes p s, rfl, rfl⟩

/-- What a chunk that stores its pixel leaves (R139 to R142). -/
theorem putAndStorePixel_writes (h : OutPixelFits s) (p : Pixel) :
    ∃ t, putAndStorePixel p s = .next t ∧ WritesPixel s t p ∧ CacheStores s t p ∧ t.run = s.run :=
  ⟨_, putAndStorePixel_of_fits h, pixelPut_storePixel_writes p s, storePixel_cacheStores p s, rfl⟩

/-! The steps of the body (R132). -/

theorem step_dBody (hh : s.host = []) (hp : s.phase = .dBody) : step s = stepDBody s := by
  rw [step_of_no_host hh, engineStep, hp]

/-- The state after the body: what is left of a RUN is dropped (R137). -/
def bodyEnded (s : State) : State := { s with run := 0, phase := .dTrail }

theorem stepDBody_end (hpx : s.px.toNat = s.pixelCount) : stepDBody s = .next (bodyEnded s) := if_pos hpx

/-- The state after one copy of `prev` (R134). -/
def runPixelPut (s : State) : State := pixelPut s.prev { s with run := s.run - 1 }

theorem stepDBody_run (hpx : s.px.toNat ≠ s.pixelCount) (hr : s.run ≠ 0) (hfits : OutPixelFits s) :
    stepDBody s = .next (runPixelPut s) :=
  (if_neg hpx).trans ((if_pos (by bv_omega)).trans (putPixel_of_fits (s := { s with run := s.run - 1 }) hfits))

theorem runPixelPut_writes (s : State) : WritesPixel s (runPixelPut s) s.prev where
  stores := storesAt_writeList rfl
  px := rfl
  outPos := rfl
  prev := rfl
  inPos := rfl
  phase := rfl
  control := by constructor <;> rfl
  world := by constructor <;> rfl

theorem runPixelPut_run_toNat (hr : s.run ≠ 0) : (runPixelPut s).run.toNat = s.run.toNat - 1 := by
  show (s.run - 1).toNat = _
  bv_omega

theorem stepDBody_chunk (hpx : s.px.toNat ≠ s.pixelCount) (hr : s.run = 0) : stepDBody s = chunkStep s :=
  (if_neg hpx).trans (if_neg (by simp [hr]))

/-! The chunk step (R135). -/

/-- The bytes of the input window from the stream cursor on. -/
def State.unread (s : State) : List Byte := s.mem.readList s.streamAddr (s.inLen.toNat - s.inPos.toNat)

theorem Memory.readList_take {m : Memory} {a k n : Nat} (h : k ≤ n) : (m.readList a n).take k = m.readList a k := by
  obtain ⟨j, rfl⟩ := Nat.exists_eq_add_of_le h
  rw [Memory.readList_append, List.take_left' (Memory.readList_length ..)]

/-- At the end of the input there is no chunk. -/
theorem chunkStep_of_unread_nil (h : s.unread = []) : chunkStep s = .next (raiseError .truncatedStream s) := by
  have hlen : s.inLen.toNat - s.inPos.toNat = 0 := by simpa [State.unread] using congrArg List.length h
  exact if_pos (by omega)

/-- The first unread byte says how long the chunk is; a whole one is executed with the cursor past it. -/
theorem chunkStep_of_unread_cons (hin : s.inBase.toNat + s.inLen.toNat ≤ memSize) (h : s.unread = b0 :: more) :
    chunkStep s = if more.length + 1 < chunkLen b0 then .next (raiseError .truncatedStream s)
      else exec (decodeChunk b0 more) (s.advanceIn (chunkLen b0)) := by
  have hlen : s.inLen.toNat - s.inPos.toNat = more.length + 1 := by
    simpa [State.unread] using congrArg List.length h
  have haddr : s.streamAddr = s.inBase.toNat + s.inPos.toNat := rfl
  rw [State.unread, hlen] at h
  obtain ⟨hfirst, hmore⟩ := List.cons.inj h
  have hb0 : byteAt (s.mem.readList s.streamAddr 1) 0 = b0 := hfirst
  rw [chunkStep, if_neg (by omega), fetchBytes_of_le (by omega)]
  dsimp only
  rw [hb0]
  by_cases hcut : more.length + 1 < chunkLen b0
  · rw [if_pos hcut, if_pos (by omega)]
  · have hrest : s.mem.readList (s.streamAddr + 1) (chunkLen b0 - 1) = more.take (chunkLen b0 - 1) := by
      rw [← Memory.readList_take (n := more.length) (by omega), hmore]
    rw [if_neg hcut, if_neg (by omega), fetchBytes_of_le (by omega), hrest, decodeChunk_take]

/-- A chunk step executes what the decoder reads off the unread bytes, with the cursor past it. -/
theorem chunkStep_of_decode (hin : s.inBase.toNat + s.inLen.toNat ≤ memSize)
    (h : decode s.unread = .ok (i, rest)) : chunkStep s = exec i (s.advanceIn (encode i).length) := by
  obtain ⟨b0, more, hunread, hle, rfl, -⟩ := decode_ok h
  obtain ⟨-, henc⟩ := encode_decodeChunk hle
  have hlen : (encode (decodeChunk b0 more)).length = chunkLen b0 := by
    have hpos := chunkLen_pos b0
    rw [henc, List.length_cons, List.length_take]
    omega
  rw [chunkStep_of_unread_cons hin hunread, if_neg (not_lt.2 hle), hlen]

/-- A decode error says that the bytes end inside a chunk. -/
theorem decode_error {bs : List Byte} (h : decode bs = .error e) :
    bs = [] ∨ ∃ b0 more, bs = b0 :: more ∧ more.length + 1 < chunkLen b0 := by
  cases bs with
  | nil => exact .inl rfl
  | cons b0 more =>
    refine .inr ⟨b0, more, rfl, not_le.1 fun hle => ?_⟩
    rw [decode_of_le hle] at h
    cases h

theorem chunkStep_of_decode_error (hin : s.inBase.toNat + s.inLen.toNat ≤ memSize) (h : decode s.unread = .error e) :
    chunkStep s = .next (raiseError .truncatedStream s) := by
  obtain hnil | ⟨b0, more, hcons, hcut⟩ := decode_error h
  · exact chunkStep_of_unread_nil hnil
  · rw [chunkStep_of_unread_cons hin hcons, if_pos hcut]

/-! The end-marker step (R146). -/

theorem step_dTrail (hh : s.host = []) (hp : s.phase = .dTrail) : step s = stepDTrail s := by
  rw [step_of_no_host hh, engineStep, hp]

theorem stepDTrail_of_short (hl : s.inPos.toNat + 8 > s.inLen.toNat) :
    stepDTrail s = .next (raiseError .truncatedStream s) := if_pos hl

theorem stepDTrail_of_room (hin : s.inBase.toNat + s.inLen.toNat ≤ memSize)
    (hl : s.inPos.toNat + 8 ≤ s.inLen.toNat) :
    stepDTrail s = .next (checkEndMarker (s.mem.readList s.streamAddr 8) s) := by
  have haddr : s.streamAddr = s.inBase.toNat + s.inPos.toNat := rfl
  exact (if_neg (not_lt.2 hl)).trans (fetchBytes_of_le (by omega) _)

theorem checkEndMarker_of_mismatch {bs : List Byte} (h : bs ≠ endMarker) (s : State) :
    checkEndMarker bs s = raiseError .endMarkerMismatch s := if_pos h

/-- Behind the marker the cursor says whether bytes follow (R148). -/
theorem checkEndMarker_of_match (hl : s.inPos.toNat + 8 ≤ s.inLen.toNat) :
    checkEndMarker endMarker s =
      if s.strictEnd = true ∧ s.inPos.toNat + 8 < s.inLen.toNat then raiseError .trailingBytes (s.advanceIn 8)
      else finishJob (s.advanceIn 8) := by
  have hpos : (s.advanceIn 8).inPos.toNat = s.inPos.toNat + 8 := toNat_add_ofNat (by omega)
  rw [checkEndMarker, if_neg (not_not.2 rfl), hpos]

/-! The statements. -/

/-- Settles O14: RUN's one update. -/
theorem runLoadsTheRunCounter : Obligations.RunLoadsTheRunCounter := by
  refine ⟨fun b0 rest h => decode_run h rest, fun s count h1 h62 => ⟨_, exec_run count s, ?_, rfl, rfl, fun _ => rfl,
    by constructor <;> rfl, rfl, by constructor <;> rfl, by constructor <;> rfl⟩⟩
  exact Nat.mod_eq_of_lt (by omega)

/-- Settles O15: INDEX puts the entry's pixel without a store. -/
theorem indexWritesTheCachedPixel : Obligations.IndexWritesTheCachedPixel := by
  refine ⟨fun b0 rest h => ?_, fun s idx h hfits => ?_⟩
  · rw [Nat.mod_eq_of_lt (by omega)]
    exact decode_index h rest
  · rw [exec_index_val ⟨idx, h⟩ s]
    exact putPixel_writes hfits _

/-- Settles O16: DIFF puts and stores the pixel of its wrapped channels. -/
theorem diffAddsWrappingDeltas : Obligations.DiffAddsWrappingDeltas := by
  refine ⟨fun b0 rest h => decode_diff h rest, fun s dr dg db hfits => ?_⟩
  obtain ⟨t, ht, hwrites, hstores, hrun⟩ := putAndStorePixel_writes hfits (diffPixel s.prev dr dg db)
  exact ⟨t, diffPixel s.prev dr dg db, ht, wrap8_toNat _, wrap8_toNat _, wrap8_toNat _, rfl, hwrites, hstores, hrun⟩

/-- Settles O17: LUMA puts and stores the pixel of its wrapped channels. -/
theorem lumaAddsRelativeDeltas : Obligations.LumaAddsRelativeDeltas := by
  refine ⟨fun b0 b1 rest h => decode_luma h b1 rest, fun s dg drDg dbDg hfits => ?_⟩
  obtain ⟨t, ht, hwrites, hstores, hrun⟩ := putAndStorePixel_writes hfits (lumaPixel s.prev dg drDg dbDg)
  exact ⟨t, lumaPixel s.prev dg drDg dbDg, ht, wrap8_toNat _, wrap8_toNat _, wrap8_toNat _, rfl, hwrites, hstores, hrun⟩

/-- Settles O18: RGB puts and stores its channels with the alpha of `prev`. -/
theorem rgbKeepsTheAlphaOfPrev : Obligations.RgbKeepsTheAlphaOfPrev :=
  ⟨decode_rgb, fun _ _ _ _ hfits => putAndStorePixel_writes hfits _⟩

/-- Settles O19: RGBA puts and stores its four channels. -/
theorem rgbaTakesAllFourChannels : Obligations.RgbaTakesAllFourChannels :=
  ⟨decode_rgba, fun _ _ _ _ _ hfits => putAndStorePixel_writes hfits _⟩

/-- Settles O20: the chunk step's bytes are the unread ones. -/
theorem stepRunsTheDecodedChunk : Obligations.StepRunsTheDecodedChunk := by
  intro s i rest hh hp hpx hr hin _ hdec
  rw [step_dBody hh hp, stepDBody_chunk hpx hr]
  exact chunkStep_of_decode hin hdec

/-- Settles O21: where `decode` fails, the chunk step raises on the state as it was. -/
theorem cutShortChunkIsTruncatedStream : Obligations.CutShortChunkIsTruncatedStream := by
  intro s e hh hp hpx hr hin _ hdec
  rw [step_dBody hh hp, stepDBody_chunk hpx hr]
  exact ⟨_, chunkStep_of_decode_error hin hdec, raiseError_spec _ s⟩

/-- Settles O22: a pending run puts one copy of `prev`. -/
theorem runPixelStepCopiesPrev : Obligations.RunPixelStepCopiesPrev := by
  intro s hh hp hpx hr hfits
  exact ⟨_, (step_dBody hh hp).trans (stepDBody_run hpx hr hfits), runPixelPut_writes s, rfl,
    runPixelPut_run_toNat hr⟩

/-- Settles O23: the branch of the body that ends it. -/
theorem bodyEndDropsTheRestOfARun : Obligations.BodyEndDropsTheRestOfARun := by
  intro s hh hp hpx
  exact ⟨_, (step_dBody hh hp).trans (stepDBody_end hpx), rfl, rfl, fun _ => rfl, by constructor <;> rfl, rfl, rfl,
    by constructor <;> rfl, by constructor <;> rfl⟩

/-- Settles O24: first the marker's length, then its bytes, then what follows it. -/
theorem endMarkerStepChecksInOrder : Obligations.EndMarkerStepChecksInOrder := by
  intro s hh hp hin
  rw [step_dTrail hh hp]
  by_cases hl : s.inPos.toNat + 8 ≤ s.inLen.toNat
  case neg =>
    exact ⟨_, stepDTrail_of_short (not_le.1 hl), fun _ => raiseError_spec _ s, fun h => absurd h hl,
      fun h => absurd h hl, fun h => absurd h hl⟩
  refine ⟨_, stepDTrail_of_room hin hl, fun h => absurd hl (not_le.2 h), fun _ hne => ?_, fun _ heq htrail => ?_,
    fun _ heq htrail => ?_⟩
  · have hne : s.mem.readList s.streamAddr 8 ≠ endMarker := hne
    rw [checkEndMarker_of_mismatch hne]
    exact raiseError_spec _ s
  · have heq : s.mem.readList s.streamAddr 8 = endMarker := heq
    rw [heq, checkEndMarker_of_match hl, if_pos htrail]
    exact raiseError_spec _ (s.advanceIn 8)
  · have heq : s.mem.readList s.streamAddr 8 = endMarker := heq
    rw [heq, checkEndMarker_of_match hl, if_neg htrail]
    exact ⟨rfl, rfl, rfl, rfl, rfl, rfl, rfl, fun _ => rfl, by constructor <;> rfl, by constructor <;> rfl,
      by constructor <;> rfl⟩

end Sys2Proof.Machine
end

section
/-! A decode job that gives an image back: the bytes it reads are chunks of the pixels of an encode job `e`, and what it
has written is the raster of `e` up to its cursor (`DecodeRun`). Each lemma takes the decoder over the bytes of one
chunk. -/

namespace Sys2Proof.Machine

variable {s t u e d d₀ : State} {m m' : Memory} {a a' n j : Nat} {bs rest : List Byte} {p : Pixel} {i : Instr}

/-! Lists of bytes in memory. -/

theorem Memory.readList_writeList_same (m : Memory) (a : Nat) (bs : List Byte) :
    (m.writeList a bs).readList a bs.length = bs :=
  List.ext_getElem (Memory.readList_length ..) fun j h hj => by
    rw [Memory.readList_getElem, Memory.read_writeList_inside bs m a j hj]

/-- Bytes stored right behind others read as their continuation. -/
theorem Memory.readList_writeList_append (m : Memory) (a n : Nat) (bs : List Byte) :
    (m.writeList (a + n) bs).readList a (n + bs.length) = m.readList a n ++ bs := by
  have hbefore : (m.writeList (a + n) bs).readList a n = m.readList a n :=
    Memory.readList_congr _ _ n a fun b _ hb => Memory.read_writeList_outside bs m _ b (.inl hb)
  rw [Memory.readList_append, Memory.readList_writeList_same, hbefore]

theorem Memory.readList_eq_of_read (h : ∀ j, j < n → m.read (a + j) = m'.read (a' + j)) :
    m.readList a n = m'.readList a' n :=
  List.ext_getElem (by simp) fun j hj _ => by
    rw [Memory.readList_getElem, Memory.readList_getElem, h j (by simpa using hj)]

theorem Memory.read_of_readList_eq (h : m.readList a n = m'.readList a' n) (hj : j < n) :
    m.read (a + j) = m'.read (a' + j) := by
  have hget := List.getElem_of_eq h (i := j) (by simpa using hj)
  rwa [Memory.readList_getElem, Memory.readList_getElem] at hget

/-! Runs. -/

/-- Some number of steps leads from `s` to `t`. -/
def Reaches (s t : State) : Prop := ∃ k, runSteps k s = .next t

theorem Reaches.refl (s : State) : Reaches s s := ⟨0, rfl⟩

theorem Reaches.head (hu : step s = .next u) (h : Reaches u t) : Reaches s t := by
  obtain ⟨k, hrun⟩ := h
  exact ⟨k + 1, by simpa [runSteps, hu] using hrun⟩

theorem Reaches.trans (h : Reaches s t) (h' : Reaches t u) : Reaches s u := by
  obtain ⟨k, hrun⟩ := h
  induction k generalizing s with
  | zero => cases hrun; exact h'
  | succ k ih =>
    unfold runSteps at hrun
    split at hrun
    · exact .head ‹_› (ih hrun)
    · cases hrun
    · cases hrun

/-! What a job has read and written. -/

/-- The bytes of the input window. -/
def State.stream (s : State) : List Byte := s.mem.readList s.inBase.toNat s.inLen.toNat

/-- The bytes a job has written. -/
def State.written (s : State) : List Byte := s.mem.readList s.outBase.toNat s.outPos.toNat

@[simp] theorem stream_length (s : State) : s.stream.length = s.inLen.toNat := Memory.readList_length ..

@[simp] theorem written_length (s : State) : s.written.length = s.outPos.toNat := Memory.readList_length ..

theorem unread_eq_drop (h : s.inPos.toNat ≤ s.inLen.toNat) : s.unread = s.stream.drop s.inPos.toNat := by
  obtain ⟨k, hk⟩ := Nat.exists_eq_add_of_le h
  have hlen : s.inLen.toNat - s.inPos.toNat = k := by omega
  rw [State.unread, State.stream, hlen, hk, Memory.readList_append, List.drop_left' (Memory.readList_length ..)]
  rfl

/-- The raster bytes of an input pixel are the bytes it was read from (R53, R115, R133). -/
theorem pixelBytes_inputPixel (hc : s.channels = 3 ∨ s.channels = 4) (k : Nat) :
    pixelBytes s.channels (inputPixel s k) =
      s.mem.readList (s.inBase.toNat + s.channels.toNat * k) s.channels.toNat := by
  rcases hc with hc | hc <;> simp [pixelBytes, inputPixel, hc, Memory.readList]

/-- A pixel put extends what a decode job has written by its raster bytes. -/
theorem DecodeOk.written_pixelPut (h : DecodeOk d) (hpx : d.px.toNat ≠ d.pixelCount) (p : Pixel) :
    (Machine.pixelPut p d).outPos.toNat = d.outPos.toNat + d.channels.toNat ∧
      (Machine.pixelPut p d).written = d.written ++ pixelBytes d.channels p := by
  have hlen : (pixelBytes d.channels p).length = d.channels.toNat :=
    (pixelBytes_length ..).trans (pixelWidth_of_legal h.channels)
  have haddr : d.outPixelAddr = d.outBase.toNat + d.outPos.toNat := by
    rw [State.outPixelAddr, h.outPos, Nat.mul_comm]
  have hpos : (Machine.pixelPut p d).outPos.toNat = d.outPos.toNat + d.channels.toNat := by
    rw [h.outPos, ← Nat.succ_mul]
    exact raster_cursor_succ h.outPos h.raster (h.px_lt hpx)
  refine ⟨hpos, ?_⟩
  rw [State.written, hpos, ← hlen]
  show (d.mem.writeList d.outPixelAddr _).readList _ _ = _
  rw [haddr]
  exact Memory.readList_writeList_append ..

/-- The decoder's own output never touches its input (R48, R49). -/
theorem DecodeOk.stream_pixelPut (h : DecodeOk d) (hpx : d.px.toNat ≠ d.pixelCount) (p : Pixel) :
    (Machine.pixelPut p d).stream = d.stream := by
  have hfits := h.outPixel_fits hpx
  obtain ⟨-, -, hdisjoint⟩ := (windowsOk_iff d).1 h.windows
  have hwidth := pixelWidth_le d.channels
  refine Memory.readList_congr _ _ _ _ fun b hlo hhi => Memory.read_writeList_outside _ _ _ _ ?_
  have hhi : b < d.inBase.toNat + d.inLen.toNat := hhi
  have hlo : d.inBase.toNat ≤ b := hlo
  rw [pixelBytes_length, State.outPixelAddr]
  omega

/-! The decode job. -/

/-- A state in the body of a decode job that started in `d₀`, with the image's registers of `e` and with the raster of
`e` written up to its cursor. -/
structure DecodeRun (e d₀ d : State) : Prop where
  ok : DecodeOk d
  host : d.host = []
  phase : d.phase = .dBody
  err : d.err = false
  width : d.width = e.width
  height : d.height = e.height
  channels : d.channels = e.channels
  colorspace : d.colorspace = e.colorspace
  outBase : d.outBase = d₀.outBase
  stream : d.stream = d₀.stream
  raster : d.written = e.mem.readList e.inBase.toNat d.outPos.toNat

theorem DecodeRun.pixelCount (h : DecodeRun e d₀ d) : d.pixelCount = e.pixelCount := by
  rw [State.pixelCount, State.pixelCount, h.width, h.height]

theorem DecodeRun.with_run (h : DecodeRun e d₀ d) {r : BitVec 6} (hr : r.toNat ≤ 62) :
    DecodeRun e d₀ { d with run := r } :=
  { h with ok := h.ok.with_run hr }

theorem DecodeRun.advanceIn (h : DecodeRun e d₀ d) (hn : d.inPos.toNat + n ≤ d.inLen.toNat) :
    DecodeRun e d₀ (d.advanceIn n) :=
  { h with ok := h.ok.advanceIn hn }

theorem DecodeRun.storePixel (h : DecodeRun e d₀ d) (p : Pixel) : DecodeRun e d₀ (d.storePixel p) :=
  { h with ok := h.ok.storePixel p }

/-- Putting the pixel of `e` at the cursor goes on with the raster of `e`. -/
theorem DecodeRun.pixelPut (h : DecodeRun e d₀ d) (hpx : d.px.toNat ≠ d.pixelCount)
    (hp : inputPixel e d.px.toNat = p) : DecodeRun e d₀ (pixelPut p d) := by
  obtain ⟨hpos, hwritten⟩ := h.ok.written_pixelPut hpx p
  have hbytes := pixelBytes_inputPixel (h.channels ▸ h.ok.channels) d.px.toNat
  rw [hp, ← h.channels, Nat.mul_comm, ← h.ok.outPos] at hbytes
  exact
    { h with
      ok := h.ok.pixelPut hpx p
      stream := (h.ok.stream_pixelPut hpx p).trans h.stream
      raster := by rw [hwritten, hpos, Memory.readList_append, h.raster, hbytes] }

/-- Behind the bytes already read come the others. -/
theorem DecodeRun.unread_eq (h : DecodeRun e d₀ d) (hs : d₀.stream = bs ++ rest) (hpos : d.inPos.toNat = bs.length) :
    d.unread = rest := by
  rw [unread_eq_drop h.ok.input.2, h.stream, hs, List.drop_left' hpos.symm]

theorem DecodeRun.inPos_add_le (h : DecodeRun e d₀ d) (hu : d.unread = bs ++ rest) :
    d.inPos.toNat + bs.length ≤ d.inLen.toNat := by
  have hlen := congrArg List.length hu
  rw [State.unread, Memory.readList_length, List.length_append] at hlen
  have hin := h.ok.input
  omega

/-- With a well-formed chunk ahead the step executes it. -/
theorem DecodeRun.step_chunk (h : DecodeRun e d₀ d) (hpx : d.px.toNat ≠ d.pixelCount) (hr : d.run = 0)
    (hwf : i.wellFormed = true) (hu : d.unread = encode i ++ rest) :
    step d = exec i (d.advanceIn (encode i).length) := by
  obtain ⟨hin, -, -⟩ := (windowsOk_iff d).1 h.ok.windows
  rw [step_dBody h.host h.phase, stepDBody_chunk hpx hr]
  exact chunkStep_of_decode hin (by rw [hu]; exact decodeOfEncodeIsTheInstruction i rest hwf)

/-! A run (R134, R136). -/

/-- From `d` the decoder reaches `u`, over `n` bytes of the stream and `k` pixels equal to `prev`. -/
structure CopiesRun (e d₀ d : State) (n k : Nat) (u : State) : Prop extends DecodeRun e d₀ u where
  reaches : Reaches d u
  run : u.run = 0
  px : u.px.toNat = d.px.toNat + k
  inPos : u.inPos.toNat = d.inPos.toNat + n
  cache : u.cache = d.cache
  prev : u.prev = d.prev

theorem CopiesRun.none (h : DecodeRun e d₀ d) (hr : d.run = 0) : CopiesRun e d₀ d 0 0 d :=
  { h with reaches := .refl d, run := hr, px := rfl, inPos := rfl, cache := rfl, prev := rfl }

/-- A pending run of pixels that the raster of `e` has there is copied out. -/
theorem DecodeRun.copies_pending (k : Nat) : ∀ {d : State}, DecodeRun e d₀ d → d.run.toNat = k →
    d.px.toNat + k ≤ d.pixelCount → (∀ j, d.px.toNat ≤ j → j < d.px.toNat + k → inputPixel e j = d.prev) →
    ∃ u, CopiesRun e d₀ d 0 k u := by
  induction k with
  | zero => intro d h hr _ _; exact ⟨d, .none h (BitVec.eq_of_toNat_eq hr)⟩
  | succ k ih =>
    intro d h hr hle hpix
    have hpx : d.px.toNat ≠ d.pixelCount := by omega
    have hne : d.run ≠ 0 := fun hz => by simp [hz] at hr
    have hrun : (d.run - 1).toNat ≤ 62 := by have := h.ok.run; bv_omega
    have hsucc : (runPixelPut d).px.toNat = d.px.toNat + 1 := h.ok.px_succ h.ok.raster (h.ok.px_lt hpx)
    have hstep : step d = .next (runPixelPut d) :=
      (step_dBody h.host h.phase).trans (stepDBody_run hpx hne (h.ok.outPixelFits hpx))
    have hput : DecodeRun e d₀ (runPixelPut d) :=
      (h.with_run hrun).pixelPut hpx (hpix d.px.toNat le_rfl (by omega))
    obtain ⟨u, hu⟩ := ih hput (by rw [runPixelPut_run_toNat hne]; omega)
      (by rw [hsucc]; show _ ≤ d.pixelCount; omega) fun j hlo hhi => hpix j (by omega) (by omega)
    exact ⟨u, { hu with reaches := hu.reaches.head hstep, px := by rw [hu.px, hsucc]; omega }⟩

/-- The bytes that close a run of `e`, if any, are read and the run is copied out (R136, R134). -/
theorem DecodeRun.copies_runBytes (h : DecodeRun e d₀ d) (hr : d.run = 0) {r : BitVec 6} (hr62 : r.toNat ≤ 62)
    (hu : d.unread = runBytes r ++ rest) (hle : d.px.toNat + r.toNat ≤ d.pixelCount)
    (hpix : ∀ j, d.px.toNat ≤ j → j < d.px.toNat + r.toNat → inputPixel e j = d.prev) :
    ∃ u, CopiesRun e d₀ d (runBytes r).length r.toNat u := by
  by_cases hpos : r.toNat > 0
  · have hbytes : runBytes r = encode (.run r.toNat) := if_pos hpos
    have hfits := h.inPos_add_le hu
    have hadv : (d.advanceIn (runBytes r).length).inPos.toNat = d.inPos.toNat + (runBytes r).length :=
      toNat_add_ofNat (by omega)
    have hstep : step d = .next { d.advanceIn (runBytes r).length with run := r } := by
      rw [h.step_chunk (by omega) hr ((wellFormed_run _).2 ⟨hpos, hr62⟩) (hbytes ▸ hu), exec_run, ← hbytes,
        BitVec.ofNat_toNat, BitVec.setWidth_eq]
    obtain ⟨u, hcopies⟩ := DecodeRun.copies_pending r.toNat ((h.advanceIn hfits).with_run hr62) rfl hle hpix
    exact ⟨u, { hcopies with reaches := hcopies.reaches.head hstep, inPos := hcopies.inPos.trans hadv }⟩
  · obtain rfl := run_eq_zero hpos
    exact ⟨d, .none h hr⟩

/-! A pixel's chunk (R138 to R142). -/

/-- Every chunk the multiplexer picks has its operands in range (R120). -/
theorem mux_wellFormed (p prev c : Pixel) (k : Fin 64) : (mux p prev c k).1.wellFormed = true := by
  unfold mux missChunk
  split_ifs with hhit hdiff hluma
  · exact (wellFormed_index _).2 (by omega)
  · exact (wellFormed_diff ..).2 ((Deltas.fitsDiff_iff _).1 hdiff).2
  · exact (wellFormed_luma ..).2 ((Deltas.fitsLuma_iff _).1 hluma).2
  · rfl
  · rfl

/-- The state after a chunk of `n` bytes has put pixel `p`, with or without a store. -/
def chunkPut (p : Pixel) (n : Nat) (doStore : Bool) (d : State) : State :=
  pixelPut p (if doStore then (d.advanceIn n).storePixel p else d.advanceIn n)

theorem chunkPut_px (p : Pixel) (n : Nat) (b : Bool) (d : State) : (chunkPut p n b d).px = d.px + 1 := by
  cases b <;> rfl

theorem chunkPut_inPos (p : Pixel) (n : Nat) (b : Bool) (d : State) :
    (chunkPut p n b d).inPos = d.inPos + BitVec.ofNat 32 n := by cases b <;> rfl

theorem chunkPut_run (p : Pixel) (n : Nat) (b : Bool) (d : State) : (chunkPut p n b d).run = d.run := by
  cases b <;> rfl

theorem chunkPut_cache (p : Pixel) (n : Nat) (b : Bool) (d : State) :
    (chunkPut p n b d).cache = if b then d.cache.set (hash p).val p else d.cache := by cases b <;> rfl

theorem DecodeRun.chunkPut (h : DecodeRun e d₀ d) (hpx : d.px.toNat ≠ d.pixelCount)
    (hp : inputPixel e d.px.toNat = p) (hn : d.inPos.toNat + n ≤ d.inLen.toNat) (b : Bool) :
    DecodeRun e d₀ (chunkPut p n b d) := by
  cases b
  · exact (h.advanceIn hn).pixelPut hpx hp
  · exact ((h.advanceIn hn).storePixel p).pixelPut hpx hp

/-- What the multiplexer picks for pixel `p` against the cache and `prev` of a state (R117, R120). -/
abbrev chunkFor (p : Pixel) (s : State) : Instr × Bool := mux p s.prev (s.lookup (hash p)) (hash p)

theorem chunkFor_congr (hc : s.cache = t.cache) (hp : s.prev = t.prev) (p : Pixel) : chunkFor p s = chunkFor p t := by
  simp only [chunkFor, State.lookup, hc, hp]

/-- The chunk that the multiplexer picks against the decoder's own cache and `prev` makes it put the pixel, and store it
where the encoder does (R111). -/
theorem DecodeRun.puts_chunk (h : DecodeRun e d₀ d) (hpx : d.px.toNat ≠ d.pixelCount) (hr : d.run = 0)
    (hp : inputPixel e d.px.toNat = p) (hu : d.unread = encode (chunkFor p d).1 ++ rest) :
    ∃ u, step d = .next u ∧ DecodeRun e d₀ u ∧ u.px.toNat = d.px.toNat + 1 ∧
      u.inPos.toNat = d.inPos.toNat + (encode (chunkFor p d).1).length ∧ u.run = 0 ∧ u.prev = p ∧
      u.cache = if (chunkFor p d).2 then d.cache.set (hash p).val p else d.cache := by
  have hin := h.inPos_add_le hu
  have hfits := h.ok.outPixelFits hpx
  have hput : exec (chunkFor p d).1 (d.advanceIn (encode (chunkFor p d).1).length) =
      .next (Machine.chunkPut p (encode (chunkFor p d).1).length (chunkFor p d).2 d) := by
    refine (exec_mux p (hash p) (d.advanceIn _)).trans (putPixel_of_fits ?_)
    split_ifs <;> exact hfits
  refine ⟨_, (h.step_chunk hpx hr (mux_wellFormed ..) hu).trans hput, h.chunkPut hpx hp hin _, ?_, ?_,
    (chunkPut_run ..).trans hr, rfl, chunkPut_cache ..⟩
  · rw [chunkPut_px]
    exact h.ok.px_succ h.ok.raster (h.ok.px_lt hpx)
  · rw [chunkPut_inPos]
    exact toNat_add_ofNat (by omega)

/-! The end of the job (R137, R146). -/

/-- Where just the end marker is left the end-marker step finishes the job, whatever STRICT_END is (R148). -/
theorem stepDTrail_done (hin : s.inBase.toNat + s.inLen.toNat ≤ memSize) (hu : s.unread = endMarker) :
    stepDTrail s = .next (finishJob (s.advanceIn 8)) := by
  have hlen : s.inLen.toNat - s.inPos.toNat = 8 := by
    simpa [State.unread, endMarker] using congrArg List.length hu
  rw [State.unread, hlen] at hu
  rw [stepDTrail_of_room hin (by omega), hu, checkEndMarker_of_match (by omega), if_neg (by omega)]

/-- After the last pixel, with just the end marker left, the job ends with DONE. -/
theorem DecodeRun.finishes (h : DecodeRun e d₀ d) (hpx : d.px.toNat = d.pixelCount) (hu : d.unread = endMarker) :
    Reaches d (finishJob ((bodyEnded d).advanceIn 8)) := by
  obtain ⟨hin, -, -⟩ := (windowsOk_iff d).1 h.ok.windows
  have hend : step d = .next (bodyEnded d) := (step_dBody h.host h.phase).trans (stepDBody_end hpx)
  have htrail : step (bodyEnded d) = .next (finishJob ((bodyEnded d).advanceIn 8)) :=
    (step_dTrail (s := bodyEnded d) h.host rfl).trans (stepDTrail_done (s := bodyEnded d) hin hu)
  exact .head hend (.head htrail (.refl _))

end Sys2Proof.Machine
end

section
/-! The round trip (R149). Beside each state of an encode job that goes on to succeed stands a state of the decode job
that has read what the encoder has written: the two hold the same cache and `prev`, and the decoder lags by the
encoder's pending run (`Follows`). Every step of the encoder keeps this. -/

namespace Sys2Proof.Machine

variable {s t e d d₀ s₀ : State} {p : Pixel} {bs : List Byte}

/-! The bytes of the encode job. -/

theorem emitted_written (hl : s.outPos.toNat + bs.length ≤ s.outCap.toNat) :
    (emitted bs s).written = s.written ++ bs := by
  rw [State.written, emitted_outPos hl]
  exact Memory.readList_writeList_append ..

theorem chunkWritten_written
    (hl : s.outPos.toNat + (runBytes s.run ++ encode (chunkFor p s).1).length ≤ s.outCap.toNat) :
    (chunkWritten p s).written = s.written ++ (runBytes s.run ++ encode (chunkFor p s).1) := by
  rw [← emitted_written hl, State.written, chunkWritten, afterChunk_mem, afterChunk_outPos]
  cases (chunkFor p s).2 <;> rfl

theorem headerWritten_written (s : State) :
    (headerWritten s).written = writeHeader s.width s.height s.channels s.colorspace :=
  Memory.readList_writeList_same s.mem s.outBase.toNat (writeHeader s.width s.height s.channels s.colorspace)

/-! The encoder's steps that raise no error. -/

/-- What a step of a running encode job does where it raises no error. -/
inductive EncodeTook (s : State) : State → Prop
  | header : s.phase = .eHdr → configError s = none → EncodeTook s (headerWritten s)
  | bodyEnd : s.phase = .eBody → EncodeTook s { s with phase := .eFlush }
  | joined : s.phase = .eBody → s.px.toNat ≠ s.pixelCount → inputPixel s s.px.toNat = s.prev → s.run.toNat < 62 →
      EncodeTook s (joinRun s)
  | wroteChunk (p : Pixel) : s.phase = .eBody → s.px.toNat ≠ s.pixelCount → p = inputPixel s s.px.toNat →
      s.outPos.toNat + (runBytes s.run ++ encode (chunkFor p s).1).length ≤ s.outCap.toNat →
      EncodeTook s (chunkWritten p s)
  | flushed : s.phase = .eFlush → s.outPos.toNat + (runBytes s.run).length ≤ s.outCap.toNat →
      EncodeTook s (runFlushed s)
  | finished : s.phase = .eTrail → s.outPos.toNat + endMarker.length ≤ s.outCap.toNat →
      EncodeTook s (finishJob (emitted endMarker s))

theorem EncodeRun.not_decoding (h : EncodeRun s₀ s) : ¬(s.phase = .dHdr ∨ s.phase = .dBody ∨ s.phase = .dTrail) := by
  intro hd
  obtain hp | hp | ⟨-, hp | ⟨hp | hp, -⟩⟩ := h.phase_cases <;> simp [hp] at hd

/-- Past its header an encode job that runs keeps the conditions of the body. -/
theorem EncodeRun.encodeOk (h : EncodeRun s₀ s) (hp : s.phase = .eBody ∨ s.phase = .eFlush ∨ s.phase = .eTrail) :
    EncodeOk s := by
  obtain hi | hi | ⟨hok, -⟩ := h.phase_cases
  · simp [hi] at hp
  · simp [hi] at hp
  · exact hok

theorem EncodeRun.took (h : EncodeRun s₀ s) (ht : engineStep s = .next t) (hi : s.phase ≠ .idle)
    (he : t.err = false) : EncodeTook s t := by
  have hnot := h.not_decoding
  cases engineStep_took ht with
  | rest hp => exact absurd hp hi
  | raised | badHeader | trailing => simp at he
  | goodHeader hp => exact absurd (.inl hp) hnot
  | bodyEnd hp | runPixel hp | runChunk _ _ hp | indexChunk _ _ hp | pixelChunk _ _ hp =>
    exact absurd (.inr (.inl hp)) hnot
  | decodeDone hp => exact absurd (.inr (.inr hp)) hnot
  | wroteHeader hp hcfg => exact .header hp hcfg
  | encodeEnd hp => exact .bodyEnd hp
  | joined hp hpx hpix hr => exact .joined hp hpx hpix hr
  | wroteChunk p i doStore hp hpx hpix hmux hl =>
    obtain rfl : i = _ := congrArg Prod.fst hmux
    obtain rfl : doStore = _ := congrArg Prod.snd hmux
    exact .wroteChunk p hp hpx hpix hl
  | flushed hp hr hl => exact .flushed hp (by rwa [runBytes_length, if_pos hr])
  | noFlush hp hr =>
    rw [← runFlushed_of_no_run hr]
    obtain ⟨-, hle⟩ := (h.encodeOk (.inr (.inl hp))).output
    exact .flushed hp (by rw [hr]; exact hle)
  | encodeDone hp hl => exact .finished hp hl

/-- What the first step checks holds in every later one (R114). -/
theorem EncodeRun.formatOk (h : EncodeRun s₀ s) (ht : EncodeTook s t) :
    FormatOk s ∧ s.rasterSize ≤ s.inLen.toNat := by
  have hbody (hp : s.phase = .eBody ∨ s.phase = .eFlush ∨ s.phase = .eTrail) :
      FormatOk s ∧ s.rasterSize ≤ s.inLen.toNat := ⟨(h.encodeOk hp).toFormatOk, (h.encodeOk hp).raster⟩
  cases ht with
  | header hp hcfg =>
    obtain ⟨hw, hfmt⟩ := configError_none hcfg
    obtain ⟨hch, hcs, hwd, hht, hr⟩ := formatError_none hfmt
    exact ⟨⟨hw, hch, hcs, hwd, hht⟩, hr⟩
  | bodyEnd hp | joined hp | wroteChunk _ hp => exact hbody (.inl hp)
  | flushed hp => exact hbody (.inr (.inl hp))
  | finished hp => exact hbody (.inr (.inr hp))

/-- A step that raises no error only appends to what the job has written. -/
theorem EncodeRun.written_prefix (h : EncodeRun s₀ s) (ht : EncodeTook s t) : s.written <+: t.written := by
  cases ht with
  | header hp =>
    have hnone : s.written = [] := by rw [State.written, ((phaseOk_eHdr hp).1 h.inv.phase).2.outPos]; rfl
    rw [hnone]
    exact List.nil_prefix
  | bodyEnd | joined => exact List.prefix_rfl
  | wroteChunk _ _ _ _ hl => exact chunkWritten_written hl ▸ List.prefix_append ..
  | flushed _ hl => exact (emitted_written hl).symm ▸ List.prefix_append s.written (runBytes s.run)
  | finished _ hl => exact (emitted_written hl).symm ▸ List.prefix_append s.written endMarker

/-! The header (R97, R98, R99). -/

/-- The four big-endian bytes of a word give it back (R51). -/
theorem be32_byteOf (w : Word) : be32 (byteOf 3 w) (byteOf 2 w) (byteOf 1 w) (byteOf 0 w) = w := by
  have hw := w.isLt
  refine BitVec.eq_of_toNat_eq ?_
  rw [be32_toNat]
  simp only [bigEndian, byteOf, BitVec.toNat_ofNat]
  omega

/-- Reading a written header back sets the registers it was written from. -/
theorem withHeader_writeHeader (s : State) (w h : Word) (c cs : Byte) : s.withHeader (writeHeader w h c cs) =
    { s with width := w, height := h, channels := c, colorspace := cs } := by
  have hfields : s.withHeader (writeHeader w h c cs) =
      { s with
        width := be32 (byteOf 3 w) (byteOf 2 w) (byteOf 1 w) (byteOf 0 w)
        height := be32 (byteOf 3 h) (byteOf 2 h) (byteOf 1 h) (byteOf 0 h)
        channels := c
        colorspace := cs } := rfl
  rw [hfields, be32_byteOf, be32_byteOf]

/-- A decode job that is about to start and can hold the raster of `e`. -/
structure ReadyToDecode (e d : State) : Prop where
  inv : Inv d
  host : d.host = []
  phase : d.phase = .dHdr
  windows : WindowsFit d
  long : 22 ≤ d.inLen.toNat
  room : e.rasterSize ≤ d.outCap.toNat

/-- A written header passes every check of a decoder that has room for the raster (R99). -/
theorem headerError_writeHeader (hf : FormatOk e) (hroom : e.rasterSize ≤ d.outCap.toNat) :
    headerError (writeHeader e.width e.height e.channels e.colorspace)
      (d.withHeader (writeHeader e.width e.height e.channels e.colorspace)) = none := by
  have hsize : ¬(e.width = 0 ∨ e.height = 0) := not_or.2 ⟨hf.width, hf.height⟩
  have hmagic : ¬(writeHeader e.width e.height e.channels e.colorspace).take 4 ≠ magic := not_not.2 rfl
  rw [headerError, if_neg hmagic, withHeader_writeHeader]
  exact (if_neg (not_not.2 hf.channels)).trans ((if_neg (not_not.2 hf.colorspace)).trans
    ((if_neg hsize).trans (if_neg (not_lt.2 hroom))))

theorem ReadyToDecode.headerBytes_eq (h : ReadyToDecode e d)
    (hs : writeHeader e.width e.height e.channels e.colorspace <+: d.stream) :
    headerBytes d = writeHeader e.width e.height e.channels e.colorspace := by
  rw [List.prefix_iff_eq_take.1 hs, writeHeader_length, State.stream,
    Memory.readList_take ((show 14 ≤ 22 by decide).trans h.long)]
  rfl

/-- The decoder reads the encoder's header and stands in the body (R99, R149). -/
theorem ReadyToDecode.step_header (h : ReadyToDecode e d) (hf : FormatOk e)
    (hs : writeHeader e.width e.height e.channels e.colorspace <+: d.stream) :
    step d = .next (headerRead d) ∧ DecodeRun e d (headerRead d) := by
  obtain ⟨hmode, hfresh⟩ := (phaseOk_dHdr h.phase).1 h.inv.phase
  have hbytes := h.headerBytes_eq hs
  have hnone := headerError_writeHeader hf h.room
  have hok := decodeOk_of_header hmode hfresh ((windowsOk_iff_fit d).2 h.windows) h.long hnone
  have hstep : step d = .next (parseHeader (headerBytes d) d) := by
    rw [step_of_no_host h.host, engineStep, h.phase]
    exact stepDHdr_of_fits h.windows h.long
  rw [parseHeader, hbytes, hnone] at hstep
  rw [headerRead, hbytes]
  refine ⟨hstep, ?_⟩
  rw [withHeader_writeHeader] at hok ⊢
  exact
    { ok := hok
      host := h.host
      phase := rfl
      err := (h.inv.flagsClear (by simp [h.phase])).err
      width := rfl
      height := rfl
      channels := rfl
      colorspace := rfl
      outBase := rfl
      stream := rfl
      raster := by
        show d.mem.readList _ d.outPos.toNat = e.mem.readList _ d.outPos.toNat
        rw [hfresh.outPos]
        rfl }

/-! The decoder beside the encoder. -/

/-- The decoder `d` has read what the encoder `s` has written, and has put the pixels before the pending run. -/
structure Follows (e d₀ s d : State) : Prop extends DecodeRun e d₀ d where
  inPos : d.inPos.toNat = s.outPos.toNat
  run : d.run = 0
  px : d.px.toNat + s.run.toNat = s.px.toNat
  cache : d.cache = s.cache
  prev : d.prev = s.prev
  pending : ∀ j, d.px.toNat ≤ j → j < d.px.toNat + s.run.toNat → inputPixel e j = s.prev

theorem Follows.with_phase (h : Follows e d₀ s d) (q : Phase) : Follows e d₀ { s with phase := q } d := { h with }

/-- Both headers done, no pixel taken (R87, R99, R114). -/
theorem ReadyToDecode.follows_header (h : ReadyToDecode e d) (hf : FormatOk e) (he : JobFresh e)
    (hs : (headerWritten e).written <+: d.stream) : ∃ u, Reaches d u ∧ Follows e d (headerWritten e) u := by
  rw [headerWritten_written] at hs
  obtain ⟨-, hd⟩ := (phaseOk_dHdr h.phase).1 h.inv.phase
  obtain ⟨hstep, hrun⟩ := h.step_header hf hs
  have hpx : d.px.toNat = 0 := by rw [hd.px]; rfl
  have herun : e.run.toNat = 0 := by rw [he.run]; rfl
  have hepx : e.px.toNat = 0 := by rw [he.px]; rfl
  refine ⟨headerRead d, .head hstep (.refl _), ?_⟩
  exact
    { hrun with
      inPos := rfl
      run := hd.run
      px := by show d.px.toNat + e.run.toNat = e.px.toNat; omega
      cache := hd.cache.trans he.cache.symm
      prev := hd.prev.trans he.prev.symm
      pending := fun j hlo hhi => by
        have hhi : j < d.px.toNat + e.run.toNat := hhi
        omega }

/-- A pixel that joins the run is one the decoder has still to put (R118). -/
theorem Follows.joinRun (h : Follows e d₀ s d) (hok : EncodeOk s) (hpx : s.px.toNat ≠ s.pixelCount)
    (hp : inputPixel e s.px.toNat = s.prev) (hr : s.run.toNat < 62) : Follows e d₀ (joinRun s) d := by
  have hsucc : (Machine.joinRun s).px.toNat = s.px.toNat + 1 := hok.px_succ hok.raster (hok.px_lt hpx)
  have hrun := joinRun_run_toNat hr
  have hlag := h.px
  exact
    { h with
      px := by omega
      pending := fun j hlo hhi => by
        by_cases hj : j = s.px.toNat
        · rw [hj]; exact hp
        · exact h.pending j hlo (by omega) }

/-- The decoder reads the run that the encoder closes and copies it out: then it has caught up (R121, R127, R134). -/
theorem Follows.catches_up (h : Follows e d₀ s d) (hok : EncodeOk s) (hj : SameJob e s) {rest : List Byte}
    (hs : d₀.stream = s.written ++ (runBytes s.run ++ rest)) :
    ∃ u, CopiesRun e d₀ d (runBytes s.run).length s.run.toNat u ∧ u.unread = rest := by
  have hpx := h.px
  have hle : d.px.toNat + s.run.toNat ≤ d.pixelCount := by
    rw [hpx, h.pixelCount, ← hj.pixelCount]
    exact hok.px
  obtain ⟨u, hu⟩ := h.copies_runBytes h.run hok.run (h.unread_eq hs (by rw [h.inPos, written_length])) hle
    fun j hlo hhi => (h.pending j hlo hhi).trans h.prev.symm
  rw [← List.append_assoc] at hs
  refine ⟨u, hu, hu.unread_eq hs ?_⟩
  rw [hu.inPos, h.inPos, List.length_append, written_length]

/-- A pixel step that writes: the decoder reads the closed run and then the chunk (R112). -/
theorem Follows.chunkWritten (h : Follows e d₀ s d) (hok : EncodeOk s) (hj : SameJob e s)
    (hpx : s.px.toNat ≠ s.pixelCount) (hp : inputPixel e s.px.toNat = p)
    (hl : s.outPos.toNat + (runBytes s.run ++ encode (chunkFor p s).1).length ≤ s.outCap.toNat)
    (hs : (chunkWritten p s).written <+: d₀.stream) :
    ∃ u, Reaches d u ∧ Follows e d₀ (chunkWritten p s) u := by
  obtain ⟨rest, hstream⟩ := hs
  rw [chunkWritten_written hl, List.append_assoc, List.append_assoc] at hstream
  obtain ⟨v, hv, hunread⟩ := h.catches_up hok hj hstream.symm
  have hvpx : v.px.toNat = s.px.toNat := by rw [hv.px, h.px]
  have hvne : v.px.toNat ≠ v.pixelCount := by rwa [hvpx, hv.pixelCount, ← hj.pixelCount]
  have hcache : v.cache = s.cache := hv.cache.trans h.cache
  have hchunk := chunkFor_congr hcache (hv.prev.trans h.prev) p
  obtain ⟨u, hstep, hu, hupx, hupos, hurun, huprev, hucache⟩ :=
    hv.puts_chunk hvne hv.run (hvpx ▸ hp) (hchunk ▸ hunread)
  rw [hchunk] at hupos hucache
  have hspx : (Machine.chunkWritten p s).px.toNat = s.px.toNat + 1 := by
    rw [Machine.chunkWritten, afterChunk_px]
    exact hok.px_succ hok.raster (hok.px_lt hpx)
  have hsrun : (Machine.chunkWritten p s).run = 0 := afterChunk_run ..
  exact ⟨u, hv.reaches.trans (.head hstep (.refl u)),
    { hu with
      inPos := by
        rw [hupos, hv.inPos, h.inPos, Machine.chunkWritten, afterChunk_outPos, emitted_outPos hl, List.length_append,
          Nat.add_assoc]
      run := hurun
      px := by rw [hupx, hvpx, hspx, hsrun]; rfl
      cache := by rw [hucache, hcache, Machine.chunkWritten, afterChunk_cache]; rfl
      prev := huprev.trans (afterChunk_prev ..).symm
      pending := fun j hlo hhi => by
        rw [hsrun] at hhi
        exact absurd hhi (not_lt.2 hlo) }⟩

/-- The flush closes the last run (R127). -/
theorem Follows.runFlushed (h : Follows e d₀ s d) (hok : EncodeOk s) (hj : SameJob e s)
    (hl : s.outPos.toNat + (runBytes s.run).length ≤ s.outCap.toNat) (hs : (runFlushed s).written <+: d₀.stream) :
    ∃ u, Reaches d u ∧ Follows e d₀ (runFlushed s) u := by
  obtain ⟨rest, hstream⟩ := hs
  have hwritten : (Machine.runFlushed s).written = s.written ++ runBytes s.run := emitted_written hl
  rw [hwritten, List.append_assoc] at hstream
  obtain ⟨u, hu, -⟩ := h.catches_up hok hj hstream.symm
  exact ⟨u, hu.reaches,
    { hu.toDecodeRun with
      inPos := by rw [hu.inPos, h.inPos]; exact (emitted_outPos hl).symm
      run := hu.run
      px := hu.px.trans h.px
      cache := hu.cache.trans h.cache
      prev := hu.prev.trans h.prev
      pending := fun j hlo hhi => absurd hhi (not_lt.2 hlo) }⟩

/-- The decoder has put every pixel and stands before the end marker, the last bytes of the encoder `s` (R129). -/
structure AtMarker (e d₀ s d : State) : Prop extends DecodeRun e d₀ d where
  px : d.px.toNat = d.pixelCount
  inPos : d.inPos.toNat + 8 = s.outPos.toNat
  marker : endMarker <+: d.unread

theorem Follows.finished (h : Follows e d₀ s d) (hj : SameJob e s) (hpx : s.px.toNat = s.pixelCount) (hr : s.run = 0)
    (hl : s.outPos.toNat + endMarker.length ≤ s.outCap.toNat)
    (hs : (finishJob (emitted endMarker s)).written <+: d₀.stream) :
    AtMarker e d₀ (finishJob (emitted endMarker s)) d := by
  obtain ⟨rest, hstream⟩ := hs
  have hwritten : (finishJob (emitted endMarker s)).written = s.written ++ endMarker := emitted_written hl
  rw [hwritten, List.append_assoc] at hstream
  have hlag := h.px
  rw [hr, hpx, hj.pixelCount, ← h.pixelCount] at hlag
  exact
    { h.toDecodeRun with
      px := hlag
      inPos := by rw [h.inPos]; exact (emitted_outPos hl).symm
      marker := ⟨rest, (h.unread_eq hstream.symm (by rw [h.inPos, written_length])).symm⟩ }

/-! The run of the encode job. -/

/-- How far the decoder is beside a state of the encode job, phase by phase. -/
def FollowsPhase (e d₀ s d : State) : Prop :=
  match s.phase with
  | .eHdr => s = e ∧ d = d₀
  | .eBody | .eFlush | .eTrail => Follows e d₀ s d
  | .idle => AtMarker e d₀ s d
  | .dHdr | .dBody | .dTrail => False

theorem followsPhase_eHdr (hp : s.phase = .eHdr) : FollowsPhase e d₀ s d ↔ s = e ∧ d = d₀ := by
  simp [FollowsPhase, hp]

theorem followsPhase_body (hp : s.phase = .eBody ∨ s.phase = .eFlush ∨ s.phase = .eTrail) :
    FollowsPhase e d₀ s d ↔ Follows e d₀ s d := by
  rcases hp with hp | hp | hp <;> simp [FollowsPhase, hp]

theorem followsPhase_idle (hp : s.phase = .idle) : FollowsPhase e d₀ s d ↔ AtMarker e d₀ s d := by
  simp [FollowsPhase, hp]

/-- A state in the run of the encode job `e`, whose raster stays as it was; a success has at least a header and an end
marker out. -/
structure RasterRun (e s : State) : Prop extends EncodeRun e s where
  pixels : s.err = false → ∀ j, j < e.pixelCount → inputPixel s j = inputPixel e j
  long : s.phase = .idle → s.err = false → 22 ≤ s.outPos.toNat

theorem RasterRun.next (h : RasterRun e s) (ht : engineStep s = .next t) : RasterRun e t := by
  by_cases hi : s.phase = .idle
  · rw [engineStep_of_idle hi] at ht
    cases ht
    exact h
  have hflags := h.inv.flagsClear hi
  have hj := (engineStep_took ht).sameJob h.phase_ne_dHdr
  refine { toEncodeRun := h.toEncodeRun.next ht, pixels := fun he j hlt => ?_, long := fun hp he => ?_ }
  · obtain ⟨hf, hr⟩ := h.formatOk (h.took ht hi he)
    rw [inputPixel_of_engineStep h.inv hf hr hj ht (by rwa [h.job.pixelCount]), h.pixels hflags.err j hlt]
  · obtain ⟨err, u, -, rfl⟩ | hf | ⟨hgo, -⟩ := (engineStep_took ht).ends_or_goes_on hi
    · simp at he
    · cases hf with
      | decode hd => exact absurd (.inr (.inr hd)) h.not_decoding
      | encode htrail hl =>
        obtain ⟨hlo, -⟩ := (h.encodeOk (.inr (.inr htrail))).output
        have hpos : (emitted endMarker s).outPos.toNat = s.outPos.toNat + 8 := emitted_outPos hl
        unfold headerLen at hlo
        show 22 ≤ (emitted endMarker s).outPos.toNat
        omega
    · exact absurd hp hgo

/-- The decoder keeps up with a step of the encoder that raises no error. -/
theorem RasterRun.follows_step (h : RasterRun e s) (hd : ReadyToDecode e d₀) (herr : s.err = false)
    (ht : EncodeTook s t) (hs : t.written <+: d₀.stream) (hfollow : FollowsPhase e d₀ s d) :
    ∃ u, Reaches d u ∧ FollowsPhase e d₀ t u := by
  have hok := h.encodeOk
  have hpix (hlt : s.px.toNat < s.pixelCount) : inputPixel e s.px.toNat = inputPixel s s.px.toNat :=
    (h.pixels herr _ (by rwa [← h.job.pixelCount])).symm
  cases ht with
  | header hp hcfg =>
    obtain ⟨hf, -⟩ := h.formatOk (.header hp hcfg)
    obtain ⟨-, hfresh⟩ := (phaseOk_eHdr hp).1 h.inv.phase
    obtain ⟨rfl, rfl⟩ := (followsPhase_eHdr hp).1 hfollow
    obtain ⟨u, hreach, hu⟩ := hd.follows_header hf hfresh hs
    exact ⟨u, hreach, (followsPhase_body (.inl rfl)).2 hu⟩
  | bodyEnd hp =>
    have hfollow := (followsPhase_body (.inl hp)).1 hfollow
    exact ⟨d, .refl d, (followsPhase_body (.inr (.inl rfl))).2 (hfollow.with_phase .eFlush)⟩
  | joined hp hpx hprev hr =>
    have hfollow := (followsPhase_body (.inl hp)).1 hfollow
    have hok := hok (.inl hp)
    exact ⟨d, .refl d, (followsPhase_body (s := Machine.joinRun s) (.inl hp)).2
      (hfollow.joinRun hok hpx ((hpix (hok.px_lt hpx)).trans hprev) hr)⟩
  | wroteChunk p hp hpx hpix' hl =>
    have hfollow := (followsPhase_body (.inl hp)).1 hfollow
    have hok := hok (.inl hp)
    obtain ⟨u, hreach, hu⟩ :=
      hfollow.chunkWritten hok h.job hpx ((hpix (hok.px_lt hpx)).trans hpix'.symm) hl hs
    exact ⟨u, hreach, (followsPhase_body (s := Machine.chunkWritten p s) (.inl ((afterChunk_phase ..).trans hp))).2 hu⟩
  | flushed hp hl =>
    have hfollow := (followsPhase_body (.inr (.inl hp))).1 hfollow
    obtain ⟨u, hreach, hu⟩ := hfollow.runFlushed (hok (.inr (.inl hp))) h.job hl hs
    exact ⟨u, hreach, (followsPhase_body (.inr (.inr rfl))).2 hu⟩
  | finished hp hl =>
    have hfollow := (followsPhase_body (.inr (.inr hp))).1 hfollow
    obtain ⟨-, hpx, hr⟩ := (phaseOk_eTrail hp).1 h.inv.phase
    exact ⟨d, .refl d, (followsPhase_idle rfl).2 (hfollow.finished h.job hpx hr hl hs)⟩

/-- Beside a state of the encode job whose output so far opens the decoder's input, the decoder has followed. -/
structure FollowedRun (e d₀ s : State) : Prop extends RasterRun e s where
  follows : s.err = false → s.written <+: d₀.stream → ∃ d, Reaches d₀ d ∧ FollowsPhase e d₀ s d

theorem FollowedRun.next (h : FollowedRun e d₀ s) (hd : ReadyToDecode e d₀) (ht : engineStep s = .next t) :
    FollowedRun e d₀ t := by
  by_cases hi : s.phase = .idle
  · rw [engineStep_of_idle hi] at ht
    cases ht
    exact h
  refine { toRasterRun := h.toRasterRun.next ht, follows := fun he hs => ?_ }
  have herr := (h.inv.flagsClear hi).err
  have htook := h.took ht hi he
  obtain ⟨d, hreach, hfollow⟩ := h.follows herr ((h.written_prefix htook).trans hs)
  obtain ⟨u, hreach', hfollow'⟩ := h.follows_step hd herr htook hs hfollow
  exact ⟨u, hreach.trans hreach', hfollow'⟩

/-- What engine steps keep holds along a run with no host move pending. -/
theorem runSteps_keeps_of_no_host {P : State → Prop} (hhost : ∀ s, P s → s.host = [])
    (hP : ∀ s t, P s → engineStep s = .next t → P t) {k : Nat} (hs : P s) (hrun : runSteps k s = .next t) : P t :=
  runSteps_keeps (fun u v hu hstep => hP u v hu (by rwa [step_of_no_host (hhost u hu)] at hstep)) k hs hrun

/-- A decoder at the marker that ends its input finishes with the image of `e` in its output window (R148, R149). -/
theorem AtMarker.decodes (h : AtMarker e d₀ s d) (hlen : d₀.inLen = s.outPos) :
    ∃ u, Reaches d u ∧ u.succeeded ∧ u.width = e.width ∧ u.height = e.height ∧ u.channels = e.channels ∧
      u.colorspace = e.colorspace ∧
      ∀ j, j < e.rasterSize → u.mem.read (d₀.outBase.toNat + j) = e.mem.read (e.inBase.toNat + j) := by
  have hin : d.inLen.toNat = s.outPos.toNat := by rw [← hlen, ← stream_length, h.stream, stream_length]
  have hpos := h.inPos
  have hmarker : d.unread = endMarker := by
    refine (h.marker.eq_of_length ?_).symm
    show 8 = _
    rw [State.unread, Memory.readList_length]
    omega
  have hraster : d.outPos.toNat = e.rasterSize := by
    rw [h.ok.outPos, h.px, h.pixelCount, h.channels]
    rfl
  refine ⟨_, h.finishes h.px hmarker, ⟨rfl, rfl, h.err⟩, h.width, h.height, h.channels, h.colorspace, fun j hj => ?_⟩
  rw [← h.outBase]
  exact Memory.read_of_readList_eq h.raster (hraster ▸ hj)

/-- Settles O56: the invariant of the encode job's run puts a decoder beside each of its states; where the job has
succeeded that decoder stands before the end marker. -/
theorem roundTripRestoresTheRaster : Obligations.RoundTripRestoresTheRaster := by
  intro e e' d k he heh hep hrun hsucc hd hdh hdp hwin hlen hbytes hroom
  obtain ⟨hidle, -, herr⟩ := hsucc
  have hstart : RasterRun e e :=
    { toEncodeRun := .start he heh hep, pixels := fun _ _ _ => rfl, long := fun hi => by simp [hep] at hi }
  have hend : RasterRun e e' := runSteps_keeps_of_no_host (fun _ h => h.host) (fun _ _ h => h.next) hstart hrun
  have hready : ReadyToDecode e d := ⟨hd, hdh, hdp, hwin, hlen ▸ hend.long hidle herr, hroom⟩
  have hfirst : FollowedRun e d e :=
    { toRasterRun := hstart, follows := fun _ _ => ⟨d, .refl d, (followsPhase_eHdr hep).2 ⟨rfl, rfl⟩⟩ }
  have hlast : FollowedRun e d e' :=
    runSteps_keeps_of_no_host (fun _ h => h.host) (fun _ _ h => h.next hready) hfirst hrun
  have hstream : e'.written = d.stream := by
    rw [State.written, State.stream, hlen, hend.job.outBase]
    exact (Memory.readList_eq_of_read hbytes).symm
  obtain ⟨u, hreach, hfollow⟩ := hlast.follows herr (hstream ▸ List.prefix_rfl)
  obtain ⟨d', hreach', hdecoded⟩ := ((followsPhase_idle hidle).1 hfollow).decodes hlen
  obtain ⟨m, hm⟩ := hreach.trans hreach'
  exact ⟨m, d', hm, hdecoded⟩

end Sys2Proof.Machine
end

section
/-! The statements about exceptions (60_exceptions.md). What a raising step assigns before it raises is read off the cases
of `Took` once (`BeforeRaise`); idleness and the interrupt follow from the settled statements about control. -/

namespace Sys2Proof.Machine

variable {s t u : State} {e : JobError}

/-! Steps that raise (R152). -/

/-- `BeforeRaise s e u`: a step from `s` may raise `e` on `u`, the state with the assignments its rule places before the
raise: none, the raw header fields (R101), or the cursor moved past the end marker (R148). -/
inductive BeforeRaise (s : State) : JobError → State → Prop
  | nothing (e : JobError) : BeforeRaise s e s
  | header (e : JobError) (h : List Byte) : s.phase = .dHdr → BeforeRaise s e (s.withHeader h)
  | marker : BeforeRaise s .trailingBytes (s.advanceIn 8)

/-- Raising is the only way an engine step changes ERR. -/
theorem Took.raises_or_keeps_err (ht : Took s t) :
    (∃ e u, BeforeRaise s e u ∧ t = raiseError e u) ∨ t.err = s.err := by
  cases ht with
  | raised e => exact .inl ⟨e, s, .nothing e, rfl⟩
  | badHeader e hp => exact .inl ⟨e, _, .header e _ hp, rfl⟩
  | trailing => exact .inl ⟨_, _, .marker, rfl⟩
  | wroteChunk => exact .inr (afterChunk_err ..)
  | _ => exact .inr rfl

theorem engineStep_raises (ht : engineStep s = .next t) (hs : s.err = false) (he : t.err = true) :
    ∃ e u, BeforeRaise s e u ∧ t = raiseError e u :=
  (engineStep_took ht).raises_or_keeps_err.resolve_right fun h => by simp [h, hs] at he

/-! The assignments before a raise reach IN_POS and the image's format, and nothing else. -/

theorem BeforeRaise.inPos (h : BeforeRaise s e u) : u.inPos = s.inPos ∨ (e.code = 10 ∧ u.inPos = s.inPos + 8) := by
  cases h with
  | nothing | header => exact .inl rfl
  | marker => exact .inr ⟨rfl, rfl⟩

theorem BeforeRaise.format (h : BeforeRaise s e u) : s.phase = .dHdr ∨
    (u.width = s.width ∧ u.height = s.height ∧ u.channels = s.channels ∧ u.colorspace = s.colorspace) := by
  cases h with
  | header _ _ hp => exact .inl hp
  | nothing | marker => exact .inr ⟨rfl, rfl, rfl, rfl⟩

theorem BeforeRaise.eq_with (h : BeforeRaise s e u) :
    u = { s with
      inPos := u.inPos, width := u.width, height := u.height, channels := u.channels, colorspace := u.colorspace } := by
  cases h <;> rfl

/-! The idle engine (R176). -/

theorem engineStep_stays_idle (hp : s.phase = .idle) (ht : engineStep s = .next t) : t.phase = .idle := by
  rw [engineStep_of_idle hp] at ht
  cases ht
  exact hp

/-! The statements. -/

/-- Settles O38: a raise on `u` keeps all of `u` but the flags, the phase and the output window, and `u` differs from `s`
only in what `BeforeRaise` allows. -/
theorem errorsEndTheJobPrecisely : Obligations.ErrorsEndTheJobPrecisely := by
  intro s t ht hs he
  obtain ⟨e, u, hu, rfl⟩ := engineStep_raises ht hs he
  refine ⟨rfl, ?_, ⟨e, rfl⟩, ?_, ?_, hu.inPos, hu.format, ?setup, ?datapath, ?bytes⟩ <;> rw [hu.eq_with]
  case setup | datapath => constructor <;> rfl
  case bytes => exact raiseError_read e _
  all_goals rfl

/-- Settles O37: the engine's own step rests in IDLE, and of the other moves only a START write leaves it (O36). -/
theorem onlyStartLeavesIdle : Obligations.OnlyStartLeavesIdle := by
  obtain ⟨-, hmoves, -⟩ := phaseChangesOnlyAsListed
  refine ⟨fun _ => engineStep_of_idle, fun s t hp ht hleft => ?_⟩
  unfold step at ht
  split at ht
  · exact absurd (engineStep_stays_idle hp ht) hleft
  · next m rest hhost =>
    by_cases hm : m = .letEngineStep
    · subst hm
      exact absurd (engineStep_stays_idle (s := { s with host := rest }) hp ht) hleft
    · obtain hsame | ⟨-, hi⟩ | ⟨-, ⟨v, rfl, hv⟩, -⟩ := hmoves _ t m hm ht
      · exact absurd (hsame.trans hp) hleft
      · exact absurd hi hleft
      · exact ⟨v, rest, hhost, hv⟩

/-- Settles O50: `irq` is recomputed from the fields the settled statements about CTRL, STATUS and BUSY writes give
(O46, O47, O48). -/
theorem interruptFollowsEnableAndFlags : Obligations.InterruptFollowsEnableAndFlags := by
  intro s
  refine ⟨by simp [State.irq], rfl, fun hb v hv => ?mask, fun hb v hv => ?start, fun hb => ?ack, ⟨_, rfl, rfl⟩,
    fun hb v => ⟨_, busyWritesChangeOnlyTheIrqEnable s 0 v hb rfl (by decide), rfl⟩⟩
  case mask =>
    obtain ⟨t, ht, -, hen, -, hkeeps, -⟩ := ctrlWriteStartsAJob s v hb
    obtain ⟨hdone, herr, -⟩ := hkeeps hv
    exact ⟨t, ht, hdone, herr, by rw [State.irq, hen, hdone, herr]⟩
  case start =>
    obtain ⟨t, ht, -, -, -, -, hstarts, -⟩ := ctrlWriteStartsAJob s v hb
    obtain ⟨hdone, herr, -⟩ := hstarts hv
    exact ⟨t, ht, by simp [State.irq, hdone, herr]⟩
  case ack =>
    obtain ⟨t, ht, hdone, herr, -⟩ := statusWritesClearFlags s 6 hb
    exact ⟨t, ht, by simp [State.irq, hdone, herr]⟩

/-- Settles O39: the codes are read off the table's definition. -/
theorem errorCodesAreTheTable : Obligations.ErrorCodesAreTheTable :=
  ⟨rfl, rfl, rfl, rfl, rfl, rfl, rfl, rfl, rfl, rfl⟩

end Sys2Proof.Machine
end

section
/-! The statements about reset, START and the encoder's room (70_reset_and_hazards.md). Along the run of an encode job
with legal registers and room no step raises an error, so that where the job ends it has succeeded. -/

namespace Sys2Proof.Machine

variable {s t s₀ : State}

/-! An encode job with room (R182). -/

/-- With legal registers and room no step of an encode job raises an error. -/
theorem EncodeRun.err_of_room (h : EncodeRun s₀ s) (hf : FormatOk s) (hr : s.rasterSize ≤ s.inLen.toNat)
    (hroom : HasRoom s) (ht : engineStep s = .next t) : t.err = s.err := by
  obtain hp | hp | ⟨hok, hp⟩ := h.phase_cases
  · rw [engineStep_of_idle hp] at ht
    cases ht; rfl
  · obtain ⟨-, hfresh⟩ := (phaseOk_eHdr hp).1 h.inv.phase
    rw [hfresh.engineStep_header hroom hf hr hp] at ht
    cases ht; rfl
  · exact hok.err_of_room hroom (hp.imp_right And.left) ht

/-- A state in the run of an encode job that has raised no error. -/
structure ErrorFreeRun (s₀ s : State) : Prop extends EncodeRun s₀ s where
  noError : s.err = false

theorem ErrorFreeRun.next (h : ErrorFreeRun s₀ s) (hf : FormatOk s₀) (hr : s₀.rasterSize ≤ s₀.inLen.toNat)
    (hroom : HasRoom s₀) (ht : engineStep s = .next t) : ErrorFreeRun s₀ t := by
  have hraster : s.rasterSize ≤ s.inLen.toNat := by rw [h.job.rasterSize, h.job.inLen]; exact hr
  have hkeep : t.err = s.err := h.err_of_room (hf.of_sameJob h.job) hraster (hroom.of_sameJob h.job) ht
  exact { toEncodeRun := h.toEncodeRun.next ht, noError := hkeep.trans h.noError }

/-- Settles O54: the job ends within its bound on steps (O52), and no step of its run raises an error, so that it ends
with DONE. -/
theorem encodeWithRoomSucceeds : Obligations.EncodeWithRoomSucceeds := by
  intro s h hh hp hf hr hroom
  obtain ⟨k, t, hrun, hi, hflag, -⟩ := (everyJobEndsWithinItsBound s h hh).2 hp
  have hstart : ErrorFreeRun s s :=
    { toEncodeRun := .start h hh hp, noError := (h.flagsClear (by simp [hp])).err }
  have hend : ErrorFreeRun s t :=
    runSteps_keeps_of_no_host (fun _ hu => hu.host) (fun _ _ hu => hu.next hf hr hroom) hstart hrun
  exact ⟨k, t, hrun, hi, hflag.resolve_right (by simp [hend.noError]), hend.noError⟩

/-! The reset event (R177, R178). -/

theorem resetEvent_host (s : State) : (resetEvent s).host = s.host := by
  show s.forgetIfBusy.host = s.host
  unfold State.forgetIfBusy
  split <;> rfl

theorem resetEvent_mem_of_idle (hb : s.busy = false) : (resetEvent s).mem = s.mem := by
  show s.forgetIfBusy.mem = s.mem
  simp [State.forgetIfBusy, hb]

/-- During a job, reset forgets the bytes an error would. -/
theorem resetEvent_mem_of_busy (hb : s.busy = true) (e : JobError) : (resetEvent s).mem = (raiseError e s).mem := by
  show s.forgetIfBusy.mem = s.forgetOutput.mem
  rw [State.forgetIfBusy, if_pos hb]

/-- Reset changes no byte outside the output window. -/
theorem resetEvent_read_outside {b : Nat} (h : s.inOutputWindow b = false) :
    (resetEvent s).mem.read b = s.mem.read b := by
  cases hb : s.busy with
  | false => rw [resetEvent_mem_of_idle hb]
  | true => rw [resetEvent_mem_of_busy hb .invalidConfig, raiseError_read _ s b h]

/-- Settles O2: every register is read off the reset event, and the two cases of its memory give the bytes. -/
theorem resetEventSetsStatedValues : Obligations.ResetEventSetsStatedValues := by
  intro s
  exact ⟨resetEvent s, rfl, ⟨rfl, rfl, rfl⟩, ⟨rfl, rfl, rfl, rfl⟩, ⟨rfl, rfl, rfl, rfl⟩,
    ⟨rfl, rfl, rfl, rfl⟩, ⟨rfl, rfl, rfl⟩, rfl, rfl, resetEvent_host s, engineStep_of_idle rfl,
    fun hb b => by rw [resetEvent_mem_of_idle hb], fun _ => resetEvent_read_outside⟩

/-! START (R87, R180). -/

/-- A CTRL write with START while idle sets CTRL's fields and starts the job. -/
theorem hostStep_start {v : Word} (hp : s.phase = .idle) (hv : v.getLsbD 0 = true) :
    hostStep (.regWrite 4 0 v) s = .next (startJob (s.setCtrl v)) := by
  refine hostStep_regWrite rfl (by decide) ?_
  rw [writeReg_of_idle (s.busy_eq_false_iff.2 hp)]
  show writeCtrl v s = _
  rw [writeCtrl_eq, if_pos hv]

/-- Settles O49: the write overwrites every field in which the two states differ, so both start the same job. -/
theorem startForgetsEarlierJobs : Obligations.StartForgetsEarlierJobs := by
  intro s v cache prev run outPos inPos px done err errcode mode irqEn strictEnd hp hv
  rw [hostStep_start hp hv]
  exact hostStep_start hp hv

end Sys2Proof.Machine
end
